-- ==== Sys2Proof/Word.lean ====
section
/-! DEFINITION. The words of the machine: a byte (spec rule R14), a 32-bit address or length
(rules R15, R13: `LEN_W = 32`), a wire opcode (rule R90). -/

namespace Sys2Proof

/-- A byte is 8 bits, bit 0 the least significant (R14). -/
abbrev Byte := BitVec 8

/-- A flash address, a CR2 address or a host address: 32 bits wide (R15, R61). -/
abbrev Addr := BitVec 32

/-- A length operand: `LEN_W = 32` bits (R13, D27). -/
abbrev Len := BitVec 32

/-- An opcode as the descriptor carries it. Spi opcodes use the low 8 bits, Opi opcodes all 16 (R90). -/
abbrev Opcode := BitVec 16

end Sys2Proof
end

