-- ==== Sys2Proof/Syntax.lean ====
section
/-! DEFINITION. The two encodings' vocabulary (spec file 30): electrical modes, logical operations,
transfer descriptors, transactions, and `Instr`, with one constructor for each row of
`spec/opcode_table.json`. -/

namespace Sys2Proof

/-- The Electrical Mode: "enum Spi, Opi" (R22). -/
inductive EMode where
  | Spi | Opi
deriving DecidableEq, Repr

/-- The fourteen logical operations of a command protocol table (R100). -/
inductive Lop where
  | resetEnable | resetMemory | writeEnable | readSr | readCr | readCr2 | writeSrCr | writeCr2
  | readId | readMem | pageProgram | sectorErase | blockErase64k | chipErase
deriving DecidableEq, Repr

/-- A number of bus lines: 1 or 8 (R90, R91). -/
inductive Lines where
  | one | eight
deriving DecidableEq, Repr

/-- An instruction size in bits: 8 or 16 (R90). -/
inductive ISize where
  | bits8 | bits16
deriving DecidableEq, Repr

/-- An address size in bits: 24 or 32; "none" is an absent value (R90). -/
inductive ASize where
  | bits24 | bits32
deriving DecidableEq, Repr

/-- The direction of a transaction (R90). -/
inductive Dir where
  | read | write | commandOnly
deriving DecidableEq, Repr

/-- A transfer descriptor, "the full shape of one bus transaction": the ten fields of R90 in order. -/
structure Descriptor where
  ilines  : Lines
  isize   : ISize
  alines  : Option Lines
  asize   : Option ASize
  dlines  : Option Lines
  dummy   : Nat
  opcode  : Option Opcode
  address : Option Addr
  dir     : Dir
  inline  : Option (List Byte)
deriving DecidableEq, Repr

/-- What goes beside a descriptor: nothing, the number of bytes wanted by a `Read`, or the bytes of a
`Write` (R150, R255). -/
inductive Payload where
  | none
  | read (n : Nat)
  | write (data : List Byte)
deriving DecidableEq, Repr

/-- A transaction as the chip receives it: "the pair (descriptor d, data)" (R255). -/
structure Txn where
  desc    : Descriptor
  payload : Payload
deriving DecidableEq, Repr

/-- The operations: seventeen host operations (R130, format `HOSTOP`; their operands stand in the host
operand registers, R131), then the fourteen wire commands in the Spi table and the same fourteen in the
Opi table (R100 to R114, formats `WIRE_SPI` and `WIRE_OPI`), with the operands a transaction carries:
the address an operation supplies, the number of bytes wanted, the bytes sent. -/
inductive Instr where
  -- host operations, in the order of their codes (R130)
  | construct
  | toOpi
  | toSpi
  | readId
  | readStatusRegister
  | readConfigurationRegister
  | readConfigurationRegister2
  | writeStatusAndConfigurationRegister
  | writeConfigurationRegister2
  | readMemory
  | writeMemory
  | pageProgram
  | eraseSector
  | eraseBlock64k
  | eraseChip
  | enableMemoryMapped
  | disableMemoryMapped
  -- wire commands, Spi table
  | resetEnableSpi
  | resetMemorySpi
  | writeEnableSpi
  | readSrSpi
  | readCrSpi
  | readCr2Spi (a : Addr)
  | writeSrCrSpi (sr cr : Byte)
  | writeCr2Spi (a : Addr) (v : Byte)
  | readIdSpi
  | readMemSpi (a : Addr) (n : Nat)
  | pageProgramSpi (a : Addr) (data : List Byte)
  | sectorEraseSpi (a : Addr)
  | blockErase64kSpi (a : Addr)
  | chipEraseSpi
  -- wire commands, Opi table
  | resetEnableOpi
  | resetMemoryOpi
  | writeEnableOpi
  | readSrOpi
  | readCrOpi
  | readCr2Opi (a : Addr)
  | writeSrCrOpi (sr cr : Byte)
  | writeCr2Opi (a : Addr) (v : Byte)
  | readIdOpi
  | readMemOpi (a : Addr) (n : Nat)
  | pageProgramOpi (a : Addr) (data : List Byte)
  | sectorEraseOpi (a : Addr)
  | blockErase64kOpi (a : Addr)
  | chipEraseOpi
deriving DecidableEq, Repr

/-- Why a request code or a transaction reads as no operation. -/
inductive DecodeError where
  /-- A host operation code 0x11 to 0xFF (R132). -/
  | reservedRequest
  /-- Lines and size of the instruction phase are the format of neither mode (R134). -/
  | unknownFormat
  /-- The opcode is in no row of the table of its format (R258). -/
  | unknownOpcode
  /-- The opcode is known and the rest of the descriptor, or the data, has not its row's shape (R258). -/
  | badShape
deriving DecidableEq, Repr

/-- What an operation is encoded as: a host request code (R131) or a transaction (R90, R255). -/
inductive Code where
  | request (op : Byte)
  | txn (x : Txn)
deriving DecidableEq, Repr

end Sys2Proof
end

