-- ==== Sys2Proof/Config.lean ====
section
/-! DEFINITION. Implementation parameters (spec file 00, R8 to R13; file 92, last table) and the free
values the spec leaves undetermined (file 93, section 1.3). A constant without a body is a parameter
the spec leaves open, or a draw: nothing can be proved of its value. -/

namespace Sys2Proof.Config

/-- `PAGE_SIZE = 256` bytes (R8). -/
def pageSize : Nat := 256

/-- `SECTOR_SIZE = 4096` bytes (R8). -/
def sectorSize : Nat := 4096

/-- `BLOCK_SIZE = 65536` bytes (R8). -/
def blockSize : Nat := 65536

/-- `CAPACITY = 33554432` bytes, 32 MiB (R8). -/
def capacity : Nat := 33554432

/-- `DUMMY_READ_SPI = 8` (R12). -/
def dummyReadSpi : Nat := 8

/-- `DUMMY_READ_OPI = 20` (R12). -/
def dummyReadOpi : Nat := 20

/-- `DUMMY_REG_SPI = 0` (R12). -/
def dummyRegSpi : Nat := 0

/-- `BUSCFG`, the fixed bus-timing configuration: five fields named and not valued by the source (R10). -/
structure BusCfg where
  clockDivisor  : Nat
  fifoThreshold : Nat
  chipSelect    : Nat
  deviceSize    : Nat
  wrapBehaviour : Nat
deriving DecidableEq, Repr, Inhabited

/-- The `BUSCFG` handed over at construction. The spec leaves every field open (R10; log entry 14). -/
opaque busCfg : BusCfg

/-- What the platform chose for `MM_BASE`, in units of four bytes and before the range constraint. -/
opaque mmBaseChoice : Nat

/-- `MM_BASE`, left open by the spec with the constraints `MM_BASE mod 4 = 0` and
`MM_BASE + CAPACITY <= 2^32` (R9). The expression takes each legal value and no other (log entry 14). -/
def mmBase : Nat := 4 * (mmBaseChoice % ((2 ^ 32 - capacity) / 4 + 1))

/-- `CHIP_ID`: the three identification bytes, constant for the life of the chip, given no value (R266). -/
opaque chipId0 : Byte
opaque chipId1 : Byte
opaque chipId2 : Byte

/-- `CHIP_ID` as the list `READ_ID` answers (R266). -/
def chipId : List Byte := [chipId0, chipId1, chipId2]

/-- One cell of a command protocol table: "(opcode value, default dummy-cycle count, default address
width)" (R11, R100). -/
structure OpEntry where
  opcode : Opcode
  dummy  : Nat
  asize  : Option ASize
deriving DecidableEq, Repr

/-- The command protocol table of one mode: a cell for each of the fourteen logical operations (R100). -/
structure ModeTab where
  resetEnable   : OpEntry
  resetMemory   : OpEntry
  writeEnable   : OpEntry
  readSr        : OpEntry
  readCr        : OpEntry
  readCr2       : OpEntry
  writeSrCr     : OpEntry
  writeCr2      : OpEntry
  readId        : OpEntry
  readMem       : OpEntry
  pageProgram   : OpEntry
  sectorErase   : OpEntry
  blockErase64k : OpEntry
  chipErase     : OpEntry
deriving DecidableEq, Repr

/-- `OPTAB` with `REGADDR`: the pair of command protocol tables and the four register addresses, the parameter the spec
makes them (R11, R12, R13, R116, R119). The machine carries its value and no step writes it (log entry 12). -/
structure OpTab where
  spi           : ModeTab
  opi           : ModeTab
  addrReadSr    : Addr
  addrReadCr    : Addr
  addrWriteSrCr : Addr
  addrReadId    : Addr
deriving DecidableEq, Repr

/-- The cell of a logical operation. -/
def ModeTab.entry (t : ModeTab) : Lop → OpEntry
  | .resetEnable   => t.resetEnable
  | .resetMemory   => t.resetMemory
  | .writeEnable   => t.writeEnable
  | .readSr        => t.readSr
  | .readCr        => t.readCr
  | .readCr2       => t.readCr2
  | .writeSrCr     => t.writeSrCr
  | .writeCr2      => t.writeCr2
  | .readId        => t.readId
  | .readMem       => t.readMem
  | .pageProgram   => t.pageProgram
  | .sectorErase   => t.sectorErase
  | .blockErase64k => t.blockErase64k
  | .chipErase     => t.chipErase

/-- The table of one mode whose cell of each operation is `f` of it. -/
def ModeTab.of (f : Lop → OpEntry) : ModeTab where
  resetEnable   := f .resetEnable
  resetMemory   := f .resetMemory
  writeEnable   := f .writeEnable
  readSr        := f .readSr
  readCr        := f .readCr
  readCr2       := f .readCr2
  writeSrCr     := f .writeSrCr
  writeCr2      := f .writeCr2
  readId        := f .readId
  readMem       := f .readMem
  pageProgram   := f .pageProgram
  sectorErase   := f .sectorErase
  blockErase64k := f .blockErase64k
  chipErase     := f .chipErase

/-- `OPTAB(m, lop)` (R11, R96). -/
def OpTab.entry (t : OpTab) : EMode → Lop → OpEntry
  | .Spi => t.spi.entry
  | .Opi => t.opi.entry

/-- `REGADDR(lop)`, of the four operations it is given for (R119); no other operation asks for it. -/
def OpTab.regAddr (t : OpTab) : Lop → Addr
  | .readSr    => t.addrReadSr
  | .readCr    => t.addrReadCr
  | .writeSrCr => t.addrWriteSrCr
  | .readId    => t.addrReadId
  | _          => 0#32

/-! Draws. Each is applied to the machine's draw counter, so that two draws are two values. -/

/-- An unspecified byte: a result register or a byte of `BUF` after an abort (R30, R311), a byte of a
destination buffer before it is filled (R31). Log entry 8. -/
opaque freeByte : Nat → Byte

/-- A byte of the array that a mutating command was changing when power was lost: draw, address (R289). Log entry 21. -/
opaque tornByte : Nat → Nat → Byte

/-- The status register after RESET_MEMORY; only its bits 7:2 are used (R261). Log entry 7. -/
opaque drawSr : Nat → Byte

/-- The configuration register after RESET_MEMORY (R261). Log entry 7. -/
opaque drawCr : Nat → Byte

/-- CR2 at an address, after RESET_MEMORY; at address 0 only bits 7:2 are used (R261). Log entry 7. -/
opaque drawCr2 : Nat → Nat → Byte

end Sys2Proof.Config
end

