-- ==== Sys2Proof/WellFormed.lean ====
section
/-! DEFINITION. Well-formedness: of an operation's operands (the shapes of R101 to R114), of the pair of
command tables (R115), of a descriptor the controller builds (R92). -/

namespace Sys2Proof

/-- The fourteen logical operations, in the order of R100. -/
def Lop.all : List Lop :=
  [.resetEnable, .resetMemory, .writeEnable, .readSr, .readCr, .readCr2, .writeSrCr, .writeCr2,
   .readId, .readMem, .pageProgram, .sectorErase, .blockErase64k, .chipErase]

/-- The operands an encoding admits: a `READ_MEM` wants at least one byte (R142, R274), a `PAGE_PROGRAM`
sends 1 to 256 (R111, R276); a byte count travels as a `LEN_W`-bit length (R13). Every other operand
field is admitted whole. -/
def Instr.wf : Instr → Bool
  | .readMemSpi _ n | .readMemOpi _ n => decide (1 ≤ n ∧ n < 2 ^ 32)
  | .pageProgramSpi _ data | .pageProgramOpi _ data =>
      decide (1 ≤ data.length ∧ data.length ≤ Config.pageSize)
  | _ => true

/-- Both modes' opcodes are pairwise distinct (R115). -/
def OpTab.distinct (t : Config.OpTab) : Bool :=
  [EMode.Spi, EMode.Opi].all fun m => Lop.all.all fun l => Lop.all.all fun k =>
    l == k || (t.entry m l).opcode != (t.entry m k).opcode

/-- Every Spi opcode fits 8 bits (R115; an Opi opcode fits 16 by its type). -/
def OpTab.spiFits (t : Config.OpTab) : Bool :=
  Lop.all.all fun l => decide ((t.entry .Spi l).opcode.toNat < 256)

/-- The six operations that take a 32-bit address in both modes do (R115). -/
def OpTab.addressed (t : Config.OpTab) : Bool :=
  [EMode.Spi, EMode.Opi].all fun m =>
    [Lop.readMem, .pageProgram, .sectorErase, .blockErase64k, .readCr2, .writeCr2].all fun l =>
      (t.entry m l).asize == some .bits32

/-- The dummy counts R115 fixes: 8 and 20 for `READ_MEM`; 0 in Spi and at least 1 in Opi for the three
register reads. -/
def OpTab.dummies (t : Config.OpTab) : Bool :=
  (t.entry .Spi .readMem).dummy == Config.dummyReadSpi
  && (t.entry .Opi .readMem).dummy == Config.dummyReadOpi
  && [Lop.readSr, .readCr, .readCr2].all fun l =>
      (t.entry .Spi l).dummy == Config.dummyRegSpi && decide (1 ≤ (t.entry .Opi l).dummy)

/-- Well-formedness of `OPTAB`, whatever values it is given (R115). -/
def OpTab.wf (t : Config.OpTab) : Bool :=
  OpTab.distinct t && OpTab.spiFits t && OpTab.addressed t && OpTab.dummies t

/-- Well-formedness of a descriptor the controller builds for a transaction (R92). -/
def Descriptor.wf (d : Descriptor) : Bool :=
  d.opcode.isSome
  && (d.asize.isNone == d.address.isNone) && (d.asize.isNone == d.alines.isNone)
  && (d.dlines.isNone == (d.dir == .commandOnly))
  && (d.dummy == 0 || d.dir == .read)
  && d.asize != some .bits24
  && d.inline.isNone

/-- Well-formedness of a passthrough template: as a descriptor, but `asize = 32` with `address = none`,
"because the transport supplies the address of each window access" (R92, R129). -/
def Descriptor.templateWf (d : Descriptor) : Bool :=
  d.asize == some .bits32 && d.address.isNone && Descriptor.wf { d with address := some 0 }

end Sys2Proof
end

