-- ==== Sys2Proof/Decode.lean ====
section
/-! DEFINITION. The encodings of spec file 30: the default command tables (R101 to R114, R119), the
descriptor builder (R96), the chip's decoding of a transaction (R256, R258), the decoding of a host
request code (R130 to R132), and, after them, the encoder. -/

namespace Sys2Proof

/-! ### The default tables -/

/-- The direction of each logical operation (R101 to R114). -/
def Lop.dir : Lop → Dir
  | .resetEnable | .resetMemory | .writeEnable | .sectorErase | .blockErase64k | .chipErase => .commandOnly
  | .readSr | .readCr | .readCr2 | .readId | .readMem => .read
  | .writeSrCr | .writeCr2 | .pageProgram => .write

/-- The logical operations whose address, when one is sent, comes from the operation and not from
`REGADDR` (R96, R101 to R114). -/
def Lop.operandAddress : Lop → Bool
  | .readCr2 | .writeCr2 | .readMem | .pageProgram | .sectorErase | .blockErase64k => true
  | _ => false

/-- The six mutating logical operations (R118). -/
def Lop.mutating : Lop → Bool
  | .writeSrCr | .writeCr2 | .pageProgram | .sectorErase | .blockErase64k | .chipErase => true
  | _ => false

/-- The default of `DUMMY_REG_OPI`, a parameter constrained to be at least 1 (R12, from general knowledge; log entry 13). -/
def defaultDummyRegOpi : Nat := 4

/-- The default Spi opcodes (R101 to R114, from general knowledge; log entry 12). -/
def spiOpcode : Lop → Opcode
  | .resetEnable   => 0x66#16
  | .resetMemory   => 0x99#16
  | .writeEnable   => 0x06#16
  | .readSr        => 0x05#16
  | .readCr        => 0x15#16
  | .readCr2       => 0x71#16
  | .writeSrCr     => 0x01#16
  | .writeCr2      => 0x72#16
  | .readId        => 0x9F#16
  | .readMem       => 0x0C#16
  | .pageProgram   => 0x12#16
  | .sectorErase   => 0x21#16
  | .blockErase64k => 0xDC#16
  | .chipErase     => 0x60#16

/-- The default Opi opcodes (R101 to R114, from general knowledge; log entry 12). -/
def opiOpcode : Lop → Opcode
  | .resetEnable   => 0x6699#16
  | .resetMemory   => 0x9966#16
  | .writeEnable   => 0x06F9#16
  | .readSr        => 0x05FA#16
  | .readCr        => 0x15EA#16
  | .readCr2       => 0x718E#16
  | .writeSrCr     => 0x01FE#16
  | .writeCr2      => 0x728D#16
  | .readId        => 0x9F60#16
  | .readMem       => 0xEC13#16
  | .pageProgram   => 0x12ED#16
  | .sectorErase   => 0x21DE#16
  | .blockErase64k => 0xDC23#16
  | .chipErase     => 0x609F#16

/-- A cell of the Spi table, its opcode apart: an address only where the operation supplies one; 8 dummy cycles for the
fast read and 0 elsewhere (R101 to R114). -/
def spiEntry (o : Opcode) (l : Lop) : Config.OpEntry where
  opcode := o
  dummy := match l with
    | .readMem => Config.dummyReadSpi
    | _ => Config.dummyRegSpi
  asize := if l.operandAddress then some .bits32 else none

/-- A cell of the Opi table, its opcode apart: register reads become address-qualified with `DUMMY_REG_OPI` dummy cycles,
the octal read takes 20 (R101 to R114). -/
def opiEntry (o : Opcode) (dummyRegOpi : Nat) (l : Lop) : Config.OpEntry where
  opcode := o
  dummy := match l with
    | .readSr | .readCr | .readCr2 | .readId => dummyRegOpi
    | .readMem => Config.dummyReadOpi
    | _ => 0
  asize := match l with
    | .resetEnable | .resetMemory | .writeEnable | .chipErase => none
    | _ => some .bits32

/-- The tables of R101 to R114 for any choice of the open parameters: the opcodes (D5), `DUMMY_REG_OPI` (D7), the four
values of `REGADDR` (D8). -/
def tableOf (spiOp opiOp : Lop → Opcode) (dummyRegOpi : Nat) (atReadSr atReadCr atWriteSrCr atReadId : Addr) :
    Config.OpTab where
  spi := .of fun l => spiEntry (spiOp l) l
  opi := .of fun l => opiEntry (opiOp l) dummyRegOpi l
  addrReadSr := atReadSr
  addrReadCr := atReadCr
  addrWriteSrCr := atWriteSrCr
  addrReadId := atReadId

/-- `OPTAB` at its default values (R117), `REGADDR` 0, 1, 0, 0 among them (R119, from general knowledge; log entry 13). -/
def defaultTab : Config.OpTab := tableOf spiOpcode opiOpcode defaultDummyRegOpi 0 1 0 0

/-! ### The descriptor builder -/

/-- Lines of every present phase in a mode (R91). -/
def EMode.lines : EMode → Lines
  | .Spi => .one
  | .Opi => .eight

/-- Instruction size in a mode (R91). -/
def EMode.isize : EMode → ISize
  | .Spi => .bits8
  | .Opi => .bits16

/-- The descriptor builder `build(lop, a)` of R96, in the mode `m` of `CTRL.emode`. -/
def build (t : Config.OpTab) (m : EMode) (l : Lop) (a : Option Addr) : Descriptor where
  ilines  := m.lines
  isize   := m.isize
  alines  := if (t.entry m l).asize.isSome then some m.lines else none
  asize   := (t.entry m l).asize
  dlines  := if l.dir = .commandOnly then none else some m.lines
  dummy   := (t.entry m l).dummy
  opcode  := some (t.entry m l).opcode
  address := if (t.entry m l).asize.isSome then (if l.operandAddress then a else some (t.regAddr l)) else none
  dir     := l.dir
  inline  := none

/-- A passthrough template: the descriptor with `asize = 32` and no address (R129). -/
def template (t : Config.OpTab) (m : EMode) (l : Lop) : Descriptor :=
  { build t m l none with asize := some .bits32, address := none }

/-! ### Decoding a transaction -/

/-- The mode whose format the instruction phase has: (1, 8) is Spi, (8, 16) is Opi (R256). -/
def Descriptor.format (d : Descriptor) : Option EMode :=
  match d.ilines, d.isize with
  | .one, .bits8 => some .Spi
  | .eight, .bits16 => some .Opi
  | _, _ => none

/-- "The logical operation is the unique lop with OPTAB(mode, lop).opcode = d.opcode" (R256). -/
def lookup (t : Config.OpTab) (m : EMode) (o : Opcode) : Option Lop :=
  Lop.all.find? fun l => (t.entry m l).opcode == o

/-- A command without data: the row's operation, when nothing comes with it (R101 to R103, R112 to R114). -/
def bare (i : Instr) (p : Payload) : Option Instr := if p = .none then some i else none

/-- A `Read` of exactly `n` bytes (R104 to R106, R109). -/
def asking (n : Nat) (i : Instr) (p : Payload) : Option Instr := if p = .read n then some i else none

/-- A `Read` of any number of bytes (R110). -/
def askingAny (f : Nat → Instr) : Payload → Option Instr
  | .read n => some (f n)
  | _ => none

/-- A `Write` of any bytes (R111). -/
def sendingAny (f : List Byte → Instr) : Payload → Option Instr
  | .write data => some (f data)
  | _ => none

/-- A `Write` of one byte (R108). -/
def sendingOne (f : Byte → Instr) : Payload → Option Instr
  | .write [v] => some (f v)
  | _ => none

/-- A `Write` of two bytes (R107). -/
def sendingTwo (f : Byte → Byte → Instr) : Payload → Option Instr
  | .write [v, w] => some (f v w)
  | _ => none

/-- The Spi wire command of a logical operation, its address and its data; `none` where address or data have not the row's
shape (R101 to R114, R260 to R280). -/
def spiInstr (l : Lop) (a : Option Addr) (p : Payload) : Option Instr :=
  match l with
  | .resetEnable => bare .resetEnableSpi p
  | .resetMemory => bare .resetMemorySpi p
  | .writeEnable => bare .writeEnableSpi p
  | .readSr => asking 1 .readSrSpi p
  | .readCr => asking 1 .readCrSpi p
  | .readCr2 => a.bind fun a => asking 1 (.readCr2Spi a) p
  | .writeSrCr => sendingTwo .writeSrCrSpi p
  | .writeCr2 => a.bind fun a => sendingOne (.writeCr2Spi a) p
  | .readId => asking 3 .readIdSpi p
  | .readMem => a.bind fun a => askingAny (.readMemSpi a) p
  | .pageProgram => a.bind fun a => sendingAny (.pageProgramSpi a) p
  | .sectorErase => a.bind fun a => bare (.sectorEraseSpi a) p
  | .blockErase64k => a.bind fun a => bare (.blockErase64kSpi a) p
  | .chipErase => bare .chipEraseSpi p

/-- The Opi wire command of a logical operation, its address and its data; `none` where address or data have not the row's
shape (R101 to R114, R260 to R280). -/
def opiInstr (l : Lop) (a : Option Addr) (p : Payload) : Option Instr :=
  match l with
  | .resetEnable => bare .resetEnableOpi p
  | .resetMemory => bare .resetMemoryOpi p
  | .writeEnable => bare .writeEnableOpi p
  | .readSr => asking 1 .readSrOpi p
  | .readCr => asking 1 .readCrOpi p
  | .readCr2 => a.bind fun a => asking 1 (.readCr2Opi a) p
  | .writeSrCr => sendingTwo .writeSrCrOpi p
  | .writeCr2 => a.bind fun a => sendingOne (.writeCr2Opi a) p
  | .readId => asking 3 .readIdOpi p
  | .readMem => a.bind fun a => askingAny (.readMemOpi a) p
  | .pageProgram => a.bind fun a => sendingAny (.pageProgramOpi a) p
  | .sectorErase => a.bind fun a => bare (.sectorEraseOpi a) p
  | .blockErase64k => a.bind fun a => bare (.blockErase64kOpi a) p
  | .chipErase => bare .chipEraseOpi p

/-- The wire command of a mode's table. -/
def wireInstr : EMode → Lop → Option Addr → Payload → Option Instr
  | .Spi => spiInstr
  | .Opi => opiInstr

/-- The chip's decoding of a transaction (R256): format, opcode, then the rest of the descriptor and the
data against the row's shape (R258). Which mode the chip is in is not asked here: that is R257's
question, and the wire commands' meanings ask it. -/
def decodeTxn (t : Config.OpTab) (x : Txn) : Except DecodeError Instr :=
  match x.desc.format, x.desc.opcode with
  | none, _ => .error .unknownFormat
  | some _, none => .error .unknownOpcode
  | some m, some o =>
    match lookup t m o with
    | none => .error .unknownOpcode
    | some l =>
      match wireInstr m l x.desc.address x.payload with
      | none => .error .badShape
      | some i =>
        if x.desc = build t m l x.desc.address ∧ i.wf = true then .ok i else .error .badShape

/-! ### Decoding a host request -/

/-- The host operation of a request code: bits 7:5 zero, bits 4:0 the index (R130, R131); codes 0x11 to
0xFF are reserved (R132). -/
def decodeRequest (op : Byte) : Except DecodeError Instr :=
  match op.toNat with
  | 0x00 => .ok .construct
  | 0x01 => .ok .toOpi
  | 0x02 => .ok .toSpi
  | 0x03 => .ok .readId
  | 0x04 => .ok .readStatusRegister
  | 0x05 => .ok .readConfigurationRegister
  | 0x06 => .ok .readConfigurationRegister2
  | 0x07 => .ok .writeStatusAndConfigurationRegister
  | 0x08 => .ok .writeConfigurationRegister2
  | 0x09 => .ok .readMemory
  | 0x0A => .ok .writeMemory
  | 0x0B => .ok .pageProgram
  | 0x0C => .ok .eraseSector
  | 0x0D => .ok .eraseBlock64k
  | 0x0E => .ok .eraseChip
  | 0x0F => .ok .enableMemoryMapped
  | 0x10 => .ok .disableMemoryMapped
  | _ => .error .reservedRequest

/-- Decoding either encoding. -/
def decode (t : Config.OpTab) : Code → Except DecodeError Instr
  | .request op => decodeRequest op
  | .txn x => decodeTxn t x

/-! ### The encoder -/

/-- The request code of a host operation (R130); `none` for a wire command. -/
def Instr.requestCode : Instr → Option Byte
  | .construct => some 0x00
  | .toOpi => some 0x01
  | .toSpi => some 0x02
  | .readId => some 0x03
  | .readStatusRegister => some 0x04
  | .readConfigurationRegister => some 0x05
  | .readConfigurationRegister2 => some 0x06
  | .writeStatusAndConfigurationRegister => some 0x07
  | .writeConfigurationRegister2 => some 0x08
  | .readMemory => some 0x09
  | .writeMemory => some 0x0A
  | .pageProgram => some 0x0B
  | .eraseSector => some 0x0C
  | .eraseBlock64k => some 0x0D
  | .eraseChip => some 0x0E
  | .enableMemoryMapped => some 0x0F
  | .disableMemoryMapped => some 0x10
  | _ => none

/-- The mode, the logical operation, the address operand and the data of a wire command (R100 to R114);
`none` for a host operation. -/
def Instr.wireParts : Instr → Option (EMode × Lop × Option Addr × Payload)
  | .resetEnableSpi => some (.Spi, .resetEnable, none, .none)
  | .resetMemorySpi => some (.Spi, .resetMemory, none, .none)
  | .writeEnableSpi => some (.Spi, .writeEnable, none, .none)
  | .readSrSpi => some (.Spi, .readSr, none, .read 1)
  | .readCrSpi => some (.Spi, .readCr, none, .read 1)
  | .readCr2Spi a => some (.Spi, .readCr2, some a, .read 1)
  | .writeSrCrSpi sr cr => some (.Spi, .writeSrCr, none, .write [sr, cr])
  | .writeCr2Spi a v => some (.Spi, .writeCr2, some a, .write [v])
  | .readIdSpi => some (.Spi, .readId, none, .read 3)
  | .readMemSpi a n => some (.Spi, .readMem, some a, .read n)
  | .pageProgramSpi a data => some (.Spi, .pageProgram, some a, .write data)
  | .sectorEraseSpi a => some (.Spi, .sectorErase, some a, .none)
  | .blockErase64kSpi a => some (.Spi, .blockErase64k, some a, .none)
  | .chipEraseSpi => some (.Spi, .chipErase, none, .none)
  | .resetEnableOpi => some (.Opi, .resetEnable, none, .none)
  | .resetMemoryOpi => some (.Opi, .resetMemory, none, .none)
  | .writeEnableOpi => some (.Opi, .writeEnable, none, .none)
  | .readSrOpi => some (.Opi, .readSr, none, .read 1)
  | .readCrOpi => some (.Opi, .readCr, none, .read 1)
  | .readCr2Opi a => some (.Opi, .readCr2, some a, .read 1)
  | .writeSrCrOpi sr cr => some (.Opi, .writeSrCr, none, .write [sr, cr])
  | .writeCr2Opi a v => some (.Opi, .writeCr2, some a, .write [v])
  | .readIdOpi => some (.Opi, .readId, none, .read 3)
  | .readMemOpi a n => some (.Opi, .readMem, some a, .read n)
  | .pageProgramOpi a data => some (.Opi, .pageProgram, some a, .write data)
  | .sectorEraseOpi a => some (.Opi, .sectorErase, some a, .none)
  | .blockErase64kOpi a => some (.Opi, .blockErase64k, some a, .none)
  | .chipEraseOpi => some (.Opi, .chipErase, none, .none)
  | _ => none

/-- The encoder: a request code for a host operation, for a wire command the transaction the descriptor
builder makes of it (R96, R130). -/
def encode (t : Config.OpTab) (i : Instr) : Code :=
  match i.wireParts with
  | some (m, l, a, p) => .txn ⟨build t m l a, p⟩
  | none => .request (i.requestCode.getD 0xFF)

/-! ### The words of the opcode table -/

/-- Data for a table word, which carries an opcode alone: as many zero bytes, or as many bytes wanted, as
the row's shape needs at least (log entry 29). -/
def leastPayload : Lop → Payload
  | .readSr | .readCr | .readCr2 | .readMem => .read 1
  | .readId => .read 3
  | .writeSrCr => .write [0, 0]
  | .writeCr2 | .pageProgram => .write [0]
  | _ => .none

/-- The transaction of an opcode word in the format of mode `m`, every operand zero. -/
def wordTxn (t : Config.OpTab) (m : EMode) (w : Nat) : Option Txn :=
  if w < 2 ^ 16 then
    (lookup t m (BitVec.ofNat 16 w)).map fun l => ⟨build t m l (some 0), leastPayload l⟩
  else none

/-- The code a table word stands for. Eight bits: a host request where R130 gives the code, else an Spi
opcode (four Spi opcodes have the value of a request code and are read as the request: log entry 1).
Sixteen bits: an Opi opcode. -/
def wordCode (t : Config.OpTab) (nbits w : Nat) : Option Code :=
  if nbits = 8 then
    if w ≤ 0x10 then some (.request (BitVec.ofNat 8 w))
    else
      match wordTxn t .Spi w with
      | some x => some (.txn x)
      | none => if w < 256 then some (.request (BitVec.ofNat 8 w)) else none
  else if nbits = 16 then (wordTxn t .Opi w).map Code.txn
  else none

/-- What the decoder reads from the bits of a row of `spec/opcode_table.json`, whose values are the default table's (D5). -/
def decodeTableWord (nbits w : Nat) : Option Instr :=
  match wordCode defaultTab nbits w with
  | none => none
  | some c =>
    match decode defaultTab c with
    | .ok i => some i
    | .error _ => none

end Sys2Proof
end

