-- ==== Sys2Proof/Machine/State.lean ====
section
/-! DEFINITION. The state of the modelled system (spec file 10, R20 to R42) as plain data, its reset value
(R46, R47, R340), the abort causes (R300), and the reasons a step can stop. The part called `Env` is the
model's own: what other agents will do next, and the bookkeeping R16 and R148 ask for. -/

namespace Sys2Proof.Machine

/-! ### Controller state (CTRL) -/

/-- `CTRL.cstate` (R21). -/
inductive CState where
  | unconstructed | ready | faulted
deriving DecidableEq, Repr

/-- `CTRL.mmode`, the Mapping Mode (R23). -/
inductive MMode where
  | Direct | MemoryMapped
deriving DecidableEq, Repr

/-- `CTRL.phase`: the label of the next micro-step, or `idle` (R25, R26). The labels are those of the
pseudocode: S1 to S5 (R170), O1 to O6 (R181), X1 to X6 (R184), I1, I2 (R190), RS1 (R192), RC1 (R193),
RQ1 (R194), B1, B2 (R210), M1, M2 (R158), W1 (R156), G1, G3 (R215), P1 to P7 (R220), E1 to E3 (R240), F1, F2
(R244). A label that only enters another sequence (S4, O5, X5 and M3 enter W1; G2 enters M1) is that
sequence's first label. `fin` is the unlabelled last line of R195, R196 and R230 to R232 (log entry 16). -/
inductive Phase where
  | idle
  | s1 | s2 | s3 | s5
  | o1 | o2 | o3 | o4 | o6
  | x1 | x2 | x3 | x4 | x6
  | i1 | i2
  | rs1 | rc1 | rq1
  | b1 | b2
  | m1 | m2 | w1
  | g1 | g3
  | p1 | p2 | p3 | p4 | p5 | p6 | p7
  | e1 | e2 | e3
  | f1 | f2
  | fin
deriving DecidableEq, Repr

/-- The controller's registers (R21 to R28). -/
structure Ctrl where
  cstate : CState
  emode  : EMode
  mmode  : MMode
  /-- The cause code of the abort (R24). -/
  cause  : Byte
  phase  : Phase
  /-- Scratch register (R27). -/
  tmp    : Byte
  /-- `BUSCFG` as given at construction (R28). -/
  cfg    : Config.BusCfg
deriving DecidableEq, Repr

/-- The page-split sequencer's registers (R29). -/
structure Seq where
  cursor    : Addr
  remaining : Len
  produced  : Len
  maxChunk  : BitVec 9
  chunk     : BitVec 9
deriving DecidableEq, Repr

/-! ### Host interface (HOSTIF) -/

/-- The operand and result registers `x[..]` (R30) and the host data buffer `BUF` (R31). -/
structure HostIf where
  op  : Byte
  a   : Addr
  n   : Len
  v0  : Byte
  v1  : Byte
  st  : Byte
  r0  : Byte
  r1  : Byte
  r2  : Byte
  buf : List Byte
deriving DecidableEq, Repr

/-! ### Transport state (XPORT) -/

/-- The transport's state (R32 to R34). -/
structure Xport where
  passthrough : Bool
  rdTpl : Option Descriptor
  wrTpl : Option Descriptor
  cfg   : Config.BusCfg
deriving DecidableEq, Repr

/-- Which transport call an event of `TRACE` records (R148). -/
inductive CallKind where
  | execute | read | write
deriving DecidableEq, Repr

/-- One event of `TRACE`: "(kind, d, data, outcome)" and the position in the request sequence of the host
operation that made it (R148). `ok` is the outcome; the two passthrough calls cannot fail (R144, R145) and
a window read has no failing outcome (R248). -/
inductive Event where
  | call (kind : CallKind) (d : Descriptor) (data : Option (List Byte)) (ok : Bool) (op : Nat)
  | enablePassthrough (rt wt : Descriptor) (op : Nat)
  | disablePassthrough (op : Nat)
  | windowRead (a : Nat) (bytes : List Byte)
deriving DecidableEq, Repr

/-! ### Chip state (CHIP) -/

/-- The array bytes that the mutating command the chip accepted last is changing: what a loss of power during its busy
period leaves without a value (R289). The model's own mark; only a loss of power reads it (log entry 21). -/
inductive Pending where
  | nothing
  /-- A page program of `n` bytes at `a`. -/
  | program (a n : Nat)
  /-- An erase of the bytes from `lo` up to, not including, `hi`. -/
  | erase (lo hi : Nat)
deriving DecidableEq, Repr

/-- The flash chip (R36 to R41). `array` lists the bytes that differ from the erased byte; `cr2` lists the
CR2 registers at addresses other than 0 that differ from `cr2Base`; address 0, the one register described
(R39), has its own field. -/
structure Chip where
  array   : List Host.Cell
  sr      : Byte
  cr      : Byte
  cr20    : Byte
  cr2     : List Host.Cell
  /-- What an unlisted CR2 address holds: the power-on value, or draw number `k` of a reset (R261). -/
  cr2Base : Option Nat
  rsten   : Bool
  pending : Pending
deriving DecidableEq, Repr

/-! ### The other agents' next moves, and bookkeeping -/

/-- What one transport call meets: success, a failure of which the chip saw the transaction, or a failure
of which it did not (R146, R147). -/
inductive CallDraw where
  | ok | errDelivered | errLost
deriving DecidableEq, Repr

/-- A sequence of choices made outside the machine: those listed, then `rest` for ever. -/
structure Feed (α : Type) where
  pre  : List α
  rest : α
deriving DecidableEq, Repr

/-- One move of the host (R16, R30, R135, R248, R249, R251, R340). -/
inductive HostAct where
  | setA (v : Addr)
  /-- Hand over a buffer of `v` bytes whose contents the host leaves unspecified (`read_memory`). -/
  | setN (v : Len)
  | setV0 (v : Byte)
  | setV1 (v : Byte)
  /-- Hand over a buffer with its contents: `BUF` and `x[N] = buffer.len()` (R30, R31). -/
  | setBuf (bytes : List Byte)
  /-- Write `x[OP]`: the request (R30, R131). -/
  | request (op : Byte)
  | load (w : Nat) (a : Addr)
  | fetch (w : Nat) (a : Addr)
  | store (w : Nat) (a : Addr) (v : Nat)
  /-- Power off and on again, whatever the chip is doing (R312, R340, R361). -/
  | powerCycle
deriving DecidableEq, Repr

/-- The model's own state: no register of the hardware. -/
structure Env where
  /-- What the host does next, in order; it moves only while `CTRL.phase = IDLE` (R26). -/
  script  : List HostAct
  /-- `x[OP]` has been written and not yet dispatched (R301: "a write of x[OP]"). -/
  req     : Bool
  /-- Requests dispatched since power-on: the position R148 records. -/
  reqs    : Nat
  /-- A transaction presented to the chip by no controller, as in the chip vectors of file 95, section 2.9. -/
  wire    : Option Txn
  /-- Whether `CHIP.done` moves, asked at every step while WIP = 1 (R290, R291). -/
  done    : Feed Bool
  /-- What each transport call meets (R146, R147). -/
  calls   : Feed CallDraw
  /-- How many draws have been made. -/
  draws   : Nat
  /-- The bytes of the last `Read` answered by the chip: the buffer `buf` of R150. -/
  rx      : List Byte
  /-- The value the last window load or fetch returned to the host (R248). -/
  loaded  : Nat
  /-- A register bit the spec does not describe has been changed by a host write (file 93, entry U9). -/
  undoc   : Bool
deriving DecidableEq, Repr

/-- The complete state: the tuple of R20, `env`, and the configuration `OPTAB`. `OPTAB` is no state (R20, R116): it stands
here because `step` has no other argument, so that a statement over every state is one over every table; no step writes it
(log entry 12). -/
structure State where
  optab : Config.OpTab
  ctrl  : Ctrl
  seq   : Seq
  x     : HostIf
  xport : Xport
  chip  : Chip
  trace : List Event
  env   : Env
deriving DecidableEq, Repr

/-! ### Abort causes -/

/-- The abort causes (R300). -/
inductive Cause where
  | pageOverflow | transportError | wrongMappingMode | wrongElectricalMode | illegalRequest
deriving DecidableEq, Repr

/-! ### Reasons a step stops -/

/-- The spec's "stuck": no rule gives a next step (file 93). None is an abort: an abort is a next state. -/
inductive Fault where
  /-- A transaction in one mode's format met a chip in the other mode (R257, U6). Raised by every wire
  command. Safe: it only loses proofs. -/
  | wireModeMismatch
  /-- The chip's `CR2[0][1]` is 1, a mode without decoding rules (R40, U7). Raised by every wire command. Safe. -/
  | wireUndescribedMode
  /-- The instruction phase has the format of neither mode (R134, R258). Raised by the delivery of a
  transaction. Safe. -/
  | wireUnknownFormat
  /-- The opcode is in no row of the table (R258). Raised by the delivery of a transaction. Safe. -/
  | wireUnknownOpcode
  /-- The descriptor or the data has not the shape of its row (R258). Raised by the delivery of a transaction
  and by a wire command with operands outside its row's shape. Safe. -/
  | wireBadShape
  /-- A wire command other than `READ_SR` while WIP = 1 (R259, U4). Raised by every other wire command. Safe. -/
  | chipBusy
  /-- `READ_MEM` past the end of the array, or a program or erase at an address at or above `CAPACITY`
  (R62, R274, R276, R278, R279). Raised by those wire commands. Safe. -/
  | chipOutsideArray
  /-- A call of `execute`, `read` or `write` while the transport is in passthrough: "no rule" (R149). Raised
  by the transaction primitive. Safe. -/
  | transportInPassthrough
  /-- `CTRL.phase` names a micro-step the running operation has not (R25). Raised by every host operation
  and by a reserved code; no run reaches it. Safe. -/
  | phaseOutsideOperation
  /-- A window access in passthrough with no read template (R33, R248). Raised by window loads; no run
  reaches it. Safe. -/
  | windowTemplateMissing
deriving DecidableEq, Repr

/-- The spec's "refuse": "the request is not an admitted input" (file 93), and the constructor every model
of this row has for an instruction without a meaning. -/
inductive Refusal where
  /-- An instruction without a meaning yet; raised by no arm of this model. Safe. -/
  | notModelled (mnemonic : String)
  /-- A store to the window (R251, U1). Raised by the host's move. Safe. -/
  | windowStore
  /-- `read_memory` or `page_program` with `x[N] = 0` (R211, R226, U2). Raised at dispatch. Safe. -/
  | zeroLength
  /-- A memory request with `x[A] + x[N] > CAPACITY`, an erase with `x[A] >= CAPACITY` (R62, U3). Raised at
  dispatch. Safe. -/
  | outsideArray
  /-- `write_configuration_register2 0, v` with `v[1:0]` different from the chip's bits (R187, U8). Raised at
  dispatch. Safe. -/
  | modeBitsBehindController
  /-- A window load of a size other than 1, 2, 4, or misaligned (R70, U11). Raised by the host's move. Safe. -/
  | windowAccessShape
  /-- A window access while `XPORT.passthrough` is false (R75, U12). Raised by the host's move. Safe. -/
  | windowClosed
  /-- A host access outside the window: not an access to this block (R75). Raised by the host's move. Safe. -/
  | outsideWindow
deriving DecidableEq, Repr

/-- The outcome of a step of this machine. -/
abbrev Out := Host.Outcome State Fault Refusal

/-! ### Reset -/

/-- The machine at power-on (R46, R47, R340). A value the spec leaves unspecified is zero, or the first
constructor, or nothing (log entry 3); the array lists nothing (log entry 4); nothing is scheduled, every
call succeeds and the chip completes at once (log entries 5, 6); `OPTAB` has its default values (log entries 12, 13). -/
def State.reset : State where
  optab := defaultTab
  ctrl :=
    { cstate := .unconstructed, emode := .Spi, mmode := .Direct, cause := 0, phase := .idle, tmp := 0,
      cfg := ⟨0, 0, 0, 0, 0⟩ }
  seq := { cursor := 0, remaining := 0, produced := 0, maxChunk := 0, chunk := 0 }
  x := { op := 0, a := 0, n := 0, v0 := 0, v1 := 0, st := 0, r0 := 0, r1 := 0, r2 := 0, buf := [] }
  xport := { passthrough := false, rdTpl := none, wrTpl := none, cfg := ⟨0, 0, 0, 0, 0⟩ }
  chip := { array := [], sr := 0, cr := 0, cr20 := 0, cr2 := [], cr2Base := none, rsten := false,
            pending := .nothing }
  trace := []
  env :=
    { script := [], req := false, reqs := 0, wire := none, done := ⟨[], true⟩, calls := ⟨[], .ok⟩,
      draws := 0, rx := [], loaded := 0, undoc := false }

end Sys2Proof.Machine
end

