-- ==== Sys2Proof/Machine/Memory.lean ====
section
/-! DEFINITION. Sparse byte memory in one canonical form: addresses strictly rising, below a limit, and no
entry equal to what an unlisted address reads as (`dflt`). The flash array (R36) and the CR2 register space
(R39, R60) are both held so. -/

namespace Sys2Proof.Machine

/-- The byte at an address. -/
def Memory.read (dflt : Nat → Byte) : List Host.Cell → Nat → Byte
  | [], a => dflt a
  | (b, w) :: m, a => if a = b then w else Memory.read dflt m a

/-- Store one byte; storing what an unlisted address reads as removes the entry. -/
def Memory.write (dflt : Nat → Byte) : List Host.Cell → Nat → Byte → List Host.Cell
  | [], a, v => if v = dflt a then [] else [(a, v)]
  | (b, w) :: m, a, v =>
    if a < b then (if v = dflt a then (b, w) :: m else (a, v) :: (b, w) :: m)
    else if a = b then (if v = dflt a then m else (a, v) :: m)
    else (b, w) :: Memory.write dflt m a v

/-- Return every address from `lo` up to, not including, `hi` to what it reads as unlisted. -/
def Memory.clear (lo hi : Nat) (m : List Host.Cell) : List Host.Cell :=
  m.filter fun c => !(decide (lo ≤ c.1) && decide (c.1 < hi))

/-- The canonical form, for addresses from `lo` up to, not including, `limit`. -/
def Memory.wfFrom (dflt : Nat → Byte) (limit : Nat) : Nat → List Host.Cell → Bool
  | _, [] => true
  | lo, (a, v) :: m =>
    decide (lo ≤ a) && decide (a < limit) && (v != dflt a) && Memory.wfFrom dflt limit (a + 1) m

/-- The canonical form over all addresses below `limit`. -/
def Memory.wf (dflt : Nat → Byte) (limit : Nat) (m : List Host.Cell) : Bool :=
  Memory.wfFrom dflt limit 0 m

/-- The `n` bytes from address `a` up, lowest address first: `MemRead(a, n)` of R16. -/
def Memory.readList (dflt : Nat → Byte) (m : List Host.Cell) (a n : Nat) : List Byte :=
  (List.range n).map fun i => Memory.read dflt m (a + i)

/-- "An erased byte reads 0xFF" (R36): what an address of the flash array not listed reads as. -/
def erasedByte : Byte := 0xFF

/-- The flash array's unlisted bytes are erased bytes (R36; log entry 4). -/
def arrayDflt (_ : Nat) : Byte := erasedByte

/-- A CR2 register not listed: the power-on value (log entry 3) or, after reset number `k`, a draw (R261;
log entry 7). -/
def cr2Dflt : Option Nat → Nat → Byte
  | none, _ => 0
  | some k, a => Config.drawCr2 k a

/-- The limit of the CR2 register space: 32-bit addresses (R39, R60). -/
def cr2Limit : Nat := 2 ^ 32

/-- One byte of the flash array: `CHIP.array[a]` (R36). -/
def Chip.byte (c : Chip) (a : Nat) : Byte := Memory.read arrayDflt c.array a

/-- `MemRead(a, n)` on the flash array (R16, R274). -/
def Chip.bytes (c : Chip) (a n : Nat) : List Byte := Memory.readList arrayDflt c.array a n

/-- `CHIP.CR2[a]` (R39). -/
def Chip.cr2At (c : Chip) (a : Addr) : Byte :=
  if a = 0 then c.cr20 else Memory.read (cr2Dflt c.cr2Base) c.cr2 a.toNat

/-- `CHIP.CR2[a] <- v` (R39, R270). -/
def Chip.setCr2 (c : Chip) (a : Addr) (v : Byte) : Chip :=
  if a = 0 then { c with cr20 := v, pending := .nothing }
  else { c with cr2 := Memory.write (cr2Dflt c.cr2Base) c.cr2 a.toNat v, pending := .nothing }

/-- The first address of the erase unit that holds `a`: "address is truncated/aligned to the erase-unit
boundary by the chip itself" (R69). -/
def eraseBase (unit a : Nat) : Nat := a - a % unit

/-- Every byte from `lo` up to, not including, `hi` becomes 0xFF (R278 to R280). -/
def Chip.erase (c : Chip) (lo hi : Nat) : Chip :=
  { c with array := Memory.clear lo hi c.array, pending := .erase lo hi }

/-- Where the chip puts data byte `i` of a page program at `a`: the address wraps inside the page (R276). -/
def pageSlot (a i : Nat) : Nat := (a - a % Config.pageSize) + (a % Config.pageSize + i) % Config.pageSize

/-- Program bytes `i, i+1, ...` of a page program at `a`: each is ANDed into the array (R276). -/
def programFrom (a : Nat) : Nat → List Byte → List Host.Cell → List Host.Cell
  | _, [], m => m
  | i, b :: data, m =>
    programFrom a (i + 1) data
      (Memory.write arrayDflt m (pageSlot a i) (Memory.read arrayDflt m (pageSlot a i) &&& b))

/-- A page program of `data` at `a` (R276). -/
def Chip.program (c : Chip) (a : Nat) (data : List Byte) : Chip :=
  { c with array := programFrom a 0 data c.array, pending := .program a data.length }

/-- The addresses a command in progress is changing, those outside the array left out. -/
def Pending.slots : Pending → List Nat
  | .nothing => []
  | .program a n => ((List.range n).map (pageSlot a)).filter (· < Config.capacity)
  | .erase lo hi => (List.range' lo (hi - lo)).filter (· < Config.capacity)

/-- Power is lost during the busy period: what the affected bytes hold is not said (R289), so each becomes a draw, the `k`-th
(log entry 21). -/
def Chip.torn (k : Nat) (c : Chip) : Chip :=
  { c with array := c.pending.slots.foldr (fun x m => Memory.write arrayDflt m x (Config.tornByte k x)) c.array }

/-- `littleEndian bytes` is the sum over `k` of `bytes[k] * 256^k` (R64, R248). -/
def littleEndian : List Byte → Nat
  | [] => 0
  | b :: bs => b.toNat + 256 * littleEndian bs

/-- The invariant of both memories of the chip. -/
def Chip.memoryWf (c : Chip) : Bool :=
  Memory.wf arrayDflt Config.capacity c.array && Memory.wf (cr2Dflt c.cr2Base) cr2Limit c.cr2

end Sys2Proof.Machine
end

