-- ==== Sys2Proof/Machine/Flags.lean ====
section
/-! DEFINITION. The flags of R43 and the bits of the chip's registers they live in (R37, R39, R40). There are no
arithmetic condition codes. -/

namespace Sys2Proof.Machine

/-- Put `v` into bit `i` of a byte, the other bits unchanged (R14). -/
def setBit (b : Byte) (i : Nat) (v : Bool) : Byte :=
  if v then b ||| (1#8 <<< i) else b &&& ~~~(1#8 <<< i)

/-- The bits of `new` where `mask` has a 1, those of `old` elsewhere. -/
def mergeBits (mask old new : Byte) : Byte := (old &&& ~~~mask) ||| (new &&& mask)

/-- Bits 7:2, the bits the spec does not describe of the status register and of CR2 at address 0 (R37, R39). -/
def undescribed : Byte := 0xFC#8

/-- `WIP` is bit 0 of the status register (R37). -/
def srWip (sr : Byte) : Bool := sr.getLsbD 0

/-- `WEL` is bit 1 of the status register (R37, from general knowledge; log entry 23). -/
def srWel (sr : Byte) : Bool := sr.getLsbD 1

/-- The write-in-progress flag (R37, R43). -/
def Chip.wip (c : Chip) : Bool := srWip c.sr

/-- The write-enable latch (R37, R43). -/
def Chip.wel (c : Chip) : Bool := srWel c.sr

/-- `OPI_EN`, bit 0 of CR2 at address 0 (R39, R43). -/
def Chip.opiEn (c : Chip) : Bool := c.cr20.getLsbD 0

/-- `CR2_B1`, bit 1 of CR2 at address 0 (R39). -/
def Chip.cr2B1 (c : Chip) : Bool := c.cr20.getLsbD 1

/-- `CHIP.emode`: Opi when `CR2[0][0]` is 1, Spi when it is 0; no mode of this spec when `CR2[0][1]` is 1 (R40). -/
def Chip.emode (c : Chip) : Option EMode :=
  if c.cr2B1 then none else some (if c.opiEn then .Opi else .Spi)

/-- `CHIP.SR[0] <- 1` (R288). -/
def Chip.raiseWip (c : Chip) : Chip := { c with sr := setBit c.sr 0 true }

/-- `CHIP.SR[1] <- 1` (R262). -/
def Chip.setWel (c : Chip) : Chip := { c with sr := setBit c.sr 1 true }

/-- `CHIP.SR[0] <- 0; CHIP.SR[1] <- 0`: the step of `CHIP.done` (R290). -/
def Chip.complete (c : Chip) : Chip := { c with sr := setBit (setBit c.sr 0 false) 1 false }

end Sys2Proof.Machine
end

