-- ==== Sys2Proof/Machine/Operands.lean ====
section
/-! DEFINITION. Operand assembly (R97) and the integer arithmetic of the block (R225). Every sum and remainder is
taken on natural numbers and narrowed at the end. -/

namespace Sys2Proof.Machine

/-- The CR2 value `to_opi` writes: "the register back with bit 0 set" (R97, R181). -/
def opiValue (tmp : Byte) : Byte := tmp ||| 0x01#8

/-- The CR2 value `to_spi` writes: "clears bits 0-1" (R97, R184). -/
def spiValue (tmp : Byte) : Byte := tmp &&& 0xFC#8

/-- `BUF[from .. from+n-1]` (R97, R220). -/
def slice (buf : List Byte) (start n : Nat) : List Byte := (buf.drop start).take n

/-- Bytes left in the page that holds `a`: `256 - (a mod 256)` (R220 step P3, R225). -/
def pageRoom (a : Nat) : Nat := Config.pageSize - a % Config.pageSize

/-- The page-program precondition `n + (a mod 256) <= 256`, without truncation (R216). -/
def fitsPage (a n : Nat) : Bool := decide (n + a % Config.pageSize ≤ Config.pageSize)

/-- The data of a host `page_program`: `BUF[0 .. n-1]` (R215). -/
def pageData (s : State) : List Byte := slice s.x.buf 0 s.x.n.toNat

/-- The data of the chunk `write_memory` is programming: `BUF[produced .. produced+chunk-1]` (R215, R220). -/
def chunkData (s : State) : List Byte := slice s.x.buf s.seq.produced.toNat s.seq.chunk.toNat

/-- `n` unspecified bytes, drawn from number `k` on (R31, R311). -/
def freeBytes (k n : Nat) : List Byte := (List.range n).map fun i => Config.freeByte (k + i)

/-- A buffer made `n` bytes long: what it held first, unspecified bytes beyond (R31; log entry 18). -/
def resize (buf : List Byte) (n k : Nat) : List Byte := buf.take n ++ freeBytes k (n - buf.length)

end Sys2Proof.Machine
end

