-- ==== Sys2Proof/Machine/Ops.lean ====
section
/-! DEFINITION. The named operations: position and completion of an operation (R25), taking an abort (R310), the
dispatcher (R302), the draws an abort leaves, the choices of the other agents, and the chip's ways of answering
a wire command (R255 to R290). -/

namespace Sys2Proof.Machine

/-! ### Position and completion -/

/-- `CTRL.phase <- target` (R16, R26). -/
def go (p : Phase) (s : State) : State := { s with ctrl.phase := p }

/-- `x[ST] <- 0x00; CTRL.phase <- IDLE`: completion with `Ok` (R30, R130). -/
def finish (s : State) : State := { s with x.st := 0x00#8, ctrl.phase := .idle }

/-! ### Taking an abort -/

/-- The cause codes (R300). -/
def Cause.code : Cause → Byte
  | .pageOverflow => 0x01#8
  | .transportError => 0x02#8
  | .wrongMappingMode => 0x03#8
  | .wrongElectricalMode => 0x04#8
  | .illegalRequest => 0x05#8

/-- "The result registers and, for `read_memory`, `BUF` are unspecified after any abort" (R30, R311): each becomes
a draw (log entry 8). `x[OP]` is the request in progress. -/
def unspecifyResults (s : State) : State :=
  { s with
    x.r0 := Config.freeByte s.env.draws
    x.r1 := Config.freeByte (s.env.draws + 1)
    x.r2 := Config.freeByte (s.env.draws + 2)
    x.buf := if s.x.op = 0x09#8 then freeBytes (s.env.draws + 3) s.x.buf.length else s.x.buf
    env.draws := s.env.draws + 3 + s.x.buf.length }

/-- `raise Abort(cause)`: the cause and the status are recorded, the controller is `FAULTED`, the operation ends;
"everything else keeps the value it had" (R310), but for the results that R311 leaves unspecified. There is no
return from an abort: only power-on restores `UNCONSTRUCTED` (R312; `powerOn` below). -/
def abort (c : Cause) (s : State) : State :=
  { unspecifyResults s with
    ctrl := { s.ctrl with cause := c.code, cstate := .faulted, phase := .idle }
    x.st := c.code }

/-- What power-off does to a busy chip's array (R289); to an idle one's, nothing (R36). -/
def powerLoss (s : State) : State :=
  if s.chip.wip then { s with chip := s.chip.torn s.env.draws, env.draws := s.env.draws + 1 } else s

/-- Power on: the state of `State.reset`, but for the array, which is non-volatile (R36, R312, R340), and
for the configuration and what the other agents will do next. -/
def powerOn (s : State) : State :=
  { State.reset with
    optab := s.optab
    chip.array := s.chip.array
    env :=
      { State.reset.env with
        script := s.env.script, done := s.env.done, calls := s.env.calls, draws := s.env.draws } }

/-! ### The dispatcher -/

/-- What the dispatcher's checks decide. -/
inductive Verdict where
  | report
  | abort (c : Cause)
  | run
deriving DecidableEq, Repr

/-- The dispatcher's checks in their fixed order: "the first that fails decides the outcome" (R302). -/
def verdict (op : Byte) (c : Ctrl) : Verdict :=
  if c.cstate = .faulted then .report
  else if 0x11 ≤ op.toNat then .abort .illegalRequest
  else if decide (c.cstate = .unconstructed) != decide (op = 0x00#8) then .abort .illegalRequest
  else if op = 0x00#8 then .run
  else if op = 0x10#8 ∧ c.mmode = .Direct then .abort .wrongMappingMode
  else if op ≠ 0x10#8 ∧ c.mmode = .MemoryMapped then .abort .wrongMappingMode
  else if op = 0x01#8 ∧ c.emode = .Opi then .abort .wrongElectricalMode
  else if op = 0x02#8 ∧ c.emode = .Spi then .abort .wrongElectricalMode
  else .run

/-- The request has been taken: it is no longer pending, and it has its position (R148). -/
def accepted (s : State) : State := { s with env.req := false, env.reqs := s.env.reqs + 1 }

/-- The dispatcher for the request code `op` whose first micro-step is `first` (R302). `bar` is the model's refusal
of operands that are no admitted input; it is asked only of a request that passes every guard (log entry 10). -/
def dispatch (op : Byte) (first : Phase) (bar : Option Refusal) (s : State) : Out :=
  match verdict op s.ctrl with
  | .report => .next { accepted s with x.st := s.ctrl.cause }
  | .abort c => .next (abort c (accepted s))
  | .run =>
    match bar with
    | some r => .refused r
    | none => .next (go first (accepted s))

/-- The dispatcher for a request code that selects no operation (R132, R302 steps 1 and 2). -/
def dispatchReserved (s : State) : Out :=
  match verdict s.x.op s.ctrl with
  | .report => .next { accepted s with x.st := s.ctrl.cause }
  | .abort c => .next (abort c (accepted s))
  | .run => .fault .phaseOutsideOperation

/-- The range premise of a memory request, `x[A] + x[N] <= CAPACITY` (R62). -/
def rangeBar (s : State) : Option Refusal :=
  if s.x.a.toNat + s.x.n.toNat ≤ Config.capacity then none else some .outsideArray

/-- The premise of an addressed erase, `x[A] < CAPACITY` (R62). -/
def eraseBar (s : State) : Option Refusal :=
  if s.x.a.toNat < Config.capacity then none else some .outsideArray

/-! ### The other agents' choices -/

/-- The next choice of a feed. -/
def Feed.head {α : Type} (f : Feed α) : α := f.pre.headD f.rest

/-- The feed after its next choice. -/
def Feed.tail {α : Type} (f : Feed α) : Feed α := { f with pre := f.pre.tail }

/-! ### The chip's answer to a wire command -/

/-- The chip takes a transaction in the format of mode `m`: it must be in that mode (R256, R257, U7), and idle unless
the command is `READ_SR` (R259). The transaction is then no longer on the bus. -/
def chipAccept (m : EMode) (whileBusy : Bool) (s : State) (k : State → Out) : Out :=
  match s.chip.emode with
  | none => .fault .wireUndescribedMode
  | some e =>
    if e = m then
      (if s.chip.wip && !whileBusy then .fault .chipBusy else k { s with env.wire := none })
    else .fault .wireModeMismatch

/-- A command with an answer and no effect (R73, R264 to R267, R274); like every transaction but the two reset
commands it clears `rsten` (R260). -/
def chipAnswer (m : EMode) (whileBusy : Bool) (answer : Chip → List Byte) (s : State) : Out :=
  chipAccept m whileBusy s fun s =>
    .next { s with chip.rsten := false, env.rx := answer s.chip }

/-- A mutating command: ignored while WEL = 0, else its effect and WIP in one step (R268 to R280, R288). `undoc` asks
whether it changes a register bit the spec does not describe (file 93, U9; log entry 9). -/
def chipMutate (m : EMode) (undoc : Chip → Bool) (effect : Chip → Chip) (s : State) : Out :=
  chipAccept m false s fun s =>
    if s.chip.wel then
      .next { s with
        chip := (effect { s.chip with rsten := false }).raiseWip
        env.undoc := s.env.undoc || undoc s.chip }
    else .next { s with chip.rsten := false }

/-- A command that needs its range inside the array (R274, R276, R278, R279). -/
def chipInArray (m : EMode) (ok : Bool) (s : State) (k : State → Out) : Out :=
  chipAccept m false s fun _ => if ok then k s else .fault .chipOutsideArray

/-- The step of `CHIP.done` (R290). -/
def chipDone (s : State) : State := { s with chip := s.chip.complete }

end Sys2Proof.Machine
end

