-- ==== Sys2Proof/Machine/ChipArray.lean ====
section
/-! DEFINITION. Wire commands: the flash array (spec file 48, section 4). -/

namespace Sys2Proof.Machine

/-- `READ_MEM` of `n` bytes at `a`: answers `MemRead(a, n)`; `n >= 1` is its shape, `a + n <= CAPACITY` its
precondition (R274). -/
def chipReadMem (m : EMode) (a : Addr) (n : Nat) (s : State) : Out :=
  if 1 ≤ n then
    chipInArray m (decide (a.toNat + n ≤ Config.capacity)) s
      (chipAnswer m false fun c => c.bytes a.toNat n)
  else .fault .wireBadShape

/-- `PAGE_PROGRAM` of 1 to 256 bytes at `a < CAPACITY`: ANDs the data into the page when WEL is set (R276). -/
def chipPageProgram (m : EMode) (a : Addr) (data : List Byte) (s : State) : Out :=
  if 1 ≤ data.length ∧ data.length ≤ Config.pageSize then
    chipInArray m (decide (a.toNat < Config.capacity)) s
      (chipMutate m (fun _ => false) fun c => c.program a.toNat data)
  else .fault .wireBadShape

/-- An erase of the unit of `unit` bytes that holds `a < CAPACITY`, when WEL is set (R278, R279). -/
def chipEraseUnit (m : EMode) (unit : Nat) (a : Addr) (s : State) : Out :=
  chipInArray m (decide (a.toNat < Config.capacity)) s
    (chipMutate m (fun _ => false) fun c => c.erase (eraseBase unit a.toNat) (eraseBase unit a.toNat + unit))

/-- `CHIP_ERASE`: every byte of the array, when WEL is set (R280). -/
def chipEraseAll (m : EMode) (s : State) : Out :=
  chipMutate m (fun _ => false) (fun c => c.erase 0 Config.capacity) s

/-- `READ_MEM` in the Spi format, the fast read (R110, R274). -/
def execReadMemSpi (a : Addr) (n : Nat) (s : State) : Out := chipReadMem .Spi a n s

/-- `READ_MEM` in the Opi format, the octal read (R110, R274). -/
def execReadMemOpi (a : Addr) (n : Nat) (s : State) : Out := chipReadMem .Opi a n s

/-- `PAGE_PROGRAM` in the Spi format (R111, R276). -/
def execPageProgramSpi (a : Addr) (data : List Byte) (s : State) : Out := chipPageProgram .Spi a data s

/-- `PAGE_PROGRAM` in the Opi format (R111, R276). -/
def execPageProgramOpi (a : Addr) (data : List Byte) (s : State) : Out := chipPageProgram .Opi a data s

/-- `SECTOR_ERASE` in the Spi format (R112, R278). -/
def execSectorEraseSpi (a : Addr) (s : State) : Out := chipEraseUnit .Spi Config.sectorSize a s

/-- `SECTOR_ERASE` in the Opi format (R112, R278). -/
def execSectorEraseOpi (a : Addr) (s : State) : Out := chipEraseUnit .Opi Config.sectorSize a s

/-- `BLOCK_ERASE_64K` in the Spi format (R113, R279). -/
def execBlockErase64kSpi (a : Addr) (s : State) : Out := chipEraseUnit .Spi Config.blockSize a s

/-- `BLOCK_ERASE_64K` in the Opi format (R113, R279). -/
def execBlockErase64kOpi (a : Addr) (s : State) : Out := chipEraseUnit .Opi Config.blockSize a s

/-- `CHIP_ERASE` in the Spi format (R114, R280). -/
def execChipEraseSpi (s : State) : Out := chipEraseAll .Spi s

/-- `CHIP_ERASE` in the Opi format (R114, R280). -/
def execChipEraseOpi (s : State) : Out := chipEraseAll .Opi s

end Sys2Proof.Machine
end

