-- ==== Sys2Proof/Machine/ChipRegisters.lean ====
section
/-! DEFINITION. Wire commands: registers and identification (spec file 48, section 3). -/

namespace Sys2Proof.Machine

/-- `READ_SR`: answers `[CHIP.SR]`, busy or not (R264). -/
def chipReadSr (m : EMode) (s : State) : Out := chipAnswer m true (fun c => [c.sr]) s

/-- `READ_CR`: answers `[CHIP.CR]` (R265). -/
def chipReadCr (m : EMode) (s : State) : Out := chipAnswer m false (fun c => [c.cr]) s

/-- `READ_ID`: answers `CHIP_ID` (R266). -/
def chipReadId (m : EMode) (s : State) : Out := chipAnswer m false (fun _ => Config.chipId) s

/-- `READ_CR2` at `a`: answers `[CHIP.CR2[a]]` (R267). -/
def chipReadCr2 (m : EMode) (a : Addr) (s : State) : Out := chipAnswer m false (fun c => [c.cr2At a]) s

/-- `SR[7:2] <- sr[7:2]; CR <- cr`; WIP and WEL are not writable (R268). -/
def Chip.storeSrCr (c : Chip) (sr cr : Byte) : Chip :=
  { c with sr := mergeBits undescribed c.sr sr, cr := cr, pending := .nothing }

/-- `WRITE_SR_CR`: stores both registers' undescribed bits when WEL is set (R268). -/
def chipWriteSrCr (m : EMode) (sr cr : Byte) (s : State) : Out :=
  chipMutate m
    (fun c => decide (mergeBits undescribed c.sr sr ≠ c.sr) || decide (cr ≠ c.cr))
    (fun c => c.storeSrCr sr cr) s

/-- Whether storing `v` at CR2 address `a` changes a bit the spec does not describe: any bit at an address other than
0, bits 7:2 at address 0 (R39; file 93, U9). -/
def cr2WriteUndoc (a : Addr) (v : Byte) (c : Chip) : Bool :=
  if a = 0 then decide (v &&& undescribed ≠ c.cr20 &&& undescribed) else decide (v ≠ c.cr2At a)

/-- `WRITE_CR2` at `a`: stores `v` when WEL is set; at address 0 this changes the chip's mode at once (R270). -/
def chipWriteCr2 (m : EMode) (a : Addr) (v : Byte) (s : State) : Out :=
  chipMutate m (cr2WriteUndoc a v) (fun c => c.setCr2 a v) s

/-- `READ_SR` in the Spi format (R104, R264). -/
def execReadSrSpi (s : State) : Out := chipReadSr .Spi s

/-- `READ_SR` in the Opi format (R104, R264). -/
def execReadSrOpi (s : State) : Out := chipReadSr .Opi s

/-- `READ_CR` in the Spi format (R105, R265). -/
def execReadCrSpi (s : State) : Out := chipReadCr .Spi s

/-- `READ_CR` in the Opi format (R105, R265). -/
def execReadCrOpi (s : State) : Out := chipReadCr .Opi s

/-- `READ_CR2` in the Spi format (R106, R267). -/
def execReadCr2Spi (a : Addr) (s : State) : Out := chipReadCr2 .Spi a s

/-- `READ_CR2` in the Opi format (R106, R267). -/
def execReadCr2Opi (a : Addr) (s : State) : Out := chipReadCr2 .Opi a s

/-- `WRITE_SR_CR` in the Spi format (R107, R268). -/
def execWriteSrCrSpi (sr cr : Byte) (s : State) : Out := chipWriteSrCr .Spi sr cr s

/-- `WRITE_SR_CR` in the Opi format (R107, R268). -/
def execWriteSrCrOpi (sr cr : Byte) (s : State) : Out := chipWriteSrCr .Opi sr cr s

/-- `WRITE_CR2` in the Spi format (R108, R270). -/
def execWriteCr2Spi (a : Addr) (v : Byte) (s : State) : Out := chipWriteCr2 .Spi a v s

/-- `WRITE_CR2` in the Opi format (R108, R270). -/
def execWriteCr2Opi (a : Addr) (v : Byte) (s : State) : Out := chipWriteCr2 .Opi a v s

/-- `READ_ID` in the Spi format (R109, R266). -/
def execReadIdSpi (s : State) : Out := chipReadId .Spi s

/-- `READ_ID` in the Opi format (R109, R266). -/
def execReadIdOpi (s : State) : Out := chipReadId .Opi s

end Sys2Proof.Machine
end

