-- ==== Sys2Proof/Machine/ChipReset.lean ====
section
/-! DEFINITION. Wire commands: reset and write-enable (spec file 48, section 2). -/

namespace Sys2Proof.Machine

/-- `RESET_ENABLE`: sets `CHIP.rsten` (R260). -/
def chipResetEnable (m : EMode) (s : State) : Out :=
  chipAccept m false s fun s => .next { s with chip.rsten := true }

/-- The registers after an effective `RESET_MEMORY` that is draw number `k` (R261): WIP set, WEL and `CR2[0][1:0]`
clear, the undescribed bits drawn, the array unchanged. -/
def resetRegisters (k : Nat) (c : Chip) : Chip :=
  { c with
    sr := mergeBits undescribed 0x01#8 (Config.drawSr k)
    cr := Config.drawCr k
    cr20 := mergeBits undescribed 0x00#8 (Config.drawCr2 k 0)
    cr2 := []
    cr2Base := some k
    rsten := false
    pending := .nothing }

/-- `RESET_MEMORY`: ignored unless `CHIP.rsten` is set (R261). -/
def chipResetMemory (m : EMode) (s : State) : Out :=
  chipAccept m false s fun s =>
    if s.chip.rsten then
      .next { s with chip := resetRegisters s.env.draws s.chip, env.draws := s.env.draws + 1 }
    else .next s

/-- `WRITE_ENABLE`: sets WEL (R262); clears `rsten` (R260). -/
def chipWriteEnable (m : EMode) (s : State) : Out :=
  chipAccept m false s fun s => .next { s with chip := { s.chip.setWel with rsten := false } }

/-- `RESET_ENABLE` in the Spi format (R101, R260). -/
def execResetEnableSpi (s : State) : Out := chipResetEnable .Spi s

/-- `RESET_ENABLE` in the Opi format (R101, R260). -/
def execResetEnableOpi (s : State) : Out := chipResetEnable .Opi s

/-- `RESET_MEMORY` in the Spi format (R102, R261). -/
def execResetMemorySpi (s : State) : Out := chipResetMemory .Spi s

/-- `RESET_MEMORY` in the Opi format (R102, R261). -/
def execResetMemoryOpi (s : State) : Out := chipResetMemory .Opi s

/-- `WRITE_ENABLE` in the Spi format (R103, R262). -/
def execWriteEnableSpi (s : State) : Out := chipWriteEnable .Spi s

/-- `WRITE_ENABLE` in the Opi format (R103, R262). -/
def execWriteEnableOpi (s : State) : Out := chipWriteEnable .Opi s

end Sys2Proof.Machine
end

