-- ==== Sys2Proof/Machine/Wire.lean ====
section
/-! DEFINITION. The bus transport (R140 to R149) and the command execution primitives `T`, `write_enable`,
`read_status`, `wait_wip` (R150 to R158). -/

namespace Sys2Proof.Machine

/-- The chip's step for a decoded wire command (R255, R256). A host operation is no wire command. -/
def chipStep (i : Instr) (s : State) : Out :=
  match i with
  | .resetEnableSpi => execResetEnableSpi s
  | .resetMemorySpi => execResetMemorySpi s
  | .writeEnableSpi => execWriteEnableSpi s
  | .readSrSpi => execReadSrSpi s
  | .readCrSpi => execReadCrSpi s
  | .readCr2Spi a => execReadCr2Spi a s
  | .writeSrCrSpi sr cr => execWriteSrCrSpi sr cr s
  | .writeCr2Spi a v => execWriteCr2Spi a v s
  | .readIdSpi => execReadIdSpi s
  | .readMemSpi a n => execReadMemSpi a n s
  | .pageProgramSpi a data => execPageProgramSpi a data s
  | .sectorEraseSpi a => execSectorEraseSpi a s
  | .blockErase64kSpi a => execBlockErase64kSpi a s
  | .chipEraseSpi => execChipEraseSpi s
  | .resetEnableOpi => execResetEnableOpi s
  | .resetMemoryOpi => execResetMemoryOpi s
  | .writeEnableOpi => execWriteEnableOpi s
  | .readSrOpi => execReadSrOpi s
  | .readCrOpi => execReadCrOpi s
  | .readCr2Opi a => execReadCr2Opi a s
  | .writeSrCrOpi sr cr => execWriteSrCrOpi sr cr s
  | .writeCr2Opi a v => execWriteCr2Opi a v s
  | .readIdOpi => execReadIdOpi s
  | .readMemOpi a n => execReadMemOpi a n s
  | .pageProgramOpi a data => execPageProgramOpi a data s
  | .sectorEraseOpi a => execSectorEraseOpi a s
  | .blockErase64kOpi a => execBlockErase64kOpi a s
  | .chipEraseOpi => execChipEraseOpi s
  | .construct | .toOpi | .toSpi | .readId | .readStatusRegister | .readConfigurationRegister
  | .readConfigurationRegister2 | .writeStatusAndConfigurationRegister | .writeConfigurationRegister2
  | .readMemory | .writeMemory | .pageProgram | .eraseSector | .eraseBlock64k | .eraseChip
  | .enableMemoryMapped | .disableMemoryMapped => .fault .wireUnknownFormat

/-- The stop of a transaction that reads as no wire command (R257, R258). -/
def stopOf : DecodeError → Fault
  | .reservedRequest => .wireUnknownFormat
  | .unknownFormat => .wireUnknownFormat
  | .unknownOpcode => .wireUnknownOpcode
  | .badShape => .wireBadShape

/-- Deliver a transaction to the chip (R147, R255, R256). -/
def deliver (x : Txn) (s : State) : Out :=
  match decodeTxn s.optab x with
  | .ok i => chipStep i s
  | .error e => .fault (stopOf e)

/-- Which transport operation a descriptor goes to (R94). -/
def callKind : Dir → CallKind
  | .commandOnly => .execute
  | .read => .read
  | .write => .write

/-- The data an event records: the bytes written; the bytes read, when the call returned `Ok`; none (R148). -/
def eventData (p : Payload) (ok : Bool) (rx : List Byte) : Option (List Byte) :=
  match p with
  | .none => none
  | .read _ => if ok then some rx else none
  | .write data => some data

/-- Append the event of a transport call (R148). -/
def logCall (d : Descriptor) (p : Payload) (ok : Bool) (s : State) : State :=
  { s with
    trace := s.trace ++ [.call (callKind d.dir) d (eventData p ok s.env.rx) ok s.env.reqs] }

/-- A transport call's result: whether it returned `Ok`, and the state it leaves. -/
structure Called where
  ok : Bool
  s  : State

/-- One call of `execute`, `read` or `write` (R141 to R143): `Ok` has delivered the transaction exactly once, `Err` has
or has not (R146, R147). A call in passthrough has no rule (R149). -/
def transact (x : Txn) (s : State) : Host.Outcome Called Fault Refusal :=
  if s.xport.passthrough then .fault .transportInPassthrough
  else
    let s' := { s with env.calls := s.env.calls.tail }
    match s.env.calls.head with
    | .errLost => .next ⟨false, logCall x.desc x.payload false s'⟩
    | .errDelivered =>
      match deliver x s' with
      | .next t => .next ⟨false, logCall x.desc x.payload false t⟩
      | .fault f => .fault f
      | .refused r => .refused r
    | .ok =>
      match deliver x s' with
      | .next t => .next ⟨true, logCall x.desc x.payload true t⟩
      | .fault f => .fault f
      | .refused r => .refused r

/-- The transaction primitive `T(lop, a, data)` (R150): build the descriptor from the current mode's table, make one
call, abort on `Err`, go on with `k` on `Ok`. The bytes of a `Read` stand in `env.rx`. -/
def transaction (l : Lop) (a : Option Addr) (p : Payload) (s : State) (k : State → Out) : Out :=
  match transact ⟨build s.optab s.ctrl.emode l a, p⟩ s with
  | .next c => if c.ok then k c.s else .next (abort .transportError c.s)
  | .fault f => .fault f
  | .refused r => .refused r

/-- Byte `i` of the last `Read`: `b[i]` of the pseudocode. -/
def rxByte (s : State) (i : Nat) : Byte := s.env.rx.getD i 0

/-- A command without an answer, then the micro-step `next`. -/
def command (l : Lop) (a : Option Addr) (p : Payload) (next : Phase) (s : State) : Out :=
  transaction l a p s fun t => .next (go next t)

/-- `write_enable()` (R152), step M1 and its like. -/
def writeEnable (next : Phase) (s : State) : Out := command .writeEnable none .none next s

/-- `read_status()` (R154), with the byte still in `env.rx`. -/
def readStatus (s : State) (k : State → Out) : Out := transaction .readSr none (.read 1) s k

/-- One round of `wait_wip()` (R156): poll, keep the byte in `CTRL.tmp`, and stay at W1 while its bit 0 is 1. There is
no bound (R157). -/
def pollWip (next : Phase) (s : State) : Out :=
  readStatus s fun t =>
    .next { t with
      ctrl.tmp := rxByte t 0
      ctrl.phase := if srWip (rxByte t 0) then .w1 else next }

/-- No rule: the phase is no label of the operation in progress (R25). -/
def noSuchStep : Out := .fault .phaseOutsideOperation

/-- The micro-steps M1 to M3 of `mutate(lop, a, data)` (R158), after which the operation goes to `next`. -/
def mutate (l : Lop) (a : Option Addr) (p : Payload) (next : Phase) (s : State) : Out :=
  match s.ctrl.phase with
  | .m1 => writeEnable .m2 s
  | .m2 => command l a p .w1 s
  | .w1 => pollWip next s
  | _ => noSuchStep

end Sys2Proof.Machine
end

