-- ==== Sys2Proof/Machine/BulkRead.lean ====
section
/-! DEFINITION. `read_memory` (spec file 44). -/

namespace Sys2Proof.Machine

/-- `read_memory` is refused with `x[N] = 0` (R211) and out of range (R62). -/
def readBar (s : State) : Option Refusal := if s.x.n = 0 then some .zeroLength else rangeBar s

/-- B2: `BUF` is the bytes read, whole (R210). -/
def storeBuffer (s : State) : State := finish { s with x.buf := s.env.rx }

/-- `read_memory(address, buffer)`: one transaction whatever the length (R210, R212). -/
def execReadMemory (s : State) : Out :=
  match s.ctrl.phase with
  | .idle => dispatch 0x09#8 .b1 (readBar s) s
  | .b1 => command .readMem (some s.x.a) (.read s.x.n.toNat) .b2 s
  | .b2 => .next (storeBuffer s)
  | _ => noSuchStep

end Sys2Proof.Machine
end

