-- ==== Sys2Proof/Machine/BulkWrite.lean ====
section
/-! DEFINITION. `page_program`, `write_memory` and the page-split write sequencer (spec file 45). -/

namespace Sys2Proof.Machine

/-- The model's refusal of a host `page_program`: zero length (R226), and a request inside its page but outside the
array (R62). A request that violates the page precondition aborts at G1 whatever its address (R216; log entry 11). -/
def pageBar (s : State) : Option Refusal :=
  if s.x.n = 0 then some .zeroLength
  else if fitsPage s.x.a.toNat s.x.n.toNat then rangeBar s else none

/-- The model's refusal of `write_memory`: out of range (R62). With `x[N] = 0` no address is used (R220; log entry 11). -/
def writeBar (s : State) : Option Refusal := if s.x.n = 0 then none else rangeBar s

/-- G1: the page-program precondition, before any transaction (R215, R216). -/
def checkPage (a n : Nat) (s : State) : Out :=
  if fitsPage a n then .next (go .m1 s) else .next (abort .pageOverflow s)

/-- `page_program(address, data)` as the host requests it (R215). G2 is `mutate`. -/
def execPageProgram (s : State) : Out :=
  match s.ctrl.phase with
  | .idle => dispatch 0x0B#8 .g1 (pageBar s) s
  | .g1 => checkPage s.x.a.toNat s.x.n.toNat s
  | .g3 => .next (finish s)
  | _ => mutate .pageProgram (some s.x.a) (.write (pageData s)) .g3 s

/-- P1: `remaining <- x[N]; cursor <- x[A]; produced <- 0` (R220). -/
def splitStart (s : State) : State :=
  { s with seq.remaining := s.x.n, seq.cursor := s.x.a, seq.produced := 0, ctrl.phase := .p2 }

/-- P2: leave the loop when nothing remains (R220). -/
def splitTest (s : State) : State := go (if s.seq.remaining = 0 then .p7 else .p3) s

/-- P3: `max_chunk <- 256 - (cursor mod 256)` (R220). -/
def splitRoom (s : State) : State :=
  { s with seq.maxChunk := BitVec.ofNat 9 (pageRoom s.seq.cursor.toNat), ctrl.phase := .p4 }

/-- P4: `chunk <- min(max_chunk, remaining)` (R220). -/
def splitChunk (s : State) : State :=
  { s with
    seq.chunk := BitVec.ofNat 9 (min s.seq.maxChunk.toNat s.seq.remaining.toNat)
    ctrl.phase := .p5 }

/-- P6: advance the three counters by the chunk (R220, R225). -/
def splitAdvance (s : State) : State :=
  { s with
    seq.cursor := BitVec.ofNat 32 (s.seq.cursor.toNat + s.seq.chunk.toNat)
    seq.remaining := BitVec.ofNat 32 (s.seq.remaining.toNat - s.seq.chunk.toNat)
    seq.produced := BitVec.ofNat 32 (s.seq.produced.toNat + s.seq.chunk.toNat)
    ctrl.phase := .p2 }

/-- `write_memory(address, buffer)`: the page-split algorithm, a `page_program` body for each chunk (R220). P5 enters
the body at G1. -/
def execWriteMemory (s : State) : Out :=
  match s.ctrl.phase with
  | .idle => dispatch 0x0A#8 .p1 (writeBar s) s
  | .p1 => .next (splitStart s)
  | .p2 => .next (splitTest s)
  | .p3 => .next (splitRoom s)
  | .p4 => .next (splitChunk s)
  | .p5 => .next (go .g1 s)
  | .g1 => checkPage s.seq.cursor.toNat s.seq.chunk.toNat s
  | .p6 => .next (splitAdvance s)
  | .p7 => .next (finish s)
  | _ => mutate .pageProgram (some s.seq.cursor) (.write (chunkData s)) .p6 s

end Sys2Proof.Machine
end

