-- ==== Sys2Proof/Machine/Construct.lean ====
section
/-! DEFINITION. `construct` (spec file 41). -/

namespace Sys2Proof.Machine

/-- S1: the configuration, and both mode tags (R170). -/
def constructTags (s : State) : State :=
  { s with
    ctrl.cfg := Config.busCfg
    xport.cfg := Config.busCfg
    ctrl.emode := .Spi
    ctrl.mmode := .Direct
    ctrl.phase := .s2 }

/-- S5: `CTRL.cstate <- READY` and completion (R170). -/
def constructDone (s : State) : State := finish { s with ctrl.cstate := .ready }

/-- `construct` (R170). S4 is the busy-wait. -/
def execConstruct (s : State) : Out :=
  match s.ctrl.phase with
  | .idle => dispatch 0x00#8 .s1 none s
  | .s1 => .next (constructTags s)
  | .s2 => command .resetEnable none .none .s3 s
  | .s3 => command .resetMemory none .none .w1 s
  | .w1 => pollWip .s5 s
  | .s5 => .next (constructDone s)
  | _ => noSuchStep

end Sys2Proof.Machine
end

