-- ==== Sys2Proof/Machine/Erase.lean ====
section
/-! DEFINITION. The three erase operations (spec file 46). They "differ only in the logical operation and in whether an
address is sent" (R235). -/

namespace Sys2Proof.Machine

/-- `erase_sector(address)`: the address is sent unchanged (R230). -/
def execEraseSector (s : State) : Out :=
  match s.ctrl.phase with
  | .idle => dispatch 0x0C#8 .m1 (eraseBar s) s
  | .fin => .next (finish s)
  | _ => mutate .sectorErase (some s.x.a) .none .fin s

/-- `erase_block_64k(address)` (R231). -/
def execEraseBlock64k (s : State) : Out :=
  match s.ctrl.phase with
  | .idle => dispatch 0x0D#8 .m1 (eraseBar s) s
  | .fin => .next (finish s)
  | _ => mutate .blockErase64k (some s.x.a) .none .fin s

/-- `erase_chip()` (R232). -/
def execEraseChip (s : State) : Out :=
  match s.ctrl.phase with
  | .idle => dispatch 0x0E#8 .m1 none s
  | .fin => .next (finish s)
  | _ => mutate .chipErase none .none .fin s

end Sys2Proof.Machine
end

