-- ==== Sys2Proof/Machine/Ident.lean ====
section
/-! DEFINITION. Identification and register access (spec file 43). The operations are the same in both electrical
modes: "all the difference is inside `build`" (R197). -/

namespace Sys2Proof.Machine

/-- I2: the three identification bytes, in the order received (R66, R190). -/
def storeId (s : State) : State :=
  finish { s with x.r0 := rxByte s 0, x.r1 := rxByte s 1, x.r2 := rxByte s 2 }

/-- RS1, RC1 and RQ1: one transaction, its byte into `x[R0]`, completion (R192 to R194). -/
def readRegister (l : Lop) (a : Option Addr) (s : State) : Out :=
  transaction l a (.read 1) s fun t => .next (finish { t with x.r0 := rxByte t 0 })

/-- The model refuses a write of CR2 address 0 whose `v[1:0]` differs from the chip's current bits (R187, U8). -/
def modeBitsBar (s : State) : Option Refusal :=
  if s.x.a = 0 ∧ s.x.v0 &&& 0x03#8 ≠ s.chip.cr20 &&& 0x03#8 then some .modeBitsBehindController else none

/-- `read_id` (R190). -/
def execReadId (s : State) : Out :=
  match s.ctrl.phase with
  | .idle => dispatch 0x03#8 .i1 none s
  | .i1 => command .readId none (.read 3) .i2 s
  | .i2 => .next (storeId s)
  | _ => noSuchStep

/-- `read_status_register` (R192). -/
def execReadStatusRegister (s : State) : Out :=
  match s.ctrl.phase with
  | .idle => dispatch 0x04#8 .rs1 none s
  | .rs1 => readRegister .readSr none s
  | _ => noSuchStep

/-- `read_configuration_register` (R193). -/
def execReadConfigurationRegister (s : State) : Out :=
  match s.ctrl.phase with
  | .idle => dispatch 0x05#8 .rc1 none s
  | .rc1 => readRegister .readCr none s
  | _ => noSuchStep

/-- `read_configuration_register2(address)` (R194). -/
def execReadConfigurationRegister2 (s : State) : Out :=
  match s.ctrl.phase with
  | .idle => dispatch 0x06#8 .rq1 none s
  | .rq1 => readRegister .readCr2 (some s.x.a) s
  | _ => noSuchStep

/-- `write_status_and_configuration_register(sr, cr)`: the data bytes are `sr` first, `cr` second (R66, R195). -/
def execWriteStatusAndConfigurationRegister (s : State) : Out :=
  match s.ctrl.phase with
  | .idle => dispatch 0x07#8 .m1 none s
  | .fin => .next (finish s)
  | _ => mutate .writeSrCr none (.write [s.x.v0, s.x.v1]) .fin s

/-- `write_configuration_register2(address, value)` (R196). -/
def execWriteConfigurationRegister2 (s : State) : Out :=
  match s.ctrl.phase with
  | .idle => dispatch 0x08#8 .m1 (modeBitsBar s) s
  | .fin => .next (finish s)
  | _ => mutate .writeCr2 (some s.x.a) (.write [s.x.v0]) .fin s

end Sys2Proof.Machine
end

