-- ==== Sys2Proof/Machine/MemoryMapped.lean ====
section
/-! DEFINITION. The memory-mapped mode toggle (spec file 47, sections 1 and 2) and the transport's two passthrough calls
(R144, R145). -/

namespace Sys2Proof.Machine

/-- The read template of a mode: `build(READ_MEM, none)` with a 32-bit address size (R129, R240). -/
def readTemplate (t : Config.OpTab) (m : EMode) : Descriptor := template t m .readMem

/-- The write template of a mode: `build(PAGE_PROGRAM, none)` with a 32-bit address size (R129, R240). -/
def writeTemplate (t : Config.OpTab) (m : EMode) : Descriptor := template t m .pageProgram

/-- `XPORT.enable_passthrough(rt, wt)`; it cannot fail (R144). -/
def enablePassthrough (rt wt : Descriptor) (s : State) : State :=
  { s with
    xport.rdTpl := some rt
    xport.wrTpl := some wt
    xport.passthrough := true
    trace := s.trace ++ [.enablePassthrough rt wt s.env.reqs] }

/-- `XPORT.disable_passthrough()`: the templates keep their values; it cannot fail (R145). -/
def disablePassthrough (s : State) : State :=
  { s with
    xport.passthrough := false
    trace := s.trace ++ [.disablePassthrough s.env.reqs] }

/-- `enable_memory_mapped()` (R240). E1 builds the templates, which depend on nothing but `CTRL.emode`; E2 hands them
over; E3 changes the tag. -/
def execEnableMemoryMapped (s : State) : Out :=
  match s.ctrl.phase with
  | .idle => dispatch 0x0F#8 .e1 none s
  | .e1 => .next (go .e2 s)
  | .e2 => .next (go .e3 (enablePassthrough (readTemplate s.optab s.ctrl.emode) (writeTemplate s.optab s.ctrl.emode) s))
  | .e3 => .next (finish { s with ctrl.mmode := .MemoryMapped })
  | _ => noSuchStep

/-- `disable_memory_mapped()` (R244). -/
def execDisableMemoryMapped (s : State) : Out :=
  match s.ctrl.phase with
  | .idle => dispatch 0x10#8 .f1 none s
  | .f1 => .next (go .f2 (disablePassthrough s))
  | .f2 => .next (finish { s with ctrl.mmode := .Direct })
  | _ => noSuchStep

end Sys2Proof.Machine
end

