-- ==== Sys2Proof/Machine/ModeSwitch.lean ====
section
/-! DEFINITION. The electrical-mode switch, `to_opi` and `to_spi` (spec file 42). -/

namespace Sys2Proof.Machine

/-- O1 and X1: read CR2 at address 0 into `CTRL.tmp` (R181, R184). -/
def readModeRegister (next : Phase) (s : State) : Out :=
  transaction .readCr2 (some 0) (.read 1) s fun t =>
    .next { t with ctrl.tmp := rxByte t 0, ctrl.phase := next }

/-- O4 and X4: the tag changes, with no transport call, and the busy-wait follows (R181, R184; `90_conflicts.md` C2). -/
def retag (m : EMode) (s : State) : State := { s with ctrl.emode := m, ctrl.phase := .w1 }

/-- `to_opi` (R181). O5 is the busy-wait, built from the Opi table. -/
def execToOpi (s : State) : Out :=
  match s.ctrl.phase with
  | .idle => dispatch 0x01#8 .o1 none s
  | .o1 => readModeRegister .o2 s
  | .o2 => writeEnable .o3 s
  | .o3 => command .writeCr2 (some 0) (.write [opiValue s.ctrl.tmp]) .o4 s
  | .o4 => .next (retag .Opi s)
  | .w1 => pollWip .o6 s
  | .o6 => .next (finish s)
  | _ => noSuchStep

/-- `to_spi` (R184). X5 is the busy-wait, built from the Spi table. -/
def execToSpi (s : State) : Out :=
  match s.ctrl.phase with
  | .idle => dispatch 0x02#8 .x1 none s
  | .x1 => readModeRegister .x2 s
  | .x2 => writeEnable .x3 s
  | .x3 => command .writeCr2 (some 0) (.write [spiValue s.ctrl.tmp]) .x4 s
  | .x4 => .next (retag .Spi s)
  | .w1 => pollWip .x6 s
  | .x6 => .next (finish s)
  | _ => noSuchStep

end Sys2Proof.Machine
end

