-- ==== Sys2Proof/Machine/Dispatch.lean ====
section
/-! DEFINITION. The dispatch of an operation to its meaning, one arm for each row of `spec/opcode_table.json`. A host
operation's meaning takes ONE micro-step at `CTRL.phase` (R25, D26); a wire command's is the chip's step (R255). -/

namespace Sys2Proof.Machine

def exec (i : Instr) (s : State) : Host.Outcome State Fault Refusal :=
  match i with
  | .construct => Sys2Proof.Machine.execConstruct s
  | .toOpi => Sys2Proof.Machine.execToOpi s
  | .toSpi => Sys2Proof.Machine.execToSpi s
  | .readId => Sys2Proof.Machine.execReadId s
  | .readStatusRegister => Sys2Proof.Machine.execReadStatusRegister s
  | .readConfigurationRegister => Sys2Proof.Machine.execReadConfigurationRegister s
  | .readConfigurationRegister2 => Sys2Proof.Machine.execReadConfigurationRegister2 s
  | .writeStatusAndConfigurationRegister => Sys2Proof.Machine.execWriteStatusAndConfigurationRegister s
  | .writeConfigurationRegister2 => Sys2Proof.Machine.execWriteConfigurationRegister2 s
  | .readMemory => Sys2Proof.Machine.execReadMemory s
  | .writeMemory => Sys2Proof.Machine.execWriteMemory s
  | .pageProgram => Sys2Proof.Machine.execPageProgram s
  | .eraseSector => Sys2Proof.Machine.execEraseSector s
  | .eraseBlock64k => Sys2Proof.Machine.execEraseBlock64k s
  | .eraseChip => Sys2Proof.Machine.execEraseChip s
  | .enableMemoryMapped => Sys2Proof.Machine.execEnableMemoryMapped s
  | .disableMemoryMapped => Sys2Proof.Machine.execDisableMemoryMapped s
  | .resetEnableSpi => Sys2Proof.Machine.execResetEnableSpi s
  | .resetMemorySpi => Sys2Proof.Machine.execResetMemorySpi s
  | .writeEnableSpi => Sys2Proof.Machine.execWriteEnableSpi s
  | .readSrSpi => Sys2Proof.Machine.execReadSrSpi s
  | .readCrSpi => Sys2Proof.Machine.execReadCrSpi s
  | .readCr2Spi a => Sys2Proof.Machine.execReadCr2Spi a s
  | .writeSrCrSpi sr cr => Sys2Proof.Machine.execWriteSrCrSpi sr cr s
  | .writeCr2Spi a v => Sys2Proof.Machine.execWriteCr2Spi a v s
  | .readIdSpi => Sys2Proof.Machine.execReadIdSpi s
  | .readMemSpi a n => Sys2Proof.Machine.execReadMemSpi a n s
  | .pageProgramSpi a data => Sys2Proof.Machine.execPageProgramSpi a data s
  | .sectorEraseSpi a => Sys2Proof.Machine.execSectorEraseSpi a s
  | .blockErase64kSpi a => Sys2Proof.Machine.execBlockErase64kSpi a s
  | .chipEraseSpi => Sys2Proof.Machine.execChipEraseSpi s
  | .resetEnableOpi => Sys2Proof.Machine.execResetEnableOpi s
  | .resetMemoryOpi => Sys2Proof.Machine.execResetMemoryOpi s
  | .writeEnableOpi => Sys2Proof.Machine.execWriteEnableOpi s
  | .readSrOpi => Sys2Proof.Machine.execReadSrOpi s
  | .readCrOpi => Sys2Proof.Machine.execReadCrOpi s
  | .readCr2Opi a => Sys2Proof.Machine.execReadCr2Opi a s
  | .writeSrCrOpi sr cr => Sys2Proof.Machine.execWriteSrCrOpi sr cr s
  | .writeCr2Opi a v => Sys2Proof.Machine.execWriteCr2Opi a v s
  | .readIdOpi => Sys2Proof.Machine.execReadIdOpi s
  | .readMemOpi a n => Sys2Proof.Machine.execReadMemOpi a n s
  | .pageProgramOpi a data => Sys2Proof.Machine.execPageProgramOpi a data s
  | .sectorEraseOpi a => Sys2Proof.Machine.execSectorEraseOpi a s
  | .blockErase64kOpi a => Sys2Proof.Machine.execBlockErase64kOpi a s
  | .chipEraseOpi => Sys2Proof.Machine.execChipEraseOpi s

end Sys2Proof.Machine
end

