-- ==== Sys2Proof/Machine/HostSide.lean ====
section
/-! DEFINITION. The host's moves: writing its operand registers and the request (R30, R31), accessing the window
(R248 to R252), cycling the power (R340). The host moves only while the controller is idle (R26). -/

namespace Sys2Proof.Machine

/-- An access of `w` bytes at `a` that the open window serves: the transport completes its read template with the
address `a - MM_BASE` and the chip answers `READ_MEM` (R75, R129, R248). The value is little-endian (R64). -/
def windowAccess (w : Nat) (a : Addr) (s : State) : Out :=
  match s.xport.rdTpl with
  | none => .fault .windowTemplateMissing
  | some d =>
    match deliver ⟨{ d with address := some (BitVec.ofNat 32 (a.toNat - Config.mmBase)) }, .read w⟩ s with
    | .next t =>
      .next { t with
        env.loaded := littleEndian t.env.rx
        trace := t.trace ++ [.windowRead a.toNat t.env.rx] }
    | .fault f => .fault f
    | .refused r => .refused r

/-- `w` bytes at `a` lie in the window: `MM_BASE <= a` and `a + w <= MM_BASE + CAPACITY` (R248). -/
def inWindow (w : Nat) (a : Addr) : Bool :=
  decide (Config.mmBase ≤ a.toNat) && decide (a.toNat + w ≤ Config.mmBase + Config.capacity)

/-- A window read, admitted when its shape is (R70): the window must be open (R75, U12) and hold the address. -/
def windowRead (shape : Bool) (w : Nat) (a : Addr) (s : State) : Out :=
  if s.xport.passthrough then
    if inWindow w a then
      if shape then windowAccess w a s else .refused .windowAccessShape
    else .refused .outsideWindow
  else .refused .windowClosed

/-- A load: 1, 2 or 4 bytes, aligned to its size (R70, R248). -/
def loadShape (w : Nat) (a : Addr) : Bool := (w == 1 || w == 2 || w == 4) && a.toNat % w == 0

/-- An instruction fetch: the host's own size, aligned to it (R70, R249; log entry 20). -/
def fetchShape (w : Nat) (a : Addr) : Bool := decide (1 ≤ w) && a.toNat % w == 0

/-- A store: the model refuses every store to the window (R251, U1). -/
def windowStore (w : Nat) (a : Addr) (s : State) : Out :=
  if s.xport.passthrough then
    if inWindow w a then .refused .windowStore else .refused .outsideWindow
  else .refused .windowClosed

/-- Hand over a buffer of `v` bytes (R30, R31). -/
def setLength (v : Len) (s : State) : State :=
  { s with x.n := v, x.buf := resize s.x.buf v.toNat s.env.draws, env.draws := s.env.draws + v.toNat }

/-- Hand over a buffer with its contents (R30, R31). -/
def setBuffer (bytes : List Byte) (s : State) : State :=
  { s with
    x.n := BitVec.ofNat 32 bytes.length
    x.buf := bytes.take (BitVec.ofNat 32 bytes.length).toNat }

/-- One move of the host. -/
def hostMove (h : HostAct) (s : State) : Out :=
  match h with
  | .setA v => .next { s with x.a := v }
  | .setN v => .next (setLength v s)
  | .setV0 v => .next { s with x.v0 := v }
  | .setV1 v => .next { s with x.v1 := v }
  | .setBuf bytes => .next (setBuffer bytes s)
  | .request op => .next { s with x.op := op, env.req := true }
  | .load w a => windowRead (loadShape w a) w a s
  | .fetch w a => windowRead (fetchShape w a) w a s
  | .store w a _ => windowStore w a s
  | .powerCycle => .next (powerOn (powerLoss s))

/-- The host's turn: its next move, or nothing to do. -/
def hostTurn (s : State) : Out :=
  match s.env.script with
  | [] => .next s
  | h :: rest => hostMove h { s with env.script := rest }

end Sys2Proof.Machine
end

