-- ==== Sys2Proof/Machine/Turn.lean ====
section
/-! DEFINITION. Who moves next (R19, R26, R290), and the placing of a table word where the machine takes its next
operation. -/

namespace Sys2Proof.Machine

/-- The next mover: the chip's completion agent; an operation (a host operation in progress or requested, or a
transaction on the bus); a request code that selects none; the host; nobody, no rule. -/
inductive Turn where
  | chipDone
  | instr (i : Instr)
  | reserved
  | host
  | stuck (f : Fault)
deriving DecidableEq, Repr

/-- The controller's turn: the request `x[OP]` at an idle controller, or the next micro-step of the operation `x[OP]`
started (R25, R26, R301). -/
def ctrlTurn (s : State) : Turn :=
  match decodeRequest s.x.op with
  | .ok i => .instr i
  | .error _ => if s.ctrl.phase = .idle then .reserved else .stuck .phaseOutsideOperation

/-- Who moves. While WIP = 1 the schedule is asked whether `CHIP.done` does (R290). -/
def turn (s : State) : Turn :=
  if s.chip.wip && s.env.done.head then .chipDone
  else
    match s.env.wire with
    | some x =>
      match decodeTxn s.optab x with
      | .ok i => .instr i
      | .error e => .stuck (stopOf e)
    | none => if s.ctrl.phase = .idle && !s.env.req then .host else ctrlTurn s

/-- The schedule's answer has been used, if it was asked for. -/
def asked (s : State) : State := if s.chip.wip then { s with env.done := s.env.done.tail } else s

/-- A transaction with an opcode of no row, in the Opi format. -/
def strayTxn (t : Config.OpTab) (w : Nat) : Txn :=
  ⟨{ build t .Opi .writeEnable none with opcode := some (BitVec.ofNat 16 w) }, .none⟩

/-- Keep `CHIP.done` from moving at the next step. -/
def holdDone (s : State) : State :=
  if s.chip.wip then { s with env.done.pre := false :: s.env.done.pre } else s

/-- Put a transaction on the bus of a chip in mode `m`. -/
def placeTxn (m : EMode) (x : Txn) (s : State) : State :=
  { s with
    env.wire := some x
    chip.cr20 := mergeBits 0x03#8 s.chip.cr20 (match m with | .Spi => 0x00#8 | .Opi => 0x01#8) }

/-- Put a request code into `x[OP]` of an idle controller. -/
def placeRequest (op : Byte) (s : State) : State :=
  { s with env.wire := none, env.req := true, ctrl.phase := .idle, x.op := op }

/-- Put a table word where the next step takes it (log entry 2). -/
def placeWord (nbits w : Nat) (s : State) : State :=
  match wordCode s.optab nbits w with
  | some (.request op) => placeRequest op (holdDone s)
  | some (.txn x) => placeTxn (if nbits = 8 then .Spi else .Opi) x (holdDone s)
  | none => placeTxn .Opi (strayTxn s.optab w) (holdDone s)

end Sys2Proof.Machine
end

