-- ==== Sys2Proof/Machine/Step.lean ====
section
/-! DEFINITION. One step of the system: one agent's move (R19, R26). -/

namespace Sys2Proof.Machine

/-- One step. -/
def step (s : State) : Host.Outcome State Fault Refusal :=
  match turn s with
  | .chipDone => .next (chipDone (asked s))
  | .instr i => exec i (asked s)
  | .reserved => dispatchReserved (asked s)
  | .host => hostTurn (asked s)
  | .stuck f => .fault f

/-- `s` with a table word where the next step takes its operation (log entry 2). -/
def State.withFetchWord (s : State) (nbits w : Nat) : State := placeWord nbits w s

end Sys2Proof.Machine
end

