-- ==== Sys2Proof/Safety.lean ====
section
/-! DEFINITION. What claims about a run speak of: the premises of a transaction that goes through, the launch
premises (R48), the invariant of the controller, and the write-enable discipline (R159). -/

namespace Sys2Proof.Machine

/-! ### Reading a run -/

/-- `CHIP.array` of a state: the read of one byte. -/
def State.byte (s : State) (a : Nat) : Byte := s.chip.byte a

/-- `k` steps of the machine, stopping at the first fault or refusal. -/
def run (k : Nat) (s : State) : Out := Host.Core.run Sys2Proof.core k s

/-- The first micro-step of each host operation, where the dispatcher sends it (R302 step 7). -/
def firstStep : Instr → Phase
  | .construct => .s1
  | .toOpi => .o1
  | .toSpi => .x1
  | .readId => .i1
  | .readStatusRegister => .rs1
  | .readConfigurationRegister => .rc1
  | .readConfigurationRegister2 => .rq1
  | .writeStatusAndConfigurationRegister | .writeConfigurationRegister2 => .m1
  | .readMemory => .b1
  | .writeMemory => .p1
  | .pageProgram => .g1
  | .eraseSector | .eraseBlock64k | .eraseChip => .m1
  | .enableMemoryMapped => .e1
  | .disableMemoryMapped => .f1
  | _ => .idle

/-- The labels of each host operation's pseudocode (files 41 to 47). -/
def steps : Instr → List Phase
  | .construct => [.s1, .s2, .s3, .w1, .s5]
  | .toOpi => [.o1, .o2, .o3, .o4, .w1, .o6]
  | .toSpi => [.x1, .x2, .x3, .x4, .w1, .x6]
  | .readId => [.i1, .i2]
  | .readStatusRegister => [.rs1]
  | .readConfigurationRegister => [.rc1]
  | .readConfigurationRegister2 => [.rq1]
  | .writeStatusAndConfigurationRegister | .writeConfigurationRegister2 => [.m1, .m2, .w1, .fin]
  | .readMemory => [.b1, .b2]
  | .writeMemory => [.p1, .p2, .p3, .p4, .p5, .g1, .m1, .m2, .w1, .p6, .p7]
  | .pageProgram => [.g1, .m1, .m2, .w1, .g3]
  | .eraseSector | .eraseBlock64k | .eraseChip => [.m1, .m2, .w1, .fin]
  | .enableMemoryMapped => [.e1, .e2, .e3]
  | .disableMemoryMapped => [.f1, .f2]
  | _ => []

/-- What the model refuses of each host operation's operands, once every guard has passed (R62, R187, R211, R226). -/
def barOf : Instr → State → Option Refusal
  | .writeConfigurationRegister2, s => modeBitsBar s
  | .readMemory, s => readBar s
  | .writeMemory, s => writeBar s
  | .pageProgram, s => pageBar s
  | .eraseSector, s | .eraseBlock64k, s => eraseBar s
  | _, _ => none

/-- Where each operation with a busy-wait goes when WIP is seen clear (R156, R158, R170, R181, R184). -/
def afterWait : Instr → Option Phase
  | .construct => some .s5
  | .toOpi => some .o6
  | .toSpi => some .x6
  | .writeStatusAndConfigurationRegister | .writeConfigurationRegister2 => some .fin
  | .writeMemory => some .p6
  | .pageProgram => some .g3
  | .eraseSector | .eraseBlock64k | .eraseChip => some .fin
  | _ => none

/-- The last micro-step of an operation, when it does nothing but complete (R130). -/
def closing : Instr → Option Phase
  | .toOpi => some .o6
  | .toSpi => some .x6
  | .writeStatusAndConfigurationRegister | .writeConfigurationRegister2 => some .fin
  | .writeMemory => some .p7
  | .pageProgram => some .g3
  | .eraseSector | .eraseBlock64k | .eraseChip => some .fin
  | _ => none

/-- The micro-steps that make a transport call of `execute`, `read` or `write` (R25, R150). -/
def calling : Instr → List Phase
  | .construct => [.s2, .s3, .w1]
  | .toOpi => [.o1, .o2, .o3, .w1]
  | .toSpi => [.x1, .x2, .x3, .w1]
  | .readId => [.i1]
  | .readStatusRegister => [.rs1]
  | .readConfigurationRegister => [.rc1]
  | .readConfigurationRegister2 => [.rq1]
  | .readMemory => [.b1]
  | .writeStatusAndConfigurationRegister | .writeConfigurationRegister2 | .writeMemory | .pageProgram
  | .eraseSector | .eraseBlock64k | .eraseChip => [.m1, .m2, .w1]
  | _ => []

/-- The call of `T` that operation `i` makes at its micro-step: logical operation, address, data (R152, R154, R158 and files 41
to 46). -/
def callAt (i : Instr) (s : State) : Option (Lop × Option Addr × Payload) :=
  match s.ctrl.phase with
  | .s2 => some (.resetEnable, none, .none)
  | .s3 => some (.resetMemory, none, .none)
  | .o1 | .x1 => some (.readCr2, some 0, .read 1)
  | .m1 | .o2 | .x2 => some (.writeEnable, none, .none)
  | .o3 => some (.writeCr2, some 0, .write [opiValue s.ctrl.tmp])
  | .x3 => some (.writeCr2, some 0, .write [spiValue s.ctrl.tmp])
  | .w1 | .rs1 => some (.readSr, none, .read 1)
  | .i1 => some (.readId, none, .read 3)
  | .rc1 => some (.readCr, none, .read 1)
  | .rq1 => some (.readCr2, some s.x.a, .read 1)
  | .b1 => some (.readMem, some s.x.a, .read s.x.n.toNat)
  | .m2 =>
    match i with
    | .writeStatusAndConfigurationRegister => some (.writeSrCr, none, .write [s.x.v0, s.x.v1])
    | .writeConfigurationRegister2 => some (.writeCr2, some s.x.a, .write [s.x.v0])
    | .pageProgram => some (.pageProgram, some s.x.a, .write (pageData s))
    | .writeMemory => some (.pageProgram, some s.seq.cursor, .write (chunkData s))
    | .eraseSector => some (.sectorErase, some s.x.a, .none)
    | .eraseBlock64k => some (.blockErase64k, some s.x.a, .none)
    | .eraseChip => some (.chipErase, none, .none)
    | _ => none
  | _ => none

/-! ### A transaction that goes through -/

/-- The next transport call is one the chip, in mode `m`, will serve: `OPTAB` is well formed (R115), tag and chip agree
(R185), the transport takes explicit calls (R149), no other transaction stands on the bus, and the call returns `Ok` (R146). -/
structure Connected (m : EMode) (s : State) : Prop where
  table : OpTab.wf s.optab = true
  tag : s.ctrl.emode = m
  chip : s.chip.emode = some m
  direct : s.xport.passthrough = false
  bus : s.env.wire = none
  ok : s.env.calls.head = .ok

/-- `Connected`, and the chip is idle: any wire command has a rule (R259). -/
structure Ready (m : EMode) (s : State) : Prop extends Connected m s where
  idle : s.chip.wip = false

/-- The event of an `Ok` call made by the operation in progress (R148). -/
def okEvent (s : State) (l : Lop) (a : Option Addr) (data : Option (List Byte)) : Event :=
  .call (callKind l.dir) (build s.optab s.ctrl.emode l a) data true s.env.reqs

/-- The event of a call that returned `Err`, made by the operation in progress (R148): the bytes sent, none received (log
entry 26). -/
def errEvent (s : State) (l : Lop) (a : Option Addr) (p : Payload) : Event :=
  .call (callKind l.dir) (build s.optab s.ctrl.emode l a)
    (match p with | .write data => some data | _ => none) false s.env.reqs

/-- The state after an `Ok` call: the chip's new state, the bytes received, one event, one choice used. -/
def called (s : State) (e : Event) (c : Chip) (rx : List Byte) : State :=
  { s with
    chip := c
    trace := s.trace ++ [e]
    env.calls := s.env.calls.tail
    env.rx := rx }

/-- The chip after a command that answers and changes nothing, or is ignored (R73, R260). -/
def Chip.asked (c : Chip) : Chip := { c with rsten := false }

/-- The chip after an accepted mutating command with effect `f` (R288, R289). -/
def Chip.mutated (c : Chip) (f : Chip → Chip) : Chip := (f c.asked).raiseWip

/-! ### The chip's three ways of taking a transaction -/

/-- Answered with `rx`, nothing changed but the latch of RESET_ENABLE (R73, R260). -/
def answered (s : State) (rx : List Byte) : State :=
  { s with chip.rsten := false, env.wire := none, env.rx := rx }

/-- Ignored: a mutating command while WEL = 0 (R268 to R280). -/
def ignored (s : State) : State := { s with chip.rsten := false, env.wire := none }

/-- Accepted: a mutating command with effect `f`; `u` marks a change of an undescribed register bit (log entry 9). -/
def altered (s : State) (f : Chip → Chip) (u : Bool) : State :=
  { s with chip := s.chip.mutated f, env.wire := none, env.undoc := s.env.undoc || u }

/-! ### A request that will run -/

/-- The host has written the request code `op` of a constructed, idle controller in command mode; mode agreement holds, the
chip is idle, and every transport call will return `Ok` (R146, R185, R301). -/
structure Requested (m : EMode) (op : Byte) (s : State) : Prop extends Ready m s where
  phase : s.ctrl.phase = .idle
  req : s.env.req = true
  op : s.x.op = op
  state : s.ctrl.cstate = .ready
  mapping : s.ctrl.mmode = .Direct
  calls : s.env.calls.rest = .ok ∧ ∀ d ∈ s.env.calls.pre, d = .ok

/-- The address and the bytes an `Ok` call of `write` sent (R143, R148). -/
def Event.sent : Event → Option (Nat × List Byte)
  | .call .write d (some data) true _ => d.address.map fun a => (a.toNat, data)
  | _ => none

/-! ### Launch -/

/-- The launch premises (R48). -/
structure Launch (s : State) : Prop where
  unconstructed : s.ctrl.cstate = .unconstructed
  phase : s.ctrl.phase = .idle
  command : s.xport.passthrough = false
  idle : s.chip.wip = false
  spi : s.chip.opiEn = false
  b1 : s.chip.cr2B1 = false
  rsten : s.chip.rsten = false
  trace : s.trace = []
  cause : s.ctrl.cause = 0

/-- Every transport call returns `Ok`: the premise R146 names. -/
def AllCallsOk (s : State) : Prop := s.env.calls.rest = .ok ∧ ∀ d ∈ s.env.calls.pre, d = .ok

/-- Weak fairness of `CHIP.done` (R291): whatever the schedule, it does not withhold the completion for ever. -/
def Fair (s : State) : Prop := s.env.done.rest = true

/-- The chip completes before the first poll (R156, R290). -/
def Prompt (s : State) : Prop := s.env.done = ⟨[], true⟩

/-! ### The invariant of the controller -/

/-- The micro-steps between the tag and the register write of a mode switch (R181, R184). -/
def switching (p : Phase) : Bool := p == .o4 || p == .x4

/-- The page-split sequencer between two labels of R220, for a request at `a` of `n` bytes: cursor and counters add up
(R222), the chunk fits its page (R221). -/
def splitOk (s : State) : Prop :=
  s.x.a.toNat + s.x.n.toNat ≤ Config.capacity
  ∧ s.seq.cursor.toNat = s.x.a.toNat + s.seq.produced.toNat
  ∧ s.seq.produced.toNat + s.seq.remaining.toNat = s.x.n.toNat

/-- The chunk of P4 (R220, R221). -/
def chunkOk (s : State) : Prop :=
  s.seq.chunk.toNat = min (pageRoom s.seq.cursor.toNat) s.seq.remaining.toNat ∧ 1 ≤ s.seq.remaining.toNat

/-- The operands of operation `i`, in progress, are admitted ones (R62, R187, R211, R216, R226). -/
def admittedFor (i : Instr) (s : State) : Prop :=
  match i with
  | .readMemory => 1 ≤ s.x.n.toNat ∧ s.x.a.toNat + s.x.n.toNat ≤ Config.capacity
  | .pageProgram =>
    1 ≤ s.x.n.toNat
    ∧ (fitsPage s.x.a.toNat s.x.n.toNat = true → s.x.a.toNat + s.x.n.toNat ≤ Config.capacity)
    ∧ (s.ctrl.phase ≠ .g1 → fitsPage s.x.a.toNat s.x.n.toNat = true)
  | .eraseSector | .eraseBlock64k => s.x.a.toNat < Config.capacity
  | .writeConfigurationRegister2 =>
    s.x.a = 0 → s.x.v0.getLsbD 0 = s.chip.opiEn ∧ s.x.v0.getLsbD 1 = s.chip.cr2B1
  | .writeMemory =>
    (s.x.n = 0 ∨ s.x.a.toNat + s.x.n.toNat ≤ Config.capacity)
    ∧ (s.ctrl.phase ∈ [.p2, .p3, .p4, .p5, .g1, .m1, .m2, .w1, .p6] → s.x.n ≠ 0 → splitOk s)
    ∧ (s.x.n = 0 → s.ctrl.phase ∈ [.p1, .p2, .p7] ∧ (s.ctrl.phase = .p2 → s.seq.remaining = 0))
    ∧ (s.ctrl.phase = .p3 → 1 ≤ s.seq.remaining.toNat)
    ∧ (s.ctrl.phase = .p4 → 1 ≤ s.seq.remaining.toNat ∧ s.seq.maxChunk.toNat = pageRoom s.seq.cursor.toNat)
    ∧ (s.ctrl.phase ∈ [.p5, .g1, .m1, .m2, .w1, .p6] → chunkOk s)
  | _ => True

/-- The operands of the request in progress are admitted ones. -/
def admitted (s : State) : Prop :=
  match decodeRequest s.x.op with
  | .ok i => admittedFor i s
  | .error _ => True

/-- The invariant every step keeps. Its clauses: `OPTAB` well formed (R115); both memories canonical; no stray transaction;
`BUF` has `x[N]` bytes (R31); the cause register (R24); a micro-step belongs to the request in progress, which a constructed
controller runs, and `construct` an unconstructed one (R25, R301); tag and chip agree but between the two halves of a switch
(R185); the value a switch writes back is the one it read (R181, R184); WEL is set when a mutating command goes out (R350);
a busy chip is being polled or abandoned (R83, R351); RESET_MEMORY follows RESET_ENABLE (R172); explicit commands only in
command mode (R170, R353); the bytes `read_memory` stores fill `BUF` (R210); an open window has a template of the chip's
mode and an idle chip (R83, R240); admitted operands. -/
structure Inv (s : State) : Prop where
  table : OpTab.wf s.optab = true
  memory : s.chip.memoryWf = true
  bus : s.env.wire = none
  buf : s.x.buf.length = s.x.n.toNat
  cause : s.ctrl.cstate ≠ .faulted → s.ctrl.cause = 0
  code : s.ctrl.cstate = .faulted → ∃ c : Cause, s.ctrl.cause = c.code
  inOp : s.ctrl.phase ≠ .idle → ∃ i, decodeRequest s.x.op = .ok i ∧ s.ctrl.phase ∈ steps i
  taken : s.ctrl.phase ≠ .idle → s.env.req = false
  life : s.ctrl.phase ≠ .idle →
    s.ctrl.cstate = (if s.x.op = 0 then CState.unconstructed else CState.ready)
  fresh : s.ctrl.cstate = .unconstructed → s.chip.emode = some .Spi ∧ s.xport.passthrough = false
  agree : s.ctrl.cstate ≠ .faulted → switching s.ctrl.phase = false →
    ¬ (s.ctrl.cstate = .unconstructed ∧ (s.ctrl.phase = .idle ∨ s.ctrl.phase = .s1)) →
    s.chip.emode = some s.ctrl.emode
  toOpi : s.ctrl.phase = .o4 → s.chip.emode = some .Opi
  toSpi : s.ctrl.phase = .x4 → s.chip.emode = some .Spi
  fromSpi : s.ctrl.phase ∈ [.o1, .o2, .o3, .o4] → s.ctrl.emode = .Spi
  fromOpi : s.ctrl.phase ∈ [.x1, .x2, .x3, .x4] → s.ctrl.emode = .Opi
  readBack : s.ctrl.phase ∈ [.o2, .o3, .x2, .x3] → s.ctrl.tmp = s.chip.cr20
  latched : s.ctrl.phase ∈ [.m2, .o3, .x3] → s.chip.wel = true
  busy : s.chip.wip = true → s.ctrl.cstate = .faulted ∨ s.ctrl.phase ∈ [.w1, .o4, .x4]
  armed : s.ctrl.phase = .s3 → s.chip.rsten = true
  command : s.ctrl.cstate = .ready → s.ctrl.phase ∉ [.idle, .f1, .f2] → s.ctrl.mmode = .Direct
  starting : s.ctrl.cstate = .unconstructed → s.ctrl.phase ∈ [.s2, .s3, .w1, .s5] → s.ctrl.mmode = .Direct
  mapped : s.ctrl.cstate = .ready → s.ctrl.phase ∈ [.f1, .f2] → s.ctrl.mmode = .MemoryMapped
  passing : s.ctrl.cstate = .ready →
    s.xport.passthrough = (if s.ctrl.phase = .e3 then true else if s.ctrl.phase = .f2 then false
      else decide (s.ctrl.mmode = .MemoryMapped))
  window : s.xport.passthrough = true →
    s.chip.wip = false ∧ ∃ m, s.xport.rdTpl = some (readTemplate s.optab m) ∧ s.chip.emode = some m
  received : s.ctrl.phase = .b2 → s.env.rx.length = s.x.n.toNat
  operands : s.ctrl.phase ≠ .idle → admitted s

/-! ### The write-enable discipline -/

/-- The logical operation a descriptor carries, by its format and its opcode in the table (R256). -/
def Descriptor.lop (t : Config.OpTab) (d : Descriptor) : Option Lop :=
  match d.format, d.opcode with
  | some m, some o => lookup t m o
  | _, _ => none

/-- What the discipline asks next of a trace: nothing; an `Ok` write-enable of operation `op` has just gone out; a
mutating command of operation `op` has, and its polls are not over. -/
inductive Duty where
  | free
  | enabled (op : Nat)
  | polling (op : Nat)
deriving DecidableEq, Repr

/-- The status byte a poll returned has bit 0 set (R156). -/
def sawBusy (data : Option (List Byte)) : Bool := srWip ((data.getD []).getD 0 0)

/-- One event against the discipline; `none` is a breach (R159). A mutating call must come immediately after an `Ok`
write-enable made by the same host operation; after it, only `READ_SR` calls of that operation, up to and including the
first whose data has bit 0 = 0, "unless an abort intervenes": an `Err` call aborts. -/
def Duty.after (t : Config.OpTab) (d : Duty) (e : Event) : Option Duty :=
  match d, e with
  | .polling op, .call _ c data ok op' =>
    if Descriptor.lop t c = some .readSr ∧ op' = op then
      some (if ok && sawBusy data then .polling op else .free)
    else none
  | .polling _, _ => none
  | d, .call _ c _ ok op' =>
    if (Descriptor.lop t c).elim false Lop.mutating then
      if d = .enabled op' then some (if ok then .polling op' else .free) else none
    else some (if Descriptor.lop t c = some .writeEnable ∧ ok = true then .enabled op' else .free)
  | _, _ => some .free

/-- A trace against the discipline. -/
def Duty.scan (t : Config.OpTab) : Duty → List Event → Option Duty
  | d, [] => some d
  | d, e :: es =>
    match d.after t e with
    | some d' => Duty.scan t d' es
    | none => none

/-- What the discipline asks of the operation in progress at its next micro-step. -/
def dutyNow (s : State) : Duty :=
  if s.ctrl.phase ∈ [.m2, .o3, .x3] then .enabled s.env.reqs
  else if s.ctrl.phase ∈ [.o4, .x4] ∨ (s.ctrl.phase = .w1 ∧ s.x.op ≠ 0) then .polling s.env.reqs
  else .free

/-- The write-enable discipline holds of the trace, and the controller is where it says (R159). -/
def Discipline (s : State) : Prop := Duty.scan s.optab .free s.trace = some (dutyNow s)

end Sys2Proof.Machine
end

