-- ==== Sys2Proof/Certificates/Slice0/Obligations.lean ====
section
/-! DEFINITION. The statements for the provers, from the numbered rules of the spec. -/

open Sys2Proof Sys2Proof.Machine

/-! ### Encodings -/

/-- Decoding an encoded operation gives it back, whatever well-formed tables the parameter `OPTAB` holds (R96, R115, R130,
R256). -/
def Obligations.DecodeEncodeAgree : Prop :=
  ∀ (t : Config.OpTab) (i : Instr), OpTab.wf t = true → i.wf = true → decode t (encode t i) = .ok i

/-- What decodes is exactly what the encoder writes: one transaction, one request code for each operation, and no other
transaction is read as it (R132, R134, R258). -/
def Obligations.EncodeDecodeAgree : Prop :=
  ∀ (t : Config.OpTab) (c : Code) (i : Instr), decode t c = .ok i → encode t i = c ∧ i.wf = true

/-- R91, of every table. -/
def Obligations.LinesFollowMode : Prop :=
  ∀ (t : Config.OpTab) (l : Lop) (a : Option Addr),
    ((build t .Spi l a).ilines = .one ∧ (build t .Spi l a).isize = .bits8
      ∧ ((build t .Spi l a).address ≠ none → (build t .Spi l a).alines = some .one)
      ∧ ((build t .Spi l a).dir ≠ .commandOnly → (build t .Spi l a).dlines = some .one)) ∧
    ((build t .Opi l a).ilines = .eight ∧ (build t .Opi l a).isize = .bits16
      ∧ ((build t .Opi l a).address ≠ none → (build t .Opi l a).alines = some .eight)
      ∧ ((build t .Opi l a).dir ≠ .commandOnly → (build t .Opi l a).dlines = some .eight))

/-- R92, R115: whatever value the open parameters are given (the opcodes, `DUMMY_REG_OPI`, `REGADDR`), the tables of R101 to
R114 are well formed exactly when the Spi opcodes fit 8 bits, each mode's opcodes are pairwise distinct and `DUMMY_REG_OPI` is
at least 1; the default tables are (default opcodes and numbers: log entries 12 and 13). Every descriptor built from such a
table with the address its operation takes is well formed, and so are the two templates of each mode, in the template's sense
(R129). -/
def Obligations.TablesAndBuiltDescriptorsWellFormed : Prop :=
  OpTab.wf defaultTab = true ∧
  ∀ (so oo : Lop → Opcode) (d : Nat) (a0 a1 a2 a3 : Addr),
    (OpTab.wf (tableOf so oo d a0 a1 a2 a3) = true ↔
      (∀ l, (so l).toNat < 256) ∧ (∀ l k, so l = so k → l = k) ∧ (∀ l k, oo l = oo k → l = k) ∧ 1 ≤ d) ∧
    ∀ m : EMode,
      (∀ (l : Lop) (a : Option Addr), (l.operandAddress = true → a ≠ none) →
        Descriptor.wf (build (tableOf so oo d a0 a1 a2 a3) m l a) = true) ∧
      Descriptor.templateWf (readTemplate (tableOf so oo d a0 a1 a2 a3) m) = true ∧
      Descriptor.templateWf (writeTemplate (tableOf so oo d a0 a1 a2 a3) m) = true

/-- A few words, written out from R101 to R114 and R130 at the default values of the parameters, decode to what they stand
for. The opcodes are PRESUMED (log entry 12), and so are the 4 dummy cycles and the register address 0 of the last (log
entry 13); the address 0 of a table word is the model's (log entry 29). Of the other statements only two rest on these
numbers: that the default tables are well formed, and with it that the reset state meets the invariant. -/
def Obligations.WrittenWordsDecode : Prop :=
  decodeTableWord 8 0x03 = some .readId ∧
  decodeTableWord 8 0x66 = some .resetEnableSpi ∧
  decodeTableWord 16 0xDC23 = some (.blockErase64kOpi 0) ∧
  decodeTxn defaultTab ⟨⟨.one, .bits8, some .one, some .bits32, some .one, 8, some 0x0C, some 0x10, .read, none⟩, .read 4⟩ =
    .ok (.readMemSpi 0x10 4) ∧
  decodeTxn defaultTab ⟨⟨.eight, .bits16, some .eight, some .bits32, some .eight, 0, some 0x12ED, some 0x1F0, .write, none⟩,
    .write [0x11, 0x22]⟩ = .ok (.pageProgramOpi 0x1F0 [0x11, 0x22]) ∧
  decodeTxn defaultTab ⟨⟨.eight, .bits16, some .eight, some .bits32, some .eight, 4, some 0x05FA, some 0, .read, none⟩,
    .read 1⟩ = .ok .readSrOpi

/-! ### One step of the system -/

/-- When it is not the completion agent's turn and the transaction on the bus, or the request of the controller, decodes to
`i`, the step is `i`'s meaning; around it the step only uses up the schedule's answer while WIP = 1. That a host operation
takes one micro-step, and a transaction on the bus one chip step, is log entries 16 and 25. -/
def Obligations.StepRunsDecodedOperation : Prop :=
  ∀ (s : State) (i : Instr), (s.chip.wip && s.env.done.head) = false →
    ((∃ x, s.env.wire = some x ∧ decodeTxn s.optab x = .ok i) ∨
      (s.env.wire = none ∧ (s.ctrl.phase ≠ .idle ∨ s.env.req = true) ∧ decodeRequest s.x.op = .ok i)) →
    step s = exec i { s with env.done := if s.chip.wip then s.env.done.tail else s.env.done }

/-- R290: `CHIP.done` moves exactly when WIP is 1 and the schedule lets it (the schedule is `env.done`, log entry 6); its step
clears WIP and WEL and nothing else. The latches are as R37, R260 and R290 give them from general knowledge (log entry 23). -/
def Obligations.CompletionAgentClearsWipAndWel : Prop :=
  ∀ s : State,
    (s.chip.wip = true → s.env.done.head = true →
      step s = .next { s with chip.sr := s.chip.sr &&& 0xFC, env.done := s.env.done.tail }) ∧
    (s.chip.wip = true → s.env.done.head = false → turn s ≠ .chipDone) ∧
    (s.chip.wip = false → turn s ≠ .chipDone)

/-- R30, R31: the host's moves on its registers, at an idle controller with no request pending: each writes its own register,
`BUF` and `x[N]` go together, a write of `x[OP]` is the request, and nothing else changes. `env.script` and `env.req` are log
entry 17; what the bytes of a buffer handed over by its length hold, log entry 18. -/
def Obligations.HostWritesOperands : Prop :=
  ∀ (s u : State) (h : HostAct) (rest : List HostAct), s.ctrl.phase = .idle → s.env.req = false → s.env.wire = none →
    s.env.script = h :: rest → (s.chip.wip && s.env.done.head) = false →
    u = { s with env.script := rest, env.done := if s.chip.wip then s.env.done.tail else s.env.done } →
    (∀ v, h = .setA v → step s = .next { u with x.a := v }) ∧
    (∀ v, h = .setV0 v → step s = .next { u with x.v0 := v }) ∧
    (∀ v, h = .setV1 v → step s = .next { u with x.v1 := v }) ∧
    (∀ op, h = .request op → step s = .next { u with x.op := op, env.req := true }) ∧
    (∀ bytes : List Byte, h = .setBuf bytes → bytes.length < 2 ^ 32 →
      ∃ n : Len, n.toNat = bytes.length ∧ step s = .next { u with x.n := n, x.buf := bytes }) ∧
    (∀ n : Len, h = .setN n → ∃ (buf : List Byte) (d : Nat), buf.length = n.toNat ∧
      (∀ j b, j < n.toNat → s.x.buf[j]? = some b → buf[j]? = some b) ∧
      step s = .next { u with x.n := n, x.buf := buf, env.draws := d })

/-- R26: while an operation is in progress the host does not move: no step writes an operand register, takes a request or
uses up the host's script. -/
def Obligations.HostBlockedDuringOperation : Prop :=
  ∀ s t : State, s.ctrl.phase ≠ .idle → step s = .next t →
    t.x.op = s.x.op ∧ t.x.a = s.x.a ∧ t.x.n = s.x.n ∧ t.x.v0 = s.x.v0 ∧ t.x.v1 = s.x.v1 ∧
    t.env.script = s.env.script ∧ t.env.req = s.env.req ∧ t.env.reqs = s.env.reqs

/-! ### Dispatch and aborts -/

/-- R302, for each of the seventeen host operations: the guards in their fixed order, then the operands the spec does not
admit (`barOf`; R62, R187, R211, R226), then the first micro-step. Where the refusals stand is log entry 10; that the dispatch
is a step of its own, log entry 16. -/
def Obligations.DispatcherChecksInOrder : Prop :=
  ∀ (s : State) (i : Instr) (op : Byte), i.requestCode = some op → s.ctrl.phase = .idle →
    exec i s =
      if s.ctrl.cstate = .faulted then .next { accepted s with x.st := s.ctrl.cause }
      else if ¬ (s.ctrl.cstate = .unconstructed ↔ op = 0x00) then .next (abort .illegalRequest (accepted s))
      else if op = 0x00 then .next (go .s1 (accepted s))
      else if op = 0x10 ∧ s.ctrl.mmode = .Direct then .next (abort .wrongMappingMode (accepted s))
      else if op ≠ 0x10 ∧ s.ctrl.mmode = .MemoryMapped then .next (abort .wrongMappingMode (accepted s))
      else if op = 0x01 ∧ s.ctrl.emode = .Opi then .next (abort .wrongElectricalMode (accepted s))
      else if op = 0x02 ∧ s.ctrl.emode = .Spi then .next (abort .wrongElectricalMode (accepted s))
      else (barOf i s).elim (.next (go (firstStep i) (accepted s))) Host.Outcome.refused

/-- R132: a reserved request code aborts with `IllegalRequest` and makes no transport call, unless the controller is already
`FAULTED`, which only reports its cause (R301). -/
def Obligations.ReservedRequestAborts : Prop :=
  ∀ s : State, s.env.wire = none → s.ctrl.phase = .idle → s.env.req = true → 0x11 ≤ s.x.op.toNat →
    (s.chip.wip && s.env.done.head) = false →
    decodeRequest s.x.op = .error .reservedRequest ∧
    ∃ t, step s = .next t ∧ t.trace = s.trace ∧ t.chip = s.chip ∧ t.xport = s.xport ∧ t.ctrl.cstate = .faulted ∧
      t.ctrl.phase = .idle ∧
      (s.ctrl.cstate ≠ .faulted → t.ctrl.cause = 0x05 ∧ t.x.st = 0x05) ∧
      (s.ctrl.cstate = .faulted → t.ctrl = s.ctrl ∧ t.x = { s.x with st := s.ctrl.cause })

/-- R310: what `raise Abort(cause)` writes, and that everything else the rule names keeps its value. The result registers and,
for `read_memory`, `BUF` are left open by R311 and are not claimed. The five codes (R300). -/
def Obligations.AbortEntryWritesFourRegisters : Prop :=
  (Cause.pageOverflow.code = 0x01 ∧ Cause.transportError.code = 0x02 ∧ Cause.wrongMappingMode.code = 0x03 ∧
    Cause.wrongElectricalMode.code = 0x04 ∧ Cause.illegalRequest.code = 0x05) ∧
  ∀ (c : Cause) (s : State),
    (abort c s).ctrl = { s.ctrl with cause := c.code, cstate := .faulted, phase := .idle } ∧
    (abort c s).x.st = c.code ∧
    (abort c s).seq = s.seq ∧ (abort c s).xport = s.xport ∧ (abort c s).chip = s.chip ∧ (abort c s).trace = s.trace ∧
    (abort c s).x.op = s.x.op ∧ (abort c s).x.a = s.x.a ∧ (abort c s).x.n = s.x.n ∧ (abort c s).x.v0 = s.x.v0 ∧
    (abort c s).x.v1 = s.x.v1 ∧ (s.x.op ≠ 0x09 → (abort c s).x.buf = s.x.buf)

/-- R312: a faulted controller stays faulted, keeps its first cause and makes no transport call, whatever step is taken, as
long as the host does not cycle the power. -/
def Obligations.FaultedIsSticky : Prop :=
  ∀ s t : State, s.ctrl.cstate = .faulted → s.ctrl.phase = .idle → s.env.script.head? ≠ some .powerCycle →
    step s = .next t →
    t.ctrl = s.ctrl ∧ t.xport = s.xport ∧
    (t.trace = s.trace ∨ ∃ a bytes, t.trace = s.trace ++ [.windowRead a bytes])

/-- R36, R46, R47, R312, R340, R361: power off and on restores `UNCONSTRUCTED` and the launch premises of R48, whatever the
chip was doing. It keeps the array of an idle chip; of a busy one, every byte but those the command in progress was changing,
which R289 leaves without a value. That the host cycles the power, and that those bytes become free values, is log entry 21. -/
def Obligations.PowerCycleRestoresLaunch : Prop :=
  ∀ (s : State) (rest : List HostAct), s.ctrl.phase = .idle → s.env.req = false → s.env.wire = none →
    (s.chip.wip && s.env.done.head) = false → s.env.script = .powerCycle :: rest →
    ∃ t, step s = .next t ∧ Launch t ∧ t.xport.rdTpl = none ∧ t.xport.wrTpl = none ∧ t.env.script = rest ∧
      t.optab = s.optab ∧
      (s.chip.wip = false → t.chip.array = s.chip.array) ∧
      (s.chip.memoryWf = true → ∀ x, x ∉ s.chip.pending.slots → t.chip.byte x = s.chip.byte x)

/-- R62, R187, R211, R226: with every guard passed, the operands the spec does not admit are refused, and no others. R70, R75,
R251: so is what the host may not do to the window, a load or fetch of another shape among it, each case by name (log entries
10, 11, 20); an access outside the window is none to this block (log entry 32). That a write of register bits the spec does not
describe is among those not refused is log entry 9 (file 93, U9; R195, R360). -/
def Obligations.InputsNotAdmittedRefused : Prop :=
  ∀ (s : State) (w : Nat) (a : Addr) (v : Nat),
    (barOf .readMemory s = if s.x.n = 0 then some .zeroLength
      else if s.x.a.toNat + s.x.n.toNat ≤ 33554432 then none else some .outsideArray) ∧
    (barOf .pageProgram s = if s.x.n = 0 then some .zeroLength
      else if s.x.n.toNat + s.x.a.toNat % 256 ≤ 256 ∧ 33554432 < s.x.a.toNat + s.x.n.toNat then some .outsideArray
      else none) ∧
    (barOf .writeMemory s =
      if s.x.n ≠ 0 ∧ 33554432 < s.x.a.toNat + s.x.n.toNat then some .outsideArray else none) ∧
    (barOf .eraseSector s = if s.x.a.toNat < 33554432 then none else some .outsideArray) ∧
    (barOf .eraseBlock64k s = if s.x.a.toNat < 33554432 then none else some .outsideArray) ∧
    (barOf .writeConfigurationRegister2 s =
      if s.x.a = 0 ∧ (s.x.v0.getLsbD 0 ≠ s.chip.cr20.getLsbD 0 ∨ s.x.v0.getLsbD 1 ≠ s.chip.cr20.getLsbD 1)
      then some .modeBitsBehindController else none) ∧
    (∀ i : Instr, i ∉ [.readMemory, .pageProgram, .writeMemory, .eraseSector, .eraseBlock64k, .writeConfigurationRegister2] →
      barOf i s = none) ∧
    (s.xport.passthrough = false →
      hostMove (.load w a) s = .refused .windowClosed ∧ hostMove (.fetch w a) s = .refused .windowClosed ∧
      hostMove (.store w a v) s = .refused .windowClosed) ∧
    (s.xport.passthrough = true → inWindow w a = true →
      hostMove (.store w a v) s = .refused .windowStore ∧
      (¬ (w ∈ [1, 2, 4] ∧ a.toNat % w = 0) → hostMove (.load w a) s = .refused .windowAccessShape) ∧
      (¬ (1 ≤ w ∧ a.toNat % w = 0) → hostMove (.fetch w a) s = .refused .windowAccessShape)) ∧
    (s.xport.passthrough = true → ¬ (Config.mmBase ≤ a.toNat ∧ a.toNat + w ≤ Config.mmBase + 33554432) →
      hostMove (.load w a) s = .refused .outsideWindow ∧ hostMove (.fetch w a) s = .refused .outsideWindow ∧
      hostMove (.store w a v) s = .refused .outsideWindow)

/-! ### Invariants -/

/-- The launch premises of R48 hold of the reset state, no template is held (R46), and the state meets the invariant and the
discipline. The values the spec leaves open are log entries 3 to 6, the default tables 12 and 13. -/
def Obligations.ResetMeetsInvariant : Prop :=
  Launch State.reset ∧ State.reset.xport.rdTpl = none ∧ State.reset.xport.wrTpl = none ∧
  Inv State.reset ∧ Discipline State.reset

/-- Every step keeps the invariant. The latches are as R37, R260 and R290 give them from general knowledge (log entry 23). -/
def Obligations.EveryStepKeepsInvariant : Prop := ∀ s t : State, Inv s → step s = .next t → Inv t

/-- Every step keeps the canonical form of both memories, from any state and with any table. The form is the model's (log entry
4). -/
def Obligations.EveryStepKeepsMemoryCanonical : Prop :=
  ∀ s t : State, s.chip.memoryWf = true → step s = .next t → t.chip.memoryWf = true

/-- R116: no step writes `OPTAB`, a power cycle included, so a well-formed table stays one (R115). -/
def Obligations.NoStepWritesTables : Prop :=
  ∀ s t : State, step s = .next t → t.optab = s.optab ∧ (OpTab.wf s.optab = true → OpTab.wf t.optab = true)

/-- From the invariant no step faults: no stuck case of the spec is met. A step may still be refused: the host asked for what
the spec does not admit. The latches are as R37, R260 and R290 give them from general knowledge (log entry 23). -/
def Obligations.InvariantExcludesFaults : Prop := ∀ (s : State) (f : Fault), Inv s → step s ≠ .fault f

/-- R159: every step keeps the write-enable discipline of the trace. -/
def Obligations.EveryStepKeepsWriteEnableDiscipline : Prop :=
  ∀ s t : State, Inv s → Discipline s → step s = .next t → Discipline t

/-- R185, R354: at every transaction the controller issues, tag and chip agree, and a chip that is busy is only polled. -/
def Obligations.ModeAgreementAtEveryCall : Prop :=
  ∀ (s : State) (i : Instr), Inv s → s.ctrl.phase ≠ .idle → decodeRequest s.x.op = .ok i → s.ctrl.phase ∈ calling i →
    s.chip.emode = some s.ctrl.emode ∧ s.xport.passthrough = false ∧ (s.chip.wip = true → s.ctrl.phase = .w1)

/-- R22, R23, R180: the two mode tags change only as the mode-switch state machine says, or with the power. -/
def Obligations.ModeTagsFollowStateMachine : Prop :=
  ∀ s t : State, step s = .next t → s.env.script.head? ≠ some .powerCycle →
    (t.ctrl.emode = s.ctrl.emode ∧ t.ctrl.mmode = s.ctrl.mmode) ∨
    (s.ctrl.phase = .s1 ∧ decodeRequest s.x.op = .ok .construct ∧ t.ctrl.emode = .Spi ∧ t.ctrl.mmode = .Direct) ∨
    (s.ctrl.phase = .o4 ∧ decodeRequest s.x.op = .ok .toOpi ∧ t.ctrl.emode = .Opi ∧ t.ctrl.mmode = s.ctrl.mmode) ∨
    (s.ctrl.phase = .x4 ∧ decodeRequest s.x.op = .ok .toSpi ∧ t.ctrl.emode = .Spi ∧ t.ctrl.mmode = s.ctrl.mmode) ∨
    (s.ctrl.phase = .e3 ∧ decodeRequest s.x.op = .ok .enableMemoryMapped ∧ t.ctrl.emode = s.ctrl.emode ∧
      t.ctrl.mmode = .MemoryMapped) ∨
    (s.ctrl.phase = .f2 ∧ decodeRequest s.x.op = .ok .disableMemoryMapped ∧ t.ctrl.emode = s.ctrl.emode ∧
      t.ctrl.mmode = .Direct)

/-- R25, R148: a step adds at most one event to the trace and removes none, power cycling apart. -/
def Obligations.TraceGrowsByAtMostOneEvent : Prop :=
  ∀ s t : State, step s = .next t → s.env.script.head? ≠ some .powerCycle →
    t.trace = s.trace ∨ ∃ e, t.trace = s.trace ++ [e]

/-- R36, R235: the array changes only at the step of a program or an erase command, or with the power; a host operation makes
one only at its micro-step M2. A register bit the spec does not describe is marked as changed (`env.undoc`, log entry 9) only at
the step of a register write: those of the two register operations and of the mode switches. -/
def Obligations.ArrayAndMarkChangeOnlyByTheirCommands : Prop :=
  ∀ s t : State, OpTab.wf s.optab = true → step s = .next t → s.env.script.head? ≠ some .powerCycle →
    (t.chip.array ≠ s.chip.array →
      (s.env.wire = none ∧ s.ctrl.phase = .m2 ∧
        ∃ i ∈ [Instr.writeMemory, .pageProgram, .eraseSector, .eraseBlock64k, .eraseChip], decodeRequest s.x.op = .ok i) ∨
      (∃ x i m l a p, s.env.wire = some x ∧ decodeTxn s.optab x = .ok i ∧ i.wireParts = some (m, l, a, p) ∧
        l ∈ [Lop.pageProgram, .sectorErase, .blockErase64k, .chipErase])) ∧
    (t.env.undoc ≠ s.env.undoc →
      t.env.undoc = true ∧
      ((s.env.wire = none ∧ ∃ i, decodeRequest s.x.op = .ok i ∧
          (s.ctrl.phase = .m2 ∧ i ∈ [.writeStatusAndConfigurationRegister, .writeConfigurationRegister2] ∨
            s.ctrl.phase = .o3 ∧ i = .toOpi ∨ s.ctrl.phase = .x3 ∧ i = .toSpi)) ∨
        (∃ x i m l a p, s.env.wire = some x ∧ decodeTxn s.optab x = .ok i ∧ i.wireParts = some (m, l, a, p) ∧
          l ∈ [Lop.writeSrCr, .writeCr2])))

/-! ### Wire commands: the chip's answers -/

/-- R260, R262: RESET_ENABLE sets the reset-enable latch, WRITE_ENABLE sets WEL (bit 1) and clears the other latch. The
latches are as R37, R260 and R290 give them from general knowledge (log entry 23). -/
def Obligations.LatchCommandsSetLatches : Prop :=
  ∀ s : State, s.chip.wip = false →
    (s.chip.emode = some .Spi →
      exec .resetEnableSpi s = .next { s with chip.rsten := true, env.wire := none } ∧
      exec .writeEnableSpi s =
        .next { s with chip := { s.chip with sr := s.chip.sr ||| 0x02, rsten := false }, env.wire := none }) ∧
    (s.chip.emode = some .Opi →
      exec .resetEnableOpi s = .next { s with chip.rsten := true, env.wire := none } ∧
      exec .writeEnableOpi s =
        .next { s with chip := { s.chip with sr := s.chip.sr ||| 0x02, rsten := false }, env.wire := none })

/-- R261: RESET_MEMORY is ignored without the latch; with it, WIP rises, WEL and CR2[0][1:0] clear, the array and every part
of the system outside the chip stay; the bits the rule draws are not claimed. The latches are as R37, R260 and R290 give
them from general knowledge (log entry 23). The mark `pending` is log entry 21. -/
def Obligations.ResetMemoryNeedsLatch : Prop :=
  ∀ (s : State) (i : Instr), s.chip.wip = false →
    (i = .resetMemorySpi ∧ s.chip.emode = some .Spi ∨ i = .resetMemoryOpi ∧ s.chip.emode = some .Opi) →
    (s.chip.rsten = false → exec i s = .next { s with env.wire := none }) ∧
    (s.chip.rsten = true → ∃ t, exec i s = .next t ∧ t.chip.rsten = false ∧ t.chip.wip = true ∧ t.chip.wel = false ∧
      t.chip.emode = some .Spi ∧ t.chip.array = s.chip.array ∧ t.chip.pending = .nothing ∧ t.ctrl = s.ctrl ∧
      t.seq = s.seq ∧ t.x = s.x ∧ t.xport = s.xport ∧ t.trace = s.trace)

/-- R264 to R267: the four register and identification reads answer their register and change nothing but the latch of
RESET_ENABLE; READ_SR is answered by a busy chip too. The latches are as R37, R260 and R290 give them from general knowledge
(log entry 23). -/
def Obligations.RegisterReadCommandsAnswer : Prop :=
  ∀ (s : State) (a : Addr),
    (s.chip.emode = some .Spi →
      exec .readSrSpi s = .next (answered s [s.chip.sr]) ∧
      (s.chip.wip = false →
        exec .readCrSpi s = .next (answered s [s.chip.cr]) ∧
        exec (.readCr2Spi a) s = .next (answered s [s.chip.cr2At a]) ∧
        exec .readIdSpi s = .next (answered s Config.chipId))) ∧
    (s.chip.emode = some .Opi →
      exec .readSrOpi s = .next (answered s [s.chip.sr]) ∧
      (s.chip.wip = false →
        exec .readCrOpi s = .next (answered s [s.chip.cr]) ∧
        exec (.readCr2Opi a) s = .next (answered s [s.chip.cr2At a]) ∧
        exec .readIdOpi s = .next (answered s Config.chipId)))

/-- R274, R63: READ_MEM answers the `n` bytes from `a` up, lowest address first, inside the array. The latches are as R37,
R260 and R290 give them from general knowledge (log entry 23). -/
def Obligations.ReadMemAnswersArray : Prop :=
  ∀ (s : State) (a : Addr) (n : Nat), s.chip.wip = false → 1 ≤ n → a.toNat + n ≤ 33554432 →
    ∃ rx : List Byte, rx.length = n ∧ (∀ j, j < n → rx[j]? = some (s.chip.byte (a.toNat + j))) ∧
      (s.chip.emode = some .Spi → exec (.readMemSpi a n) s = .next (answered s rx)) ∧
      (s.chip.emode = some .Opi → exec (.readMemOpi a n) s = .next (answered s rx))

/-- R268, R288: WRITE_SR_CR with WEL = 1 stores `sr[7:2]` and `cr`, leaves WEL, raises WIP. That storing has no further
effect is the premise of log entry 9, and `env.undoc` marks exactly a store that changes a bit. The latches are as R37, R260
and R290 give them from general knowledge (log entry 23). The mark
`pending` is log entry 21. -/
def Obligations.WriteSrCrStoresBoth : Prop :=
  ∀ (s : State) (sr cr : Byte), s.chip.wip = false → s.chip.wel = true →
    ∃ t u, t = { s with
        chip := { s.chip with
          sr := (s.chip.sr &&& 0x03) ||| (sr &&& 0xFC) ||| 0x01, cr := cr, rsten := false, pending := .nothing }
        env.wire := none
        env.undoc := u } ∧
      (u = true ↔ s.env.undoc = true ∨ sr &&& 0xFC ≠ s.chip.sr &&& 0xFC ∨ cr ≠ s.chip.cr) ∧
      (s.chip.emode = some .Spi → exec (.writeSrCrSpi sr cr) s = .next t) ∧
      (s.chip.emode = some .Opi → exec (.writeSrCrOpi sr cr) s = .next t)

/-- R270, R288: WRITE_CR2 with WEL = 1 stores `v` at CR2 address `a` alone and raises WIP; at address 0 the chip's mode
follows bits 1:0 of `v` at once (R40, log entry 24). A store that changes a bit the spec does not describe goes on by log entry
9 and is marked in `env.undoc`. The latches are as R37, R260 and R290 give them from general knowledge (log entry 23). The mark
`pending` is log entry 21. -/
def Obligations.WriteCr2StoresAndSwitches : Prop :=
  ∀ (s : State) (a : Addr) (v : Byte), s.chip.memoryWf = true → s.chip.wip = false → s.chip.wel = true →
    ∃ t, (s.chip.emode = some .Spi → exec (.writeCr2Spi a v) s = .next t) ∧
      (s.chip.emode = some .Opi → exec (.writeCr2Opi a v) s = .next t) ∧
      (∀ b, t.chip.cr2At b = if b = a then v else s.chip.cr2At b) ∧
      (a = 0 → t.chip.emode = if v.getLsbD 1 then none else some (if v.getLsbD 0 then .Opi else .Spi)) ∧
      (a ≠ 0 → t.chip.emode = s.chip.emode) ∧
      t.chip.sr = s.chip.sr ||| 0x01 ∧ t.chip.cr = s.chip.cr ∧ t.chip.array = s.chip.array ∧ t.chip.rsten = false ∧
      t.chip.pending = .nothing ∧
      (t.env.undoc = true ↔ s.env.undoc = true ∨
        (if a = 0 then v &&& 0xFC ≠ s.chip.cr20 &&& 0xFC else v ≠ s.chip.cr2At a)) ∧
      t.ctrl = s.ctrl ∧ t.seq = s.seq ∧ t.x = s.x ∧ t.xport = s.xport ∧ t.trace = s.trace

/-- R276: PAGE_PROGRAM with WEL = 1 ANDs data byte `j` into the byte `base + ((a mod 256 + j) mod 256)` of the page of `a`,
leaves every other byte, raises WIP. `pending` says which bytes a loss of power would now leave open (log entry 21). The latches
are as R37, R260 and R290 give them from general knowledge (log entry 23). -/
def Obligations.PageProgramAndsWithinPage : Prop :=
  ∀ (s : State) (a : Addr) (data : List Byte), s.chip.memoryWf = true → s.chip.wip = false → s.chip.wel = true →
    a.toNat < 33554432 → 1 ≤ data.length → data.length ≤ 256 →
    ∃ array : List Host.Cell, ∃ t,
      t = { s with
        chip := { s.chip with
          array := array, sr := s.chip.sr ||| 0x01, rsten := false, pending := .program a.toNat data.length }
        env.wire := none } ∧
      (s.chip.emode = some .Spi → exec (.pageProgramSpi a data) s = .next t) ∧
      (s.chip.emode = some .Opi → exec (.pageProgramOpi a data) s = .next t) ∧
      (∀ j b, data[j]? = some b →
        t.chip.byte (a.toNat - a.toNat % 256 + (a.toNat % 256 + j) % 256) =
          s.chip.byte (a.toNat - a.toNat % 256 + (a.toNat % 256 + j) % 256) &&& b) ∧
      (∀ x, (∀ j, j < data.length → x ≠ a.toNat - a.toNat % 256 + (a.toNat % 256 + j) % 256) →
        t.chip.byte x = s.chip.byte x)

/-- R278 to R280: each erase with WEL = 1 makes every byte of its unit 0xFF, leaves every other byte, raises WIP. `pending` says
which bytes a loss of power would now leave open (log entry 21). The latches
are as R37, R260 and R290 give them from general knowledge (log entry 23). -/
def Obligations.EraseCommandsEraseUnit : Prop :=
  ∀ (s : State) (a : Addr), s.chip.wip = false → s.chip.wel = true → a.toNat < 33554432 →
    ∀ (i : Instr) (lo hi : Nat),
      (s.chip.emode = some .Spi ∧
          (i = .sectorEraseSpi a ∧ lo = a.toNat - a.toNat % 4096 ∧ hi = lo + 4096 ∨
            i = .blockErase64kSpi a ∧ lo = a.toNat - a.toNat % 65536 ∧ hi = lo + 65536 ∨
            i = .chipEraseSpi ∧ lo = 0 ∧ hi = 33554432) ∨
        s.chip.emode = some .Opi ∧
          (i = .sectorEraseOpi a ∧ lo = a.toNat - a.toNat % 4096 ∧ hi = lo + 4096 ∨
            i = .blockErase64kOpi a ∧ lo = a.toNat - a.toNat % 65536 ∧ hi = lo + 65536 ∨
            i = .chipEraseOpi ∧ lo = 0 ∧ hi = 33554432)) →
      ∃ array : List Host.Cell, ∃ t,
        t = { s with
          chip := { s.chip with array := array, sr := s.chip.sr ||| 0x01, rsten := false, pending := .erase lo hi }
          env.wire := none } ∧
        exec i s = .next t ∧
        ∀ x, t.chip.byte x = if lo ≤ x ∧ x < hi then 0xFF else s.chip.byte x

/-- R268 to R280, R350: a mutating command while WEL = 0 changes nothing but the latch of RESET_ENABLE, and raises no WIP. The
latches are as R37, R260 and R290 give them from general knowledge (log entry 23). -/
def Obligations.MutatingCommandsIgnoredWithoutWel : Prop :=
  ∀ (s : State) (i : Instr) (m : EMode) (l : Lop) (a : Option Addr) (p : Payload),
    i.wireParts = some (m, l, a, p) → i.wf = true → l.mutating = true → s.chip.emode = some m → s.chip.wip = false →
    s.chip.wel = false → (∀ b, a = some b → l ≠ .writeCr2 → b.toNat < 33554432) →
    exec i s = .next { s with chip.rsten := false, env.wire := none }

/-- R257, R259, R274 to R279 and file 93, entries U4, U6, U7: where a wire command has no rule the model stops, each case
under its own name, the mode before the busy chip before the range (log entry 28). -/
def Obligations.WireCommandsWithoutRuleStop : Prop :=
  ∀ (s : State) (i : Instr) (m : EMode) (l : Lop) (a : Option Addr) (p : Payload),
    i.wireParts = some (m, l, a, p) → i.wf = true →
    (s.chip.emode = none → exec i s = .fault .wireUndescribedMode) ∧
    (∀ e, s.chip.emode = some e → e ≠ m → exec i s = .fault .wireModeMismatch) ∧
    (s.chip.emode = some m → s.chip.wip = true → l ≠ .readSr → exec i s = .fault .chipBusy) ∧
    (s.chip.emode = some m → s.chip.wip = false → ∀ b, a = some b →
      (l ∈ [.pageProgram, .sectorErase, .blockErase64k] ∧ 33554432 ≤ b.toNat ∨
        ∃ n, l = .readMem ∧ p = .read n ∧ 33554432 < b.toNat + n) →
      exec i s = .fault .chipOutsideArray)

/-! ### Micro-steps that call the transport -/

/-- R156: one round of the busy-wait of every operation that has one: one READ_SR, its byte in `CTRL.tmp`, and only its bit 0
decides. The latches are as R37, R260 and R290 give them from general knowledge (log entry 23). -/
def Obligations.BusyWaitRound : Prop :=
  ∀ (m : EMode) (s : State) (i : Instr) (next : Phase), afterWait i = some next → s.ctrl.phase = .w1 → Connected m s →
    exec i s = .next { called s (okEvent s .readSr none (some [s.chip.sr])) { s.chip with rsten := false } [s.chip.sr] with
      ctrl.tmp := s.chip.sr
      ctrl.phase := if s.chip.sr.getLsbD 0 then .w1 else next }

/-- R152, R158, R181, R184: the write-enable micro-step: one WRITE_ENABLE, WEL set. The latches are as R37, R260 and R290 give
them from general knowledge (log entry 23). -/
def Obligations.WriteEnableStep : Prop :=
  ∀ (m : EMode) (s : State) (i : Instr) (next : Phase), Ready m s →
    (i ∈ [.writeStatusAndConfigurationRegister, .writeConfigurationRegister2, .writeMemory, .pageProgram, .eraseSector,
        .eraseBlock64k, .eraseChip] ∧ s.ctrl.phase = .m1 ∧ next = .m2 ∨
      i = .toOpi ∧ s.ctrl.phase = .o2 ∧ next = .o3 ∨ i = .toSpi ∧ s.ctrl.phase = .x2 ∧ next = .x3) →
    exec i s = .next (go next (called s (okEvent s .writeEnable none none)
      { s.chip with sr := s.chip.sr ||| 0x02, rsten := false } s.env.rx))

/-- R195, R196: the command of the two register writes: the operands go out as they stand, WIP rises. Operands that change a
register bit the spec does not describe go on by log entry 9 (R195 and R360 leave them to file 93, U9) and are marked in
`env.undoc`. The latches are as R37, R260 and R290 give them from general knowledge (log entry 23). The mark
`pending` is log entry 21. -/
def Obligations.RegisterWriteStep : Prop :=
  ∀ (m : EMode) (s : State), Ready m s → s.chip.wel = true → s.ctrl.phase = .m2 →
    (∃ t u, exec .writeStatusAndConfigurationRegister s = .next t ∧
      t = go .w1 { called s (okEvent s .writeSrCr none (some [s.x.v0, s.x.v1]))
        { s.chip with
          sr := (s.chip.sr &&& 0x03) ||| (s.x.v0 &&& 0xFC) ||| 0x01, cr := s.x.v1, rsten := false, pending := .nothing }
        s.env.rx with env.undoc := u } ∧
      (u = true ↔ s.env.undoc = true ∨ s.x.v0 &&& 0xFC ≠ s.chip.sr &&& 0xFC ∨ s.x.v1 ≠ s.chip.cr)) ∧
    (∃ t u, exec .writeConfigurationRegister2 s = .next t ∧
      t = go .w1 { called s (okEvent s .writeCr2 (some s.x.a) (some [s.x.v0]))
        { s.chip.setCr2 s.x.a s.x.v0 with sr := s.chip.sr ||| 0x01, rsten := false } s.env.rx with env.undoc := u } ∧
      (u = true ↔ s.env.undoc = true ∨
        (if s.x.a = 0 then s.x.v0 &&& 0xFC ≠ s.chip.cr20 &&& 0xFC else s.x.v0 ≠ s.chip.cr2At s.x.a)))

/-- R97, R181, R184: the mode switches read CR2 at address 0, write it back with bit 0 set, or with bits 1:0 cleared, and
change the tag with no transport call between the write and the busy-wait. `env.undoc` is marked only when the value written
back has other bits 7:2 than the register (log entry 9). The latches are as R37, R260 and R290 give them from general
knowledge (log entry 23). The mark `pending` is log entry 21. -/
def Obligations.ModeSwitchSteps : Prop :=
  ∀ (m : EMode) (s : State),
    (Ready m s →
      (s.ctrl.phase = .o1 → exec .toOpi s = .next { called s (okEvent s .readCr2 (some 0) (some [s.chip.cr20]))
        { s.chip with rsten := false } [s.chip.cr20] with ctrl.tmp := s.chip.cr20, ctrl.phase := .o2 }) ∧
      (s.ctrl.phase = .x1 → exec .toSpi s = .next { called s (okEvent s .readCr2 (some 0) (some [s.chip.cr20]))
        { s.chip with rsten := false } [s.chip.cr20] with ctrl.tmp := s.chip.cr20, ctrl.phase := .x2 }) ∧
      (s.chip.wel = true → s.ctrl.phase = .o3 → ∃ u : Bool,
        (u = true ↔ s.env.undoc = true ∨ s.ctrl.tmp &&& 0xFC ≠ s.chip.cr20 &&& 0xFC) ∧ exec .toOpi s =
        .next (go .o4 { called s (okEvent s .writeCr2 (some 0) (some [s.ctrl.tmp ||| 0x01]))
          { s.chip with cr20 := s.ctrl.tmp ||| 0x01, sr := s.chip.sr ||| 0x01, rsten := false, pending := .nothing }
          s.env.rx with env.undoc := u })) ∧
      (s.chip.wel = true → s.ctrl.phase = .x3 → ∃ u : Bool,
        (u = true ↔ s.env.undoc = true ∨ s.ctrl.tmp &&& 0xFC ≠ s.chip.cr20 &&& 0xFC) ∧ exec .toSpi s =
        .next (go .x4 { called s (okEvent s .writeCr2 (some 0) (some [s.ctrl.tmp &&& 0xFC]))
          { s.chip with cr20 := s.ctrl.tmp &&& 0xFC, sr := s.chip.sr ||| 0x01, rsten := false, pending := .nothing }
          s.env.rx with env.undoc := u }))) ∧
    (s.ctrl.phase = .o4 → exec .toOpi s = .next { s with ctrl.emode := .Opi, ctrl.phase := .w1 }) ∧
    (s.ctrl.phase = .x4 → exec .toSpi s = .next { s with ctrl.emode := .Spi, ctrl.phase := .w1 })

/-- R215, R220: the program command of `page_program` and of a chunk of `write_memory`: the bytes `[a, a+n)`, and no others,
become the AND of what they held and the data. The latches are as R37, R260 and R290 give them from general knowledge (log
entry 23). The mark `pending` is log entry 21. -/
def Obligations.ProgramCommandStep : Prop :=
  ∀ (m : EMode) (s : State) (i : Instr) (a : Addr) (start n : Nat), Ready m s → s.chip.wel = true →
    s.chip.memoryWf = true → s.ctrl.phase = .m2 →
    (i = .pageProgram ∧ a = s.x.a ∧ start = 0 ∧ n = s.x.n.toNat ∨
      i = .writeMemory ∧ a = s.seq.cursor ∧ start = s.seq.produced.toNat ∧ n = s.seq.chunk.toNat) →
    1 ≤ n → n + a.toNat % 256 ≤ 256 → a.toNat < 33554432 → start + n ≤ s.x.buf.length →
    ∃ array : List Host.Cell, ∃ t,
      t = go .w1 (called s (okEvent s .pageProgram (some a) (some ((s.x.buf.drop start).take n)))
        { s.chip with array := array, sr := s.chip.sr ||| 0x01, rsten := false, pending := .program a.toNat n } s.env.rx) ∧
      exec i s = .next t ∧
      (∀ j b, j < n → s.x.buf[start + j]? = some b →
        t.chip.byte (a.toNat + j) = s.chip.byte (a.toNat + j) &&& b) ∧
      (∀ x, x < a.toNat ∨ a.toNat + n ≤ x → t.chip.byte x = s.chip.byte x)

/-- R230 to R232: the command of the three erases: the address goes out unchanged, the unit that holds it becomes 0xFF. The
latches are as R37, R260 and R290 give them from general knowledge (log entry 23). The mark
`pending` is log entry 21. -/
def Obligations.EraseCommandStep : Prop :=
  ∀ (m : EMode) (s : State) (i : Instr) (l : Lop) (a : Option Addr) (lo hi : Nat), Ready m s → s.chip.wel = true →
    s.ctrl.phase = .m2 →
    (i = .eraseSector ∧ l = .sectorErase ∧ a = some s.x.a ∧ s.x.a.toNat < 33554432 ∧
        lo = s.x.a.toNat - s.x.a.toNat % 4096 ∧ hi = lo + 4096 ∨
      i = .eraseBlock64k ∧ l = .blockErase64k ∧ a = some s.x.a ∧ s.x.a.toNat < 33554432 ∧
        lo = s.x.a.toNat - s.x.a.toNat % 65536 ∧ hi = lo + 65536 ∨
      i = .eraseChip ∧ l = .chipErase ∧ a = none ∧ lo = 0 ∧ hi = 33554432) →
    ∃ array : List Host.Cell, ∃ t,
      t = go .w1 (called s (okEvent s l a none)
        { s.chip with array := array, sr := s.chip.sr ||| 0x01, rsten := false, pending := .erase lo hi } s.env.rx) ∧
      exec i s = .next t ∧
      ∀ x, t.chip.byte x = if lo ≤ x ∧ x < hi then 0xFF else s.chip.byte x

/-- R170: the five micro-steps of `construct` but the busy-wait. The latches are as R37, R260 and R290 give them from general
knowledge (log entry 23). -/
def Obligations.ConstructSteps : Prop :=
  ∀ s : State,
    (s.ctrl.phase = .s1 → exec .construct s = .next { s with
      ctrl := { s.ctrl with cfg := Config.busCfg, emode := .Spi, mmode := .Direct, phase := .s2 }
      xport.cfg := Config.busCfg }) ∧
    (s.ctrl.phase = .s2 → Ready .Spi s → exec .construct s =
      .next (go .s3 (called s (okEvent s .resetEnable none none) { s.chip with rsten := true } s.env.rx))) ∧
    (s.ctrl.phase = .s3 → Ready .Spi s → s.chip.rsten = true → ∃ c d, exec .construct s =
        .next (go .w1 { called s (okEvent s .resetMemory none none) c s.env.rx with env.draws := d }) ∧
      c.array = s.chip.array ∧ c.wip = true ∧ c.wel = false ∧ c.emode = some .Spi ∧ c.rsten = false) ∧
    (s.ctrl.phase = .s5 → exec .construct s =
      .next { s with ctrl.cstate := .ready, x.st := 0x00, ctrl.phase := .idle })

/-- R190, R266: `read_id` makes one READ_ID transaction; its three bytes go to R0, R1, R2 in the order received. R192 to R194:
the three register reads make one transaction, put the register's byte into R0 and complete. The latches are as R37, R260 and
R290 give them from general knowledge (log entry 23). -/
def Obligations.IdentityAndRegisterReadSteps : Prop :=
  (∀ (m : EMode) (s : State) (b0 b1 b2 : Byte),
    (s.ctrl.phase = .i1 → Ready m s → exec .readId s = .next (go .i2
      (called s (okEvent s .readId none (some Config.chipId)) { s.chip with rsten := false } Config.chipId))) ∧
    (s.ctrl.phase = .i2 → s.env.rx = [b0, b1, b2] → exec .readId s =
      .next { s with x.r0 := b0, x.r1 := b1, x.r2 := b2, x.st := 0x00, ctrl.phase := .idle })) ∧
  (∀ (m : EMode) (s : State) (i : Instr) (l : Lop) (a : Option Addr) (b : Byte), Ready m s →
    (i = .readStatusRegister ∧ s.ctrl.phase = .rs1 ∧ l = .readSr ∧ a = none ∧ b = s.chip.sr ∨
      i = .readConfigurationRegister ∧ s.ctrl.phase = .rc1 ∧ l = .readCr ∧ a = none ∧ b = s.chip.cr ∨
      i = .readConfigurationRegister2 ∧ s.ctrl.phase = .rq1 ∧ l = .readCr2 ∧ a = some s.x.a ∧ b = s.chip.cr2At s.x.a) →
    exec i s = .next { called s (okEvent s l a (some [b])) { s.chip with rsten := false } [b] with
      x := { s.x with r0 := b, st := 0x00 }
      ctrl.phase := .idle })

/-- R210, R212, R63: `read_memory` makes one transaction whatever the length, and `BUF` is the bytes received. The latches are
as R37, R260 and R290 give them from general knowledge (log entry 23). -/
def Obligations.ReadMemorySteps : Prop :=
  ∀ (m : EMode) (s : State),
    (s.ctrl.phase = .b1 → Ready m s → 1 ≤ s.x.n.toNat → s.x.a.toNat + s.x.n.toNat ≤ 33554432 →
      ∃ rx : List Byte, rx.length = s.x.n.toNat ∧
        (∀ j, j < s.x.n.toNat → rx[j]? = some (s.chip.byte (s.x.a.toNat + j))) ∧
        exec .readMemory s = .next (go .b2
          (called s (okEvent s .readMem (some s.x.a) (some rx)) { s.chip with rsten := false } rx))) ∧
    (s.ctrl.phase = .b2 → exec .readMemory s =
      .next { s with x := { s.x with buf := s.env.rx, st := 0x00 }, ctrl.phase := .idle })

/-- R147, R148, R150, R306, R311: whichever call of whichever operation fails, the operation aborts with `TransportError`;
nothing has changed where the transaction was lost, and the chip has taken it where it was delivered. TRACE has the call, with
its descriptor, its outcome `Err` and its position (R148), and the data of a write, none of a read (log entry 26). The outcomes
are drawn as log entry 5 says. -/
def Obligations.FailedCallAborts : Prop :=
  ∀ (s : State) (i : Instr) (rest : Feed CallDraw), s.ctrl.phase ∈ calling i → s.xport.passthrough = false →
    ∃ l a p, callAt i s = some (l, a, p) ∧
    exec i { s with env.calls := { rest with pre := .errLost :: rest.pre } } =
      .next (abort .transportError { s with env.calls := rest, trace := s.trace ++ [errEvent s l a p] }) ∧
    (∀ t, exec i { s with env.calls := { rest with pre := .ok :: rest.pre } } = .next t →
      ∃ u, exec i { s with env.calls := { rest with pre := .errDelivered :: rest.pre } } =
          .next (abort .transportError u) ∧
        u.chip = t.chip ∧ u.ctrl = s.ctrl ∧ u.seq = s.seq ∧ u.x = s.x ∧ u.xport = s.xport ∧
        u.trace = s.trace ++ [errEvent s l a p])

/-! ### Micro-steps that make no call -/

/-- R215, R216, R221: G1 passes exactly when the data stays in its page, and otherwise aborts with `PageOverflow` before any
transaction. -/
def Obligations.PageCheckStep : Prop :=
  ∀ (s : State) (i : Instr) (a : Addr) (n : Nat), s.ctrl.phase = .g1 →
    (i = .pageProgram ∧ a = s.x.a ∧ n = s.x.n.toNat ∨ i = .writeMemory ∧ a = s.seq.cursor ∧ n = s.seq.chunk.toNat) →
    (n + a.toNat % 256 ≤ 256 → exec i s = .next { s with ctrl.phase := .m1 }) ∧
    (256 < n + a.toNat % 256 → exec i s = .next (abort .pageOverflow s) ∧ (abort .pageOverflow s).trace = s.trace ∧
      (abort .pageOverflow s).chip = s.chip ∧ (abort .pageOverflow s).ctrl.cstate = .faulted ∧
      (abort .pageOverflow s).x.st = 0x01)

/-- R220, R225: the micro-steps of the page-split sequencer that make no call. -/
def Obligations.PageSplitSteps : Prop :=
  ∀ s : State,
    (s.ctrl.phase = .p1 → exec .writeMemory s = .next { s with
      seq := { s.seq with remaining := s.x.n, cursor := s.x.a, produced := 0 }, ctrl.phase := .p2 }) ∧
    (s.ctrl.phase = .p2 → exec .writeMemory s = .next { s with
      ctrl.phase := if s.seq.remaining = 0 then .p7 else .p3 }) ∧
    (s.ctrl.phase = .p3 → ∃ t, exec .writeMemory s = .next { s with
        seq.maxChunk := t, ctrl.phase := .p4 } ∧ t.toNat = 256 - s.seq.cursor.toNat % 256) ∧
    (s.ctrl.phase = .p4 → s.seq.maxChunk.toNat ≤ 256 → ∃ t, exec .writeMemory s = .next { s with
        seq.chunk := t, ctrl.phase := .p5 } ∧ t.toNat = min s.seq.maxChunk.toNat s.seq.remaining.toNat) ∧
    (s.ctrl.phase = .p5 → exec .writeMemory s = .next { s with ctrl.phase := .g1 }) ∧
    (s.ctrl.phase = .p6 → s.seq.chunk.toNat ≤ s.seq.remaining.toNat →
      s.seq.cursor.toNat + s.seq.chunk.toNat < 2 ^ 32 → s.seq.produced.toNat + s.seq.chunk.toNat < 2 ^ 32 →
      ∃ c r p, exec .writeMemory s = .next { s with
          seq := { s.seq with cursor := c, remaining := r, produced := p }, ctrl.phase := .p2 } ∧
        c.toNat = s.seq.cursor.toNat + s.seq.chunk.toNat ∧ r.toNat = s.seq.remaining.toNat - s.seq.chunk.toNat ∧
        p.toNat = s.seq.produced.toNat + s.seq.chunk.toNat)

/-- R221, R305: inside `write_memory` every chunk has 1 to 256 bytes and stays in its page, so its page check passes. -/
def Obligations.ChunksStayInPage : Prop :=
  ∀ s : State, Inv s → s.x.op = 0x0A → s.ctrl.phase = .g1 →
    1 ≤ s.seq.chunk.toNat ∧ s.seq.chunk.toNat + s.seq.cursor.toNat % 256 ≤ 256 ∧
    exec .writeMemory s = .next { s with ctrl.phase := .m1 }

/-- R130, R181, R184, R195, R196, R215, R220, R230 to R232: the last micro-step of an operation without results: the status is
`Ok`, the controller idle, nothing else changes. The label `fin` is the model's (log entry 16). -/
def Obligations.ClosingStepReportsOk : Prop :=
  ∀ (s : State) (i : Instr) (p : Phase), closing i = some p → s.ctrl.phase = p →
    exec i s = .next { s with x.st := 0x00, ctrl.phase := .idle }

/-- R144, R145, R240, R244: `enable_memory_mapped` hands over the two templates of the current mode, then changes the tag;
`disable_memory_mapped` returns the transport to command mode, the templates keep their values, then the tag changes. Neither
makes a bus transaction or changes the chip or the electrical mode. -/
def Obligations.MemoryMappedToggleSteps : Prop :=
  ∀ s : State,
    (s.ctrl.phase = .e1 → exec .enableMemoryMapped s = .next { s with ctrl.phase := .e2 }) ∧
    (s.ctrl.phase = .e2 → ∃ rt wt, exec .enableMemoryMapped s = .next { s with
        xport := { s.xport with rdTpl := some rt, wrTpl := some wt, passthrough := true }
        trace := s.trace ++ [.enablePassthrough rt wt s.env.reqs]
        ctrl.phase := .e3 } ∧
      rt = { build s.optab s.ctrl.emode .readMem none with asize := some .bits32, address := none } ∧
      wt = { build s.optab s.ctrl.emode .pageProgram none with asize := some .bits32, address := none } ∧
      (OpTab.wf s.optab = true → rt.dummy = (if s.ctrl.emode = .Spi then 8 else 20))) ∧
    (s.ctrl.phase = .e3 → exec .enableMemoryMapped s = .next { s with
      ctrl := { s.ctrl with mmode := .MemoryMapped, phase := .idle }, x.st := 0x00 }) ∧
    (s.ctrl.phase = .f1 → exec .disableMemoryMapped s = .next { s with
      xport.passthrough := false
      trace := s.trace ++ [.disablePassthrough s.env.reqs]
      ctrl.phase := .f2 }) ∧
    (s.ctrl.phase = .f2 → exec .disableMemoryMapped s = .next { s with
      ctrl := { s.ctrl with mmode := .Direct, phase := .idle }, x.st := 0x00 })

/-! ### The window -/

/-- R64, R75, R248, R249: a load or fetch of the open window returns the array's bytes, the lowest address least significant,
and changes nothing of the chip but the latch of RESET_ENABLE. That it cannot fail is the premise of log entry 19; that a fetch
may have any size of 1 byte or more, aligned to it, is log entry 20. The latches
are as R37, R260 and R290 give them from general knowledge (log entry 23). -/
def Obligations.WindowLoadReadsArray : Prop :=
  ∀ (m : EMode) (s : State) (w : Nat) (a : Addr) (h : HostAct) (rest : List HostAct),
    s.ctrl.phase = .idle → s.env.req = false → s.env.wire = none → s.env.script = h :: rest →
    OpTab.wf s.optab = true → s.xport.passthrough = true → s.xport.rdTpl = some (readTemplate s.optab m) →
    s.chip.emode = some m → s.chip.wip = false →
    Config.mmBase ≤ a.toNat → a.toNat + w ≤ Config.mmBase + 33554432 → a.toNat % w = 0 →
    (h = .load w a ∧ w ∈ [1, 2, 4] ∨ h = .fetch w a ∧ 1 ≤ w) →
    ∃ bytes : List Byte, bytes.length = w ∧
      (∀ j, j < w → bytes[j]? = some (s.chip.byte (a.toNat - Config.mmBase + j))) ∧
      step s = .next { s with
        chip.rsten := false
        env := { s.env with script := rest, rx := bytes
                            loaded := ∑ k ∈ Finset.range w,
                              (s.chip.byte (a.toNat - Config.mmBase + k)).toNat * 256 ^ k }
        trace := s.trace ++ [.windowRead a.toNat bytes] }

/-! ### Whole operations -/

/-- R170, R46, R47: from the launch premises, every call `Ok` and the chip completing before the first poll, `construct` takes
its dispatch, its five labels and one completion, makes three calls and leaves the machine constructed. The latches are as
R37, R260 and R290 give them from general knowledge (log entry 23). -/
def Obligations.ConstructRun : Prop :=
  ∀ s : State, Launch s → OpTab.wf s.optab = true → AllCallsOk s → Prompt s → s.env.wire = none → s.env.req = true →
    s.x.op = 0x00 →
    ∃ t sr, run 7 s = .next t ∧ t.ctrl.cstate = .ready ∧ t.ctrl.emode = .Spi ∧ t.ctrl.mmode = .Direct ∧
      t.ctrl.phase = .idle ∧ t.ctrl.cause = 0x00 ∧ t.x.st = 0x00 ∧ t.ctrl.cfg = Config.busCfg ∧
      t.xport.cfg = Config.busCfg ∧ t.xport.passthrough = false ∧ t.chip.wip = false ∧ t.chip.wel = false ∧
      t.chip.emode = some .Spi ∧ t.chip.rsten = false ∧ t.chip.array = s.chip.array ∧ t.ctrl.tmp = sr ∧
      sr.getLsbD 0 = false ∧
      t.trace = [.call .execute (build s.optab .Spi .resetEnable none) none true (s.env.reqs + 1),
        .call .execute (build s.optab .Spi .resetMemory none) none true (s.env.reqs + 1),
        .call .read (build s.optab .Spi .readSr none) (some [sr]) true (s.env.reqs + 1)]

/-- R188: Spi to Opi and back. From a constructed idle controller whose chip has WEL = 0, with every call `Ok` and a prompt
chip, `to_opi` and then `to_spi` leave the chip as it was, and every register of controller, sequencer, host interface and
transport but `CTRL.tmp`, and `x[OP]` and `x[ST]`, which every request writes (and the mark `pending`, log entry 21). The
latches are as R37, R260 and R290 give them from general knowledge (log entry 23). -/
def Obligations.ModeRoundTripRestoresState : Prop :=
  ∀ s : State, Requested .Spi 0x01 s → Prompt s → s.env.script = [.request 0x02] → s.chip.wel = false →
    s.chip.rsten = false →
    (∃ t, run 8 s = .next t ∧ t.ctrl.emode = .Opi ∧ t.ctrl.phase = .idle ∧ t.x.st = 0x00 ∧
      t.chip = { s.chip with cr20 := s.chip.cr20 ||| 0x01, pending := .nothing }) ∧
    (∃ t, run 17 s = .next t ∧ t.chip = { s.chip with pending := .nothing } ∧
      t.ctrl = { s.ctrl with tmp := t.ctrl.tmp } ∧ t.seq = s.seq ∧ t.xport = s.xport ∧ t.x = { s.x with op := 0x02, st := 0x00 } ∧ t.env.undoc = s.env.undoc)

/-- R69, R230 to R232, R234: with a chip that completes before the first poll, an erase request runs to completion: the
address goes out as the host gave it, the unit that holds it is 0xFF and no other byte changes, whatever the unit held
before, so erasing twice is erasing once. The schedule stands in the state (log entry 6), the six steps are log entry 16,
the latches log entry 23. -/
def Obligations.EraseRun : Prop :=
  ∀ (m : EMode) (s : State) (op : Byte) (l : Lop) (a : Option Addr) (lo hi : Nat), Requested m op s → Prompt s →
    (op = 0x0C ∧ l = .sectorErase ∧ a = some s.x.a ∧ s.x.a.toNat < 33554432 ∧
        lo = s.x.a.toNat - s.x.a.toNat % 4096 ∧ hi = lo + 4096 ∨
      op = 0x0D ∧ l = .blockErase64k ∧ a = some s.x.a ∧ s.x.a.toNat < 33554432 ∧
        lo = s.x.a.toNat - s.x.a.toNat % 65536 ∧ hi = lo + 65536 ∨
      op = 0x0E ∧ l = .chipErase ∧ a = none ∧ lo = 0 ∧ hi = 33554432) →
    ∃ t, run 6 s = .next t ∧ t.ctrl.phase = .idle ∧ t.x.st = 0x00 ∧ t.ctrl.cstate = .ready ∧
      (∃ e1 e3, t.trace = s.trace ++ [e1, .call .execute (build s.optab m l a) none true (s.env.reqs + 1), e3]) ∧
      ∀ x, t.chip.byte x = if lo ≤ x ∧ x < hi then 0xFF else s.chip.byte x

/-- R210, R212: a `read_memory` request is served by one transaction and fills `BUF` from the array. Log entry 5. -/
def Obligations.ReadMemoryRun : Prop :=
  ∀ (m : EMode) (s : State), Requested m 0x09 s → 1 ≤ s.x.n.toNat → s.x.a.toNat + s.x.n.toNat ≤ 33554432 →
    ∃ t, run 3 s = .next t ∧ t.ctrl.phase = .idle ∧ t.x.st = 0x00 ∧ t.x.buf.length = s.x.n.toNat ∧
      (∀ j, j < s.x.n.toNat → t.x.buf[j]? = some (s.chip.byte (s.x.a.toNat + j))) ∧
      (∃ e, t.trace = s.trace ++ [e]) ∧ t.chip.array = s.chip.array

/-- R224: whatever the schedule of the completion agent, if it is fair, `write_memory` returns; each byte of the range is the
AND of what it held and the buffer's byte, and no other byte changes. Log entries 5 and 6. The latches and the AND: log entry
23. -/
def Obligations.WriteMemoryFinalEffect : Prop :=
  ∀ (m : EMode) (s : State), Requested m 0x0A s → Fair s → s.chip.memoryWf = true → s.x.buf.length = s.x.n.toNat →
    s.x.a.toNat + s.x.n.toNat ≤ 33554432 →
    ∃ k t, run k s = .next t ∧ t.ctrl.phase = .idle ∧ t.x.st = 0x00 ∧ t.ctrl.cstate = .ready ∧
      (∀ j b, s.x.buf[j]? = some b → t.chip.byte (s.x.a.toNat + j) = s.chip.byte (s.x.a.toNat + j) &&& b) ∧
      (∀ x, x < s.x.a.toNat ∨ s.x.a.toNat + s.x.n.toNat ≤ x → t.chip.byte x = s.chip.byte x)

/-- R222, R223: with a prompt chip, `write_memory` issues one program command for each page its range touches, and no other: the
chunks are contiguous, cover the range exactly, and every page boundary inside the range separates two of them. Log entries 5
and 6. The latches: log entry 23. -/
def Obligations.WriteMemorySplitsAtPages : Prop :=
  ∀ (m : EMode) (s : State), Requested m 0x0A s → Prompt s → s.chip.memoryWf = true → s.x.buf.length = s.x.n.toNat →
    1 ≤ s.x.n.toNat → s.x.a.toNat + s.x.n.toNat ≤ 33554432 →
    ∃ (t : State) (cs : List (Nat × Nat)) (es : List Event),
      cs.length = (s.x.a.toNat % 256 + s.x.n.toNat + 255) / 256 ∧
      run (4 + 10 * cs.length) s = .next t ∧ t.ctrl.phase = .idle ∧ t.x.st = 0x00 ∧ t.trace = s.trace ++ es ∧
      es.filterMap Event.sent = cs.map (fun c => (c.1, (s.x.buf.drop (c.1 - s.x.a.toNat)).take c.2)) ∧
      (∀ j c, cs[j]? = some c → 1 ≤ c.2 ∧ c.1 % 256 + c.2 ≤ 256 ∧
        (j = 0 → c.1 = s.x.a.toNat) ∧ (j ≠ 0 → c.1 % 256 = 0) ∧
        (∀ d, cs[j + 1]? = some d → d.1 = c.1 + c.2) ∧
        (cs[j + 1]? = none → c.1 + c.2 = s.x.a.toNat + s.x.n.toNat))

/-- R157, R308: if `CHIP.done` is never scheduled the busy-wait never ends: after any number of steps the controller is still
at W1, not faulted, and has reported nothing. The schedule stands in the state (log entry 6). -/
def Obligations.StalledChipHangs : Prop :=
  ∀ (m : EMode) (s : State) (i : Instr) (next : Phase), decodeRequest s.x.op = .ok i → afterWait i = some next →
    s.ctrl.phase = .w1 → Connected m s → AllCallsOk s → s.chip.wip = true → s.env.done = ⟨[], false⟩ →
    ∀ k, ∃ t, run k s = .next t ∧ t.ctrl.phase = .w1 ∧ t.ctrl.cstate = s.ctrl.cstate ∧ t.ctrl.cause = s.ctrl.cause ∧
      t.x = s.x ∧ t.chip.wip = true

/-- R156, R291: if the completion agent is scheduled fairly the busy-wait ends, with WIP and WEL clear. The latches are as
R37, R260 and R290 give them from general knowledge (log entry 23). -/
def Obligations.FairChipEndsBusyWait : Prop :=
  ∀ (m : EMode) (s : State) (i : Instr) (next : Phase), decodeRequest s.x.op = .ok i → afterWait i = some next →
    s.ctrl.phase = .w1 → Connected m s → AllCallsOk s → Fair s → s.chip.wip = true →
    ∃ k t, run k s = .next t ∧ t.ctrl.phase = next ∧ t.chip.wip = false ∧ t.chip.wel = false ∧
      t.chip.array = s.chip.array ∧ t.ctrl.cstate = s.ctrl.cstate ∧ t.x = s.x

/-- R250: once memory-mapped mode is enabled, a byte load at `MM_BASE + off` returns byte `off` of the array, in whichever
electrical mode the controller is: here the load right after the request. That a window access does not fail is the premise of
log entry 19; the five steps are log entry 16. -/
def Obligations.MappedWindowShowsArray : Prop :=
  ∀ (m : EMode) (s : State) (off : Nat), Requested m 0x0F s → off < 33554432 →
    s.env.script = [.load 1 (BitVec.ofNat 32 (Config.mmBase + off))] →
    ∃ t, run 5 s = .next t ∧ t.ctrl.mmode = .MemoryMapped ∧ t.ctrl.emode = m ∧ t.x.st = 0x00 ∧
      t.env.loaded = (s.chip.byte off).toNat ∧ t.chip.array = s.chip.array
end

