-- ==== Sys2Proof/Laws/State.lean ====
section
/-! SUPPORT. One lemma for each part of the state and each named update, each true by definition, so that no later
proof unfolds an update. -/

namespace Sys2Proof.Machine

section go
variable (p : Phase) (s : State)
@[simp] theorem go_optab : (go p s).optab = s.optab := rfl
@[simp] theorem go_phase : (go p s).ctrl.phase = p := rfl
@[simp] theorem go_cstate : (go p s).ctrl.cstate = s.ctrl.cstate := rfl
@[simp] theorem go_emode : (go p s).ctrl.emode = s.ctrl.emode := rfl
@[simp] theorem go_mmode : (go p s).ctrl.mmode = s.ctrl.mmode := rfl
@[simp] theorem go_cause : (go p s).ctrl.cause = s.ctrl.cause := rfl
@[simp] theorem go_tmp : (go p s).ctrl.tmp = s.ctrl.tmp := rfl
@[simp] theorem go_cfg : (go p s).ctrl.cfg = s.ctrl.cfg := rfl
@[simp] theorem go_seq : (go p s).seq = s.seq := rfl
@[simp] theorem go_x : (go p s).x = s.x := rfl
@[simp] theorem go_xport : (go p s).xport = s.xport := rfl
@[simp] theorem go_chip : (go p s).chip = s.chip := rfl
@[simp] theorem go_trace : (go p s).trace = s.trace := rfl
@[simp] theorem go_env : (go p s).env = s.env := rfl
end go

section finish
variable (s : State)
@[simp] theorem finish_optab : (finish s).optab = s.optab := rfl
@[simp] theorem finish_phase : (finish s).ctrl.phase = .idle := rfl
@[simp] theorem finish_cstate : (finish s).ctrl.cstate = s.ctrl.cstate := rfl
@[simp] theorem finish_emode : (finish s).ctrl.emode = s.ctrl.emode := rfl
@[simp] theorem finish_mmode : (finish s).ctrl.mmode = s.ctrl.mmode := rfl
@[simp] theorem finish_cause : (finish s).ctrl.cause = s.ctrl.cause := rfl
@[simp] theorem finish_tmp : (finish s).ctrl.tmp = s.ctrl.tmp := rfl
@[simp] theorem finish_cfg : (finish s).ctrl.cfg = s.ctrl.cfg := rfl
@[simp] theorem finish_seq : (finish s).seq = s.seq := rfl
@[simp] theorem finish_op : (finish s).x.op = s.x.op := rfl
@[simp] theorem finish_a : (finish s).x.a = s.x.a := rfl
@[simp] theorem finish_n : (finish s).x.n = s.x.n := rfl
@[simp] theorem finish_v0 : (finish s).x.v0 = s.x.v0 := rfl
@[simp] theorem finish_v1 : (finish s).x.v1 = s.x.v1 := rfl
@[simp] theorem finish_st : (finish s).x.st = 0x00#8 := rfl
@[simp] theorem finish_r0 : (finish s).x.r0 = s.x.r0 := rfl
@[simp] theorem finish_r1 : (finish s).x.r1 = s.x.r1 := rfl
@[simp] theorem finish_r2 : (finish s).x.r2 = s.x.r2 := rfl
@[simp] theorem finish_buf : (finish s).x.buf = s.x.buf := rfl
@[simp] theorem finish_xport : (finish s).xport = s.xport := rfl
@[simp] theorem finish_chip : (finish s).chip = s.chip := rfl
@[simp] theorem finish_trace : (finish s).trace = s.trace := rfl
@[simp] theorem finish_env : (finish s).env = s.env := rfl
end finish

section accepted
variable (s : State)
@[simp] theorem accepted_optab : (accepted s).optab = s.optab := rfl
@[simp] theorem accepted_ctrl : (accepted s).ctrl = s.ctrl := rfl
@[simp] theorem accepted_seq : (accepted s).seq = s.seq := rfl
@[simp] theorem accepted_x : (accepted s).x = s.x := rfl
@[simp] theorem accepted_xport : (accepted s).xport = s.xport := rfl
@[simp] theorem accepted_chip : (accepted s).chip = s.chip := rfl
@[simp] theorem accepted_trace : (accepted s).trace = s.trace := rfl
@[simp] theorem accepted_req : (accepted s).env.req = false := rfl
@[simp] theorem accepted_reqs : (accepted s).env.reqs = s.env.reqs + 1 := rfl
@[simp] theorem accepted_script : (accepted s).env.script = s.env.script := rfl
@[simp] theorem accepted_wire : (accepted s).env.wire = s.env.wire := rfl
@[simp] theorem accepted_done : (accepted s).env.done = s.env.done := rfl
@[simp] theorem accepted_calls : (accepted s).env.calls = s.env.calls := rfl
@[simp] theorem accepted_draws : (accepted s).env.draws = s.env.draws := rfl
@[simp] theorem accepted_undoc : (accepted s).env.undoc = s.env.undoc := rfl
end accepted

section abort
variable (c : Cause) (s : State)
@[simp] theorem abort_optab : (abort c s).optab = s.optab := rfl
@[simp] theorem abort_cstate : (abort c s).ctrl.cstate = .faulted := rfl
@[simp] theorem abort_cause : (abort c s).ctrl.cause = c.code := rfl
@[simp] theorem abort_phase : (abort c s).ctrl.phase = .idle := rfl
@[simp] theorem abort_emode : (abort c s).ctrl.emode = s.ctrl.emode := rfl
@[simp] theorem abort_mmode : (abort c s).ctrl.mmode = s.ctrl.mmode := rfl
@[simp] theorem abort_tmp : (abort c s).ctrl.tmp = s.ctrl.tmp := rfl
@[simp] theorem abort_cfg : (abort c s).ctrl.cfg = s.ctrl.cfg := rfl
@[simp] theorem abort_seq : (abort c s).seq = s.seq := rfl
@[simp] theorem abort_op : (abort c s).x.op = s.x.op := rfl
@[simp] theorem abort_a : (abort c s).x.a = s.x.a := rfl
@[simp] theorem abort_n : (abort c s).x.n = s.x.n := rfl
@[simp] theorem abort_v0 : (abort c s).x.v0 = s.x.v0 := rfl
@[simp] theorem abort_v1 : (abort c s).x.v1 = s.x.v1 := rfl
@[simp] theorem abort_st : (abort c s).x.st = c.code := rfl
@[simp] theorem abort_xport : (abort c s).xport = s.xport := rfl
@[simp] theorem abort_chip : (abort c s).chip = s.chip := rfl
@[simp] theorem abort_trace : (abort c s).trace = s.trace := rfl
@[simp] theorem abort_script : (abort c s).env.script = s.env.script := rfl
@[simp] theorem abort_req : (abort c s).env.req = s.env.req := rfl
@[simp] theorem abort_reqs : (abort c s).env.reqs = s.env.reqs := rfl
@[simp] theorem abort_wire : (abort c s).env.wire = s.env.wire := rfl
@[simp] theorem abort_done : (abort c s).env.done = s.env.done := rfl
@[simp] theorem abort_calls : (abort c s).env.calls = s.env.calls := rfl
@[simp] theorem abort_undoc : (abort c s).env.undoc = s.env.undoc := rfl
/-- An abort leaves the length of the buffer. -/
@[simp] theorem abort_buf_length : (abort c s).x.buf.length = s.x.buf.length := by
  simp only [abort, unspecifyResults]
  split <;> simp [freeBytes]
/-- The buffer is touched only while `read_memory` is the request (R311). -/
theorem abort_buf (h : s.x.op ≠ 0x09#8) : (abort c s).x.buf = s.x.buf := by
  simp [abort, unspecifyResults, h]
end abort

section powerOn
variable (s : State)
@[simp] theorem powerOn_optab : (powerOn s).optab = s.optab := rfl
@[simp] theorem powerOn_ctrl : (powerOn s).ctrl = State.reset.ctrl := rfl
@[simp] theorem powerOn_seq : (powerOn s).seq = State.reset.seq := rfl
@[simp] theorem powerOn_x : (powerOn s).x = State.reset.x := rfl
@[simp] theorem powerOn_xport : (powerOn s).xport = State.reset.xport := rfl
@[simp] theorem powerOn_array : (powerOn s).chip.array = s.chip.array := rfl
@[simp] theorem powerOn_sr : (powerOn s).chip.sr = 0 := rfl
@[simp] theorem powerOn_cr20 : (powerOn s).chip.cr20 = 0 := rfl
@[simp] theorem powerOn_rsten : (powerOn s).chip.rsten = false := rfl
@[simp] theorem powerOn_trace : (powerOn s).trace = [] := rfl
@[simp] theorem powerOn_wire : (powerOn s).env.wire = none := rfl
end powerOn

section powerLoss
variable (s : State)
@[simp] theorem powerLoss_optab : (powerLoss s).optab = s.optab := by unfold powerLoss; split <;> rfl
@[simp] theorem powerLoss_script : (powerLoss s).env.script = s.env.script := by unfold powerLoss; split <;> rfl
@[simp] theorem powerLoss_done : (powerLoss s).env.done = s.env.done := by unfold powerLoss; split <;> rfl
@[simp] theorem powerLoss_calls : (powerLoss s).env.calls = s.env.calls := by unfold powerLoss; split <;> rfl
/-- An idle chip loses nothing with its power (R36). -/
theorem powerLoss_of_idle (h : s.chip.wip = false) : powerLoss s = s := by simp [powerLoss, h]
/-- A busy one loses what the command in progress was changing (R289). -/
theorem powerLoss_of_busy (h : s.chip.wip = true) :
    powerLoss s = { s with chip := s.chip.torn s.env.draws, env.draws := s.env.draws + 1 } := by simp [powerLoss, h]
end powerLoss

section logCall
variable (d : Descriptor) (p : Payload) (ok : Bool) (s : State)
@[simp] theorem logCall_optab : (logCall d p ok s).optab = s.optab := rfl
@[simp] theorem logCall_ctrl : (logCall d p ok s).ctrl = s.ctrl := rfl
@[simp] theorem logCall_seq : (logCall d p ok s).seq = s.seq := rfl
@[simp] theorem logCall_x : (logCall d p ok s).x = s.x := rfl
@[simp] theorem logCall_xport : (logCall d p ok s).xport = s.xport := rfl
@[simp] theorem logCall_chip : (logCall d p ok s).chip = s.chip := rfl
@[simp] theorem logCall_env : (logCall d p ok s).env = s.env := rfl
@[simp] theorem logCall_trace : (logCall d p ok s).trace =
    s.trace ++ [.call (callKind d.dir) d (eventData p ok s.env.rx) ok s.env.reqs] := rfl
end logCall

section chipDone
variable (s : State)
@[simp] theorem chipDone_optab : (chipDone s).optab = s.optab := rfl
@[simp] theorem chipDone_ctrl : (chipDone s).ctrl = s.ctrl := rfl
@[simp] theorem chipDone_seq : (chipDone s).seq = s.seq := rfl
@[simp] theorem chipDone_x : (chipDone s).x = s.x := rfl
@[simp] theorem chipDone_xport : (chipDone s).xport = s.xport := rfl
@[simp] theorem chipDone_chip : (chipDone s).chip = s.chip.complete := rfl
@[simp] theorem chipDone_trace : (chipDone s).trace = s.trace := rfl
@[simp] theorem chipDone_env : (chipDone s).env = s.env := rfl
end chipDone

section asked
variable (s : State)
@[simp] theorem asked_optab : (asked s).optab = s.optab := by unfold asked; split <;> rfl
@[simp] theorem asked_ctrl : (asked s).ctrl = s.ctrl := by unfold asked; split <;> rfl
@[simp] theorem asked_seq : (asked s).seq = s.seq := by unfold asked; split <;> rfl
@[simp] theorem asked_x : (asked s).x = s.x := by unfold asked; split <;> rfl
@[simp] theorem asked_xport : (asked s).xport = s.xport := by unfold asked; split <;> rfl
@[simp] theorem asked_chip : (asked s).chip = s.chip := by unfold asked; split <;> rfl
@[simp] theorem asked_trace : (asked s).trace = s.trace := by unfold asked; split <;> rfl
@[simp] theorem asked_script : (asked s).env.script = s.env.script := by unfold asked; split <;> rfl
@[simp] theorem asked_req : (asked s).env.req = s.env.req := by unfold asked; split <;> rfl
@[simp] theorem asked_reqs : (asked s).env.reqs = s.env.reqs := by unfold asked; split <;> rfl
@[simp] theorem asked_wire : (asked s).env.wire = s.env.wire := by unfold asked; split <;> rfl
@[simp] theorem asked_calls : (asked s).env.calls = s.env.calls := by unfold asked; split <;> rfl
@[simp] theorem asked_rx : (asked s).env.rx = s.env.rx := by unfold asked; split <;> rfl
@[simp] theorem asked_draws : (asked s).env.draws = s.env.draws := by unfold asked; split <;> rfl
@[simp] theorem asked_undoc : (asked s).env.undoc = s.env.undoc := by unfold asked; split <;> rfl
/-- An idle chip's schedule is not asked. -/
theorem asked_of_idle (h : s.chip.wip = false) : asked s = s := by simp [asked, h]
end asked

section called
variable (s : State) (e : Event) (c : Chip) (rx : List Byte)
@[simp] theorem called_optab : (called s e c rx).optab = s.optab := rfl
@[simp] theorem called_ctrl : (called s e c rx).ctrl = s.ctrl := rfl
@[simp] theorem called_seq : (called s e c rx).seq = s.seq := rfl
@[simp] theorem called_x : (called s e c rx).x = s.x := rfl
@[simp] theorem called_xport : (called s e c rx).xport = s.xport := rfl
@[simp] theorem called_chip : (called s e c rx).chip = c := rfl
@[simp] theorem called_trace : (called s e c rx).trace = s.trace ++ [e] := rfl
@[simp] theorem called_rx : (called s e c rx).env.rx = rx := rfl
@[simp] theorem called_calls : (called s e c rx).env.calls = s.env.calls.tail := rfl
@[simp] theorem called_wire : (called s e c rx).env.wire = s.env.wire := rfl
@[simp] theorem called_req : (called s e c rx).env.req = s.env.req := rfl
@[simp] theorem called_reqs : (called s e c rx).env.reqs = s.env.reqs := rfl
@[simp] theorem called_done : (called s e c rx).env.done = s.env.done := rfl
@[simp] theorem called_script : (called s e c rx).env.script = s.env.script := rfl
@[simp] theorem called_draws : (called s e c rx).env.draws = s.env.draws := rfl
@[simp] theorem called_undoc : (called s e c rx).env.undoc = s.env.undoc := rfl
end called

section passthrough
variable (rt wt : Descriptor) (s : State)
@[simp] theorem enablePassthrough_optab : (enablePassthrough rt wt s).optab = s.optab := rfl
@[simp] theorem disablePassthrough_optab : (disablePassthrough s).optab = s.optab := rfl
@[simp] theorem enablePassthrough_ctrl : (enablePassthrough rt wt s).ctrl = s.ctrl := rfl
@[simp] theorem disablePassthrough_ctrl : (disablePassthrough s).ctrl = s.ctrl := rfl
@[simp] theorem enablePassthrough_seq : (enablePassthrough rt wt s).seq = s.seq := rfl
@[simp] theorem disablePassthrough_seq : (disablePassthrough s).seq = s.seq := rfl
@[simp] theorem enablePassthrough_x : (enablePassthrough rt wt s).x = s.x := rfl
@[simp] theorem disablePassthrough_x : (disablePassthrough s).x = s.x := rfl
@[simp] theorem enablePassthrough_chip : (enablePassthrough rt wt s).chip = s.chip := rfl
@[simp] theorem disablePassthrough_chip : (disablePassthrough s).chip = s.chip := rfl
@[simp] theorem enablePassthrough_env : (enablePassthrough rt wt s).env = s.env := rfl
@[simp] theorem disablePassthrough_env : (disablePassthrough s).env = s.env := rfl
@[simp] theorem enablePassthrough_rdTpl : (enablePassthrough rt wt s).xport.rdTpl = some rt := rfl
@[simp] theorem enablePassthrough_wrTpl : (enablePassthrough rt wt s).xport.wrTpl = some wt := rfl
@[simp] theorem enablePassthrough_passthrough : (enablePassthrough rt wt s).xport.passthrough = true := rfl
@[simp] theorem enablePassthrough_trace :
    (enablePassthrough rt wt s).trace = s.trace ++ [.enablePassthrough rt wt s.env.reqs] := rfl
@[simp] theorem disablePassthrough_passthrough : (disablePassthrough s).xport.passthrough = false := rfl
@[simp] theorem disablePassthrough_trace :
    (disablePassthrough s).trace = s.trace ++ [.disablePassthrough s.env.reqs] := rfl
end passthrough

end Sys2Proof.Machine
end

