-- ==== Sys2Proof/Laws/Ops.lean ====
section
/-! SUPPORT. For each shared operation, what it answers when it answers a next state, once and whole; later proofs cite
these and unfold none of the operations. -/

namespace Sys2Proof.Machine

/-! ### Decoding what the controller builds from a well-formed table -/

theorem find_unique {α : Type} {p : α → Bool} {a : α} (h : p a = true) (hu : ∀ b, p b = true → b = a) :
    ∀ {l : List α}, a ∈ l → l.find? p = some a
  | [], hm => nomatch hm
  | b :: l, hm => by
    rw [List.find?_cons]
    cases hb : p b with
    | true => rw [hu b hb]
    | false =>
      rcases List.mem_cons.mp hm with rfl | hm
      · rw [h] at hb; cases hb
      · exact find_unique h hu hm

theorem Lop.mem_all (l : Lop) : l ∈ Lop.all := by cases l <;> decide

/-- A well-formed table's opcode is looked up as the operation it stands for (R115, R256). -/
theorem lookup_entry {t : Config.OpTab} (ht : OpTab.wf t = true) (m : EMode) (l : Lop) :
    lookup t m (t.entry m l).opcode = some l := by
  simp only [OpTab.wf, Bool.and_eq_true, OpTab.distinct, List.all_eq_true, Bool.or_eq_true, beq_iff_eq, bne_iff_ne] at ht
  refine find_unique (by simp) (fun k hk => ?_) (Lop.mem_all l)
  rcases ht.1.1.1 m (by cases m <;> decide) k (Lop.mem_all k) l (Lop.mem_all l) with h | h
  · exact h
  · exact absurd (by simpa using hk) h

/-- In a well-formed table the operations that supply an address have a place for it (R115). -/
theorem asize_operand {t : Config.OpTab} (ht : OpTab.wf t = true) (m : EMode) {l : Lop} (hl : l.operandAddress = true) :
    (t.entry m l).asize = some .bits32 := by
  simp only [OpTab.wf, Bool.and_eq_true, OpTab.addressed, List.all_eq_true, beq_iff_eq] at ht
  refine ht.1.2 m (by cases m <;> decide) l ?_
  cases l <;> first | decide | cases hl

/-- The dummy cycles of a window read (R12, R115). -/
theorem dummy_readMem {t : Config.OpTab} (ht : OpTab.wf t = true) (m : EMode) :
    (t.entry m .readMem).dummy = if m = .Spi then 8 else 20 := by
  simp only [OpTab.wf, Bool.and_eq_true, OpTab.dummies, beq_iff_eq] at ht
  cases m
  · exact ht.2.1.1
  · exact ht.2.1.2

/-- The format of a built descriptor is its mode's (R91, R256). -/
@[simp] theorem format_build (t : Config.OpTab) (m : EMode) (l : Lop) (a : Option Addr) :
    (build t m l a).format = some m := by
  cases m <;> rfl

@[simp] theorem opcode_build (t : Config.OpTab) (m : EMode) (l : Lop) (a : Option Addr) :
    (build t m l a).opcode = some (t.entry m l).opcode := rfl

@[simp] theorem dir_build (t : Config.OpTab) (m : EMode) (l : Lop) (a : Option Addr) :
    (build t m l a).dir = l.dir := rfl

/-- A built descriptor carries its logical operation (R256). -/
theorem lop_build {t : Config.OpTab} (ht : OpTab.wf t = true) (m : EMode) (l : Lop) (a : Option Addr) :
    Descriptor.lop t (build t m l a) = some l := by
  simp [Descriptor.lop, lookup_entry ht]

/-- A built descriptor is rebuilt from its own address. -/
theorem build_address (t : Config.OpTab) (m : EMode) (l : Lop) (a : Option Addr) :
    build t m l (build t m l a).address = build t m l a := by
  unfold build
  cases (t.entry m l).asize.isSome <;> cases l.operandAddress <;> simp

/-- The address of a built descriptor, for an operation that supplies one. -/
theorem build_address_operand {t : Config.OpTab} (ht : OpTab.wf t = true) {m : EMode} {l : Lop} {a : Option Addr}
    (h : l.operandAddress = true) : (build t m l a).address = a := by
  simp [build, asize_operand ht m h, h]

/-- What the chip decodes from a transaction of a well-formed table, when the address and the data have its row's shape
(R256, R258). -/
theorem decodeTxn_build {t : Config.OpTab} (ht : OpTab.wf t = true) (m : EMode) (l : Lop) (a : Option Addr) (p : Payload)
    (i : Instr) (hi : wireInstr m l (build t m l a).address p = some i) (hw : i.wf = true) :
    decodeTxn t ⟨build t m l a, p⟩ = .ok i := by
  unfold decodeTxn
  simp only [format_build, opcode_build, lookup_entry ht, hi, build_address, hw, and_self, if_true]

/-- The shape of the data of a logical operation's row (R101 to R114). -/
def Payload.fits : Lop → Payload → Prop
  | .readSr, p | .readCr, p | .readCr2, p => p = .read 1
  | .readId, p => p = .read 3
  | .readMem, p => ∃ n, p = .read n ∧ 1 ≤ n ∧ n < 2 ^ 32
  | .writeSrCr, p => ∃ sr cr, p = .write [sr, cr]
  | .writeCr2, p => ∃ v, p = .write [v]
  | .pageProgram, p => ∃ data, p = .write data ∧ 1 ≤ data.length ∧ data.length ≤ Config.pageSize
  | _, p => p = .none

/-- With the address its row takes and data of its row's shape, a built descriptor is some well-formed wire command. -/
theorem wireInstr_build {t : Config.OpTab} (ht : OpTab.wf t = true) (m : EMode) {l : Lop} {a : Option Addr} {p : Payload}
    (ha : l.operandAddress = true → a ≠ none) (hp : Payload.fits l p) :
    ∃ i, wireInstr m l (build t m l a).address p = some i ∧ i.wf = true := by
  have hb : l.operandAddress = true → ∃ b, (build t m l a).address = some b := by
    intro h
    rw [build_address_operand ht h]
    exact Option.ne_none_iff_exists'.mp (ha h)
  cases l
  case readMem =>
    obtain ⟨b, hb⟩ := hb rfl
    obtain ⟨n, rfl, h⟩ := hp
    rw [hb]
    cases m <;> exact ⟨_, rfl, decide_eq_true h⟩
  case pageProgram =>
    obtain ⟨b, hb⟩ := hb rfl
    obtain ⟨data, rfl, h⟩ := hp
    rw [hb]
    cases m <;> exact ⟨_, rfl, decide_eq_true h⟩
  case writeCr2 => obtain ⟨b, hb⟩ := hb rfl; obtain ⟨v, rfl⟩ := hp; rw [hb]; cases m <;> exact ⟨_, rfl, rfl⟩
  case writeSrCr => obtain ⟨sr, cr, rfl⟩ := hp; cases m <;> exact ⟨_, rfl, rfl⟩
  case readCr2 => obtain ⟨b, hb⟩ := hb rfl; cases hp; rw [hb]; cases m <;> exact ⟨_, rfl, rfl⟩
  case sectorErase => obtain ⟨b, hb⟩ := hb rfl; cases hp; rw [hb]; cases m <;> exact ⟨_, rfl, rfl⟩
  case blockErase64k => obtain ⟨b, hb⟩ := hb rfl; cases hp; rw [hb]; cases m <;> exact ⟨_, rfl, rfl⟩
  all_goals cases hp; cases m <;> exact ⟨_, rfl, rfl⟩

/-! ### The chip -/

theorem chipAccept_next {m : EMode} {b : Bool} {s t : State} {k : State → Out} :
    chipAccept m b s k = .next t ↔
      s.chip.emode = some m ∧ (s.chip.wip = true → b = true) ∧ k { s with env.wire := none } = .next t := by
  unfold chipAccept
  cases he : s.chip.emode with
  | none => simp
  | some e =>
    by_cases h : e = m
    · cases hw : s.chip.wip <;> cases b <;> simp [h]
    · simp [h]

theorem chipAnswer_next {m : EMode} {b : Bool} {f : Chip → List Byte} {s t : State} :
    chipAnswer m b f s = .next t ↔
      s.chip.emode = some m ∧ (s.chip.wip = true → b = true) ∧
        t = { s with chip.rsten := false, env.wire := none, env.rx := f s.chip } := by
  unfold chipAnswer
  rw [chipAccept_next, Host.Outcome.next.injEq, eq_comm (b := t)]

theorem chipMutate_next {m : EMode} {u : Chip → Bool} {f : Chip → Chip} {s t : State} :
    chipMutate m u f s = .next t ↔
      s.chip.emode = some m ∧ s.chip.wip = false ∧
        t = (if s.chip.wel then
            { s with
              chip := s.chip.mutated f
              env.wire := none
              env.undoc := s.env.undoc || u s.chip }
          else { s with chip.rsten := false, env.wire := none }) := by
  unfold chipMutate
  rw [chipAccept_next]
  cases hw : s.chip.wip <;> cases hl : s.chip.wel <;> simp [Chip.mutated, Chip.asked, eq_comm (a := t)]

theorem chipInArray_next {m : EMode} {ok : Bool} {s t : State} {k : State → Out} :
    chipInArray m ok s k = .next t ↔
      s.chip.emode = some m ∧ s.chip.wip = false ∧ ok = true ∧ k s = .next t := by
  unfold chipInArray
  rw [chipAccept_next]
  cases hw : s.chip.wip <;> cases ok <;> simp

/-! ### The dispatcher -/

/-- A dispatch answers a next state in three ways (R302). -/
theorem dispatch_next {op : Byte} {p : Phase} {bar : Option Refusal} {s t : State} :
    dispatch op p bar s = .next t ↔
      (verdict op s.ctrl = .report ∧ t = { accepted s with x.st := s.ctrl.cause }) ∨
      (∃ c, verdict op s.ctrl = .abort c ∧ t = abort c (accepted s)) ∨
      (verdict op s.ctrl = .run ∧ bar = none ∧ t = go p (accepted s)) := by
  unfold dispatch
  cases verdict op s.ctrl <;> cases bar <;> simp [eq_comm (a := t)]

/-! ### The transport -/

/-- A transport call (R146 to R149): the choice it met is used up, and one event is recorded. -/
theorem transact_next {x : Txn} {s : State} {c : Called} :
    transact x s = .next c ↔
      s.xport.passthrough = false ∧
      ((s.env.calls.head = .errLost ∧
          c = ⟨false, logCall x.desc x.payload false { s with env.calls := s.env.calls.tail }⟩) ∨
       (∃ ok t, deliver x { s with env.calls := s.env.calls.tail } = .next t ∧
          s.env.calls.head = (if ok then .ok else .errDelivered) ∧
          c = ⟨ok, logCall x.desc x.payload ok t⟩)) := by
  unfold transact
  cases hp : s.xport.passthrough
  · cases hc : s.env.calls.head
    · cases hd : deliver x { s with env.calls := s.env.calls.tail } <;> simp [hd, eq_comm (a := c)]
    · cases hd : deliver x { s with env.calls := s.env.calls.tail } <;> simp [hd, eq_comm (a := c)]
    · simp [eq_comm (a := c)]
  · simp

/-- The transaction primitive (R150): `Ok` goes on, `Err` aborts. -/
theorem transaction_next {l : Lop} {a : Option Addr} {p : Payload} {s u : State} {k : State → Out} :
    transaction l a p s k = .next u ↔
      ∃ c, transact ⟨build s.optab s.ctrl.emode l a, p⟩ s = .next c ∧
        (if c.ok then k c.s = .next u else u = abort .transportError c.s) := by
  unfold transaction
  cases h : transact ⟨build s.optab s.ctrl.emode l a, p⟩ s with
  | next c => cases hc : c.ok <;> simp [hc, eq_comm (a := u)]
  | fault f => simp
  | refused r => simp

/-- An `Ok` call to a chip that serves it (R147, R150). -/
theorem transaction_ok {m : EMode} {l : Lop} {a : Option Addr} {p : Payload} {s t : State} {k : State → Out}
    {i : Instr} (h : Connected m s) (hd : decodeTxn s.optab ⟨build s.optab m l a, p⟩ = .ok i)
    (hs : chipStep i { s with env.calls := s.env.calls.tail } = .next t) :
    transaction l a p s k = k (logCall (build s.optab m l a) p true t) := by
  simp [transaction, transact, h.tag, h.direct, h.ok, deliver, hd, hs]

/-- One round of the busy-wait (R156). -/
theorem pollWip_next {p : Phase} {s u : State} :
    pollWip p s = .next u ↔
      ∃ c, transact ⟨build s.optab s.ctrl.emode .readSr none, .read 1⟩ s = .next c ∧
        u = (if c.ok then
            { c.s with
              ctrl.tmp := rxByte c.s 0
              ctrl.phase := if srWip (rxByte c.s 0) then .w1 else p }
          else abort .transportError c.s) := by
  unfold pollWip readStatus
  rw [transaction_next]
  constructor
  · rintro ⟨c, hc, h⟩; refine ⟨c, hc, ?_⟩; cases hk : c.ok <;> simp_all
  · rintro ⟨c, hc, h⟩; refine ⟨c, hc, ?_⟩; cases hk : c.ok <;> simp_all

/-- A command without an answer, then the next micro-step (R150). -/
theorem command_next {l : Lop} {a : Option Addr} {p : Payload} {q : Phase} {s u : State} :
    command l a p q s = .next u ↔
      ∃ c, transact ⟨build s.optab s.ctrl.emode l a, p⟩ s = .next c ∧
        u = (if c.ok then go q c.s else abort .transportError c.s) := by
  unfold command
  rw [transaction_next]
  constructor
  · rintro ⟨c, hc, h⟩; refine ⟨c, hc, ?_⟩; cases hk : c.ok <;> simp_all
  · rintro ⟨c, hc, h⟩; refine ⟨c, hc, ?_⟩; cases hk : c.ok <;> simp_all

/-- A micro-step of `mutate` (R158). -/
theorem mutate_next {l : Lop} {a : Option Addr} {p : Payload} {q : Phase} {s u : State} :
    mutate l a p q s = .next u ↔
      (s.ctrl.phase = .m1 ∧ writeEnable .m2 s = .next u) ∨
      (s.ctrl.phase = .m2 ∧ command l a p .w1 s = .next u) ∨
      (s.ctrl.phase = .w1 ∧ pollWip q s = .next u) := by
  unfold mutate noSuchStep
  cases s.ctrl.phase <;> simp

/-! ### The window -/

/-- A window access that the transport serves (R248): the chip's answer, the value, one event. -/
theorem windowAccess_next {w : Nat} {a : Addr} {s u : State} :
    windowAccess w a s = .next u ↔
      ∃ d t, s.xport.rdTpl = some d ∧
        deliver ⟨{ d with address := some (BitVec.ofNat 32 (a.toNat - Config.mmBase)) }, .read w⟩ s = .next t ∧
        u = { t with
          env.loaded := littleEndian t.env.rx
          trace := t.trace ++ [.windowRead a.toNat t.env.rx] } := by
  unfold windowAccess
  cases s.xport.rdTpl with
  | none => simp
  | some d =>
    cases h : deliver ⟨{ d with address := some (BitVec.ofNat 32 (a.toNat - Config.mmBase)) }, .read w⟩ s <;>
      simp [h, eq_comm (a := u)]

end Sys2Proof.Machine
end

