-- ==== Sys2Proof/Laws/Chip.lean ====
section
/-! SUPPORT. The chip's step, once and whole: what a wire command that is answered does to the state. -/

namespace Sys2Proof.Machine

/-- The effect of `WRITE_SR_CR` (R268). -/
def srCrEffect : Payload → Chip → Chip
  | .write [sr, cr], c => c.storeSrCr sr cr
  | _, c => c

/-- The effect of `WRITE_CR2` (R270). -/
def cr2Effect : Option Addr → Payload → Chip → Chip
  | some a, .write [v], c => c.setCr2 a v
  | _, _, c => c

/-- The effect of `PAGE_PROGRAM` (R276). -/
def programEffect : Option Addr → Payload → Chip → Chip
  | some a, .write data, c => c.program a.toNat data
  | _, _, c => c

/-- The effect of an addressed erase (R278, R279). -/
def eraseEffect (unit : Nat) : Option Addr → Chip → Chip
  | some a, c => c.erase (eraseBase unit a.toNat) (eraseBase unit a.toNat + unit)
  | none, c => c

/-- The effect of a mutating command that is accepted (R268 to R280). -/
def effectOf (l : Lop) (a : Option Addr) (p : Payload) : Chip → Chip :=
  match l with
  | .writeSrCr => srCrEffect p
  | .writeCr2 => cr2Effect a p
  | .pageProgram => programEffect a p
  | .sectorErase => eraseEffect Config.sectorSize a
  | .blockErase64k => eraseEffect Config.blockSize a
  | .chipErase => fun c => c.erase 0 Config.capacity
  | _ => id

/-- The chip after a command it takes; `k` is the number of the next draw (R260 to R280). -/
def response (l : Lop) (a : Option Addr) (p : Payload) (k : Nat) (c : Chip) : Chip :=
  match l with
  | .resetEnable => { c with rsten := true }
  | .resetMemory => if c.rsten then resetRegisters k c else c
  | .writeEnable => { c.setWel with rsten := false }
  | .writeSrCr | .writeCr2 | .pageProgram | .sectorErase | .blockErase64k | .chipErase =>
    if c.wel then c.mutated (effectOf l a p) else c.asked
  | .readSr | .readCr | .readCr2 | .readId | .readMem => c.asked

/-- The bytes the chip answers; what was received before, for a command without an answer (R264 to R267, R274). -/
def answerOf (l : Lop) (a : Option Addr) (p : Payload) (c : Chip) (rx : List Byte) : List Byte :=
  match l, a, p with
  | .readSr, _, _ => [c.sr]
  | .readCr, _, _ => [c.cr]
  | .readCr2, some a, _ => [c.cr2At a]
  | .readId, _, _ => Config.chipId
  | .readMem, some a, .read n => c.bytes a.toNat n
  | _, _, _ => rx

/-- Whether the command changes a register bit the spec does not describe (file 93, U9; log entry 9). -/
def marks (l : Lop) (a : Option Addr) (p : Payload) (c : Chip) : Bool :=
  match l, a, p with
  | .writeSrCr, _, .write [sr, cr] =>
    c.wel && (decide (mergeBits undescribed c.sr sr ≠ c.sr) || decide (cr ≠ c.cr))
  | .writeCr2, some a, .write [v] => c.wel && cr2WriteUndoc a v c
  | _, _, _ => false

/-- Only the two register writes mark anything. -/
theorem marks_eq_false {l : Lop} {a : Option Addr} {p : Payload} {c : Chip} (h : l ∉ [.writeSrCr, .writeCr2]) :
    marks l a p c = false := by
  cases l <;> first | rfl | simp at h

/-- A reading command marks nothing. -/
theorem marks_read {l : Lop} {a : Option Addr} {p : Payload} {c : Chip} (h : l.dir = .read) : marks l a p c = false := by
  cases l <;> first | rfl | cases h

/-- Where a command needs its address inside the array (R274 to R279). -/
def reaches : Lop → Option Addr → Payload → Prop
  | .readMem, some a, .read n => 1 ≤ n ∧ a.toNat + n ≤ Config.capacity
  | .pageProgram, some a, .write data =>
    1 ≤ data.length ∧ data.length ≤ Config.pageSize ∧ a.toNat < Config.capacity
  | .sectorErase, some a, _ | .blockErase64k, some a, _ => a.toNat < Config.capacity
  | _, _, _ => True

/-- What a wire command that is answered does: it is in the chip's format, the chip is idle or only asked for its status, the
address is inside the array, and the state differs in the chip and in the model's bookkeeping. -/
def Took (m : EMode) (l : Lop) (a : Option Addr) (p : Payload) (s t : State) : Prop :=
  s.chip.emode = some m ∧ (s.chip.wip = true → l = .readSr) ∧ reaches l a p ∧
    ∃ d u, t = { s with
      chip := response l a p s.env.draws s.chip
      env := { s.env with wire := none, rx := answerOf l a p s.chip s.env.rx, draws := d, undoc := u } } ∧
      u = (s.env.undoc || marks l a p s.chip) ∧ (l ≠ .resetMemory → d = s.env.draws)

section took
variable {m : EMode} {s t : State}

theorem took_resetEnable (h : chipResetEnable m s = .next t) : Took m .resetEnable none .none s t := by
  simp only [chipResetEnable, chipAccept_next, Host.Outcome.next.injEq] at h
  obtain ⟨h1, h2, rfl⟩ := h
  exact ⟨h1, by simpa using h2, trivial, s.env.draws, s.env.undoc, rfl, by simp [marks], by simp⟩

theorem took_resetMemory (h : chipResetMemory m s = .next t) : Took m .resetMemory none .none s t := by
  simp only [chipResetMemory, chipAccept_next] at h
  obtain ⟨h1, h2, h⟩ := h
  cases hr : s.chip.rsten
  · simp only [hr, Bool.false_eq_true, if_false, Host.Outcome.next.injEq] at h
    subst h
    exact ⟨h1, by simpa using h2, trivial, s.env.draws, s.env.undoc, by simp [response, hr, answerOf], by simp [marks], by simp⟩
  · simp only [hr, if_true, Host.Outcome.next.injEq] at h
    subst h
    exact ⟨h1, by simpa using h2, trivial, s.env.draws + 1, s.env.undoc, by simp [response, hr, answerOf], by simp [marks],
      by simp⟩

theorem took_writeEnable (h : chipWriteEnable m s = .next t) : Took m .writeEnable none .none s t := by
  simp only [chipWriteEnable, chipAccept_next, Host.Outcome.next.injEq] at h
  obtain ⟨h1, h2, rfl⟩ := h
  exact ⟨h1, by simpa using h2, trivial, s.env.draws, s.env.undoc, rfl, by simp [marks], by simp⟩

theorem took_readSr (h : chipReadSr m s = .next t) : Took m .readSr none (.read 1) s t := by
  simp only [chipReadSr, chipAnswer_next] at h
  obtain ⟨h1, h2, rfl⟩ := h
  exact ⟨h1, by simp, trivial, s.env.draws, s.env.undoc, rfl, by simp [marks], by simp⟩

theorem took_readCr (h : chipReadCr m s = .next t) : Took m .readCr none (.read 1) s t := by
  simp only [chipReadCr, chipAnswer_next] at h
  obtain ⟨h1, h2, rfl⟩ := h
  exact ⟨h1, by simpa using h2, trivial, s.env.draws, s.env.undoc, rfl, by simp [marks], by simp⟩

theorem took_readId (h : chipReadId m s = .next t) : Took m .readId none (.read 3) s t := by
  simp only [chipReadId, chipAnswer_next] at h
  obtain ⟨h1, h2, rfl⟩ := h
  exact ⟨h1, by simpa using h2, trivial, s.env.draws, s.env.undoc, rfl, by simp [marks], by simp⟩

theorem took_readCr2 {a : Addr} (h : chipReadCr2 m a s = .next t) : Took m .readCr2 (some a) (.read 1) s t := by
  simp only [chipReadCr2, chipAnswer_next] at h
  obtain ⟨h1, h2, rfl⟩ := h
  exact ⟨h1, by simpa using h2, trivial, s.env.draws, s.env.undoc, rfl, by simp [marks], by simp⟩

theorem took_writeSrCr {sr cr : Byte} (h : chipWriteSrCr m sr cr s = .next t) :
    Took m .writeSrCr none (.write [sr, cr]) s t := by
  simp only [chipWriteSrCr, chipMutate_next] at h
  obtain ⟨h1, h2, rfl⟩ := h
  cases hw : s.chip.wel
  · refine ⟨h1, by simp [h2], trivial, s.env.draws, s.env.undoc, ?_, by simp [marks, hw], by simp⟩
    simp only [Bool.false_eq_true, if_false, response, hw]; rfl
  · refine ⟨h1, by simp [h2], trivial, s.env.draws,
      s.env.undoc || (decide (mergeBits undescribed s.chip.sr sr ≠ s.chip.sr) || decide (cr ≠ s.chip.cr)),
      ?_, by simp [marks, hw], by simp⟩
    simp only [if_true, response, hw]; rfl

theorem took_writeCr2 {a : Addr} {v : Byte} (h : chipWriteCr2 m a v s = .next t) :
    Took m .writeCr2 (some a) (.write [v]) s t := by
  simp only [chipWriteCr2, chipMutate_next] at h
  obtain ⟨h1, h2, rfl⟩ := h
  cases hw : s.chip.wel
  · refine ⟨h1, by simp [h2], trivial, s.env.draws, s.env.undoc, ?_, by simp [marks, hw], by simp⟩
    simp only [Bool.false_eq_true, if_false, response, hw]; rfl
  · refine ⟨h1, by simp [h2], trivial, s.env.draws, s.env.undoc || (cr2WriteUndoc a v s.chip), ?_, by simp [marks, hw], by simp⟩
    simp only [if_true, response, hw]; rfl

theorem took_readMem {a : Addr} {n : Nat} (h : chipReadMem m a n s = .next t) :
    Took m .readMem (some a) (.read n) s t := by
  simp only [chipReadMem] at h
  split at h
  · rename_i hn
    simp only [chipInArray_next, chipAnswer_next, decide_eq_true_eq] at h
    obtain ⟨h1, h2, h3, _, _, rfl⟩ := h
    exact ⟨h1, by simp [h2], ⟨hn, h3⟩, s.env.draws, s.env.undoc, rfl, by simp [marks], by simp⟩
  · simp at h

theorem took_pageProgram {a : Addr} {data : List Byte} (h : chipPageProgram m a data s = .next t) :
    Took m .pageProgram (some a) (.write data) s t := by
  simp only [chipPageProgram] at h
  split at h
  · rename_i hn
    simp only [chipInArray_next, chipMutate_next, decide_eq_true_eq] at h
    obtain ⟨h1, h2, h3, _, _, rfl⟩ := h
    refine ⟨h1, by simp [h2], ⟨hn.1, hn.2, h3⟩, s.env.draws, s.env.undoc, ?_, by simp [marks], by simp⟩
    cases hw : s.chip.wel
    · simp only [Bool.false_eq_true, if_false, response, hw]; rfl
    · simp only [if_true, response, hw, Bool.or_false]; rfl
  · simp at h

theorem took_erase {l : Lop} {unit : Nat} {a : Addr} (hl : l = .sectorErase ∧ unit = Config.sectorSize ∨
    l = .blockErase64k ∧ unit = Config.blockSize) (h : chipEraseUnit m unit a s = .next t) :
    Took m l (some a) .none s t := by
  simp only [chipEraseUnit, chipInArray_next, chipMutate_next, decide_eq_true_eq] at h
  obtain ⟨h1, h2, h3, _, _, rfl⟩ := h
  obtain ⟨rfl, rfl⟩ | ⟨rfl, rfl⟩ := hl <;>
    refine ⟨h1, by simp [h2], h3, s.env.draws, s.env.undoc, ?_, by simp [marks], by simp⟩ <;>
    cases hw : s.chip.wel
  · simp only [Bool.false_eq_true, if_false, response, hw]; rfl
  · simp only [if_true, response, hw, Bool.or_false]; rfl
  · simp only [Bool.false_eq_true, if_false, response, hw]; rfl
  · simp only [if_true, response, hw, Bool.or_false]; rfl

theorem took_eraseAll (h : chipEraseAll m s = .next t) : Took m .chipErase none .none s t := by
  simp only [chipEraseAll, chipMutate_next] at h
  obtain ⟨h1, h2, rfl⟩ := h
  refine ⟨h1, by simp [h2], trivial, s.env.draws, s.env.undoc, ?_, by simp [marks], by simp⟩
  cases hw : s.chip.wel
  · simp only [Bool.false_eq_true, if_false, response, hw]; rfl
  · simp only [if_true, response, hw, Bool.or_false]; rfl

end took

/-- The chip's step, whatever the wire command, when it answers a next state. -/
theorem chipStep_next {i : Instr} {m : EMode} {l : Lop} {a : Option Addr} {p : Payload} {s t : State}
    (hi : i.wireParts = some (m, l, a, p)) (h : chipStep i s = .next t) : Took m l a p s t := by
  cases i
  case resetEnableSpi => cases hi; exact took_resetEnable h
  case resetEnableOpi => cases hi; exact took_resetEnable h
  case resetMemorySpi => cases hi; exact took_resetMemory h
  case resetMemoryOpi => cases hi; exact took_resetMemory h
  case writeEnableSpi => cases hi; exact took_writeEnable h
  case writeEnableOpi => cases hi; exact took_writeEnable h
  case readSrSpi => cases hi; exact took_readSr h
  case readSrOpi => cases hi; exact took_readSr h
  case readCrSpi => cases hi; exact took_readCr h
  case readCrOpi => cases hi; exact took_readCr h
  case readCr2Spi => cases hi; exact took_readCr2 h
  case readCr2Opi => cases hi; exact took_readCr2 h
  case writeSrCrSpi => cases hi; exact took_writeSrCr h
  case writeSrCrOpi => cases hi; exact took_writeSrCr h
  case writeCr2Spi => cases hi; exact took_writeCr2 h
  case writeCr2Opi => cases hi; exact took_writeCr2 h
  case readIdSpi => cases hi; exact took_readId h
  case readIdOpi => cases hi; exact took_readId h
  case readMemSpi => cases hi; exact took_readMem h
  case readMemOpi => cases hi; exact took_readMem h
  case pageProgramSpi => cases hi; exact took_pageProgram h
  case pageProgramOpi => cases hi; exact took_pageProgram h
  case sectorEraseSpi => cases hi; exact took_erase (.inl ⟨rfl, rfl⟩) h
  case sectorEraseOpi => cases hi; exact took_erase (.inl ⟨rfl, rfl⟩) h
  case blockErase64kSpi => cases hi; exact took_erase (.inr ⟨rfl, rfl⟩) h
  case blockErase64kOpi => cases hi; exact took_erase (.inr ⟨rfl, rfl⟩) h
  case chipEraseSpi => cases hi; exact took_eraseAll h
  case chipEraseOpi => cases hi; exact took_eraseAll h
  all_goals cases hi

/-- And it answers one whenever the command has a rule: the chip in its format, idle or only asked for its status, the
address inside the array. -/
theorem chipStep_answers {i : Instr} {m : EMode} {l : Lop} {a : Option Addr} {p : Payload} {s : State}
    (hi : i.wireParts = some (m, l, a, p)) (hm : s.chip.emode = some m) (hw : s.chip.wip = true → l = .readSr)
    (hr : reaches l a p) : ∃ t, chipStep i s = .next t := by
  have hw' : l ≠ .readSr → s.chip.wip = false := fun h => by
    cases h' : s.chip.wip
    · rfl
    · exact absurd (hw h') h
  have acc : ∀ k, l ≠ .readSr → (∃ t, k { s with env.wire := none } = .next t) →
      ∃ t, chipAccept m false s k = .next t :=
    fun k hl hk => hk.elim fun t hk => ⟨t, chipAccept_next.mpr ⟨hm, by simp [hw' hl], hk⟩⟩
  have ans : ∀ f, l ≠ .readSr → ∃ t, chipAnswer m false f s = .next t :=
    fun f hl => ⟨_, chipAnswer_next.mpr ⟨hm, by simp [hw' hl], rfl⟩⟩
  have mutn : ∀ u f, l ≠ .readSr → ∃ t, chipMutate m u f s = .next t :=
    fun u f hl => ⟨_, chipMutate_next.mpr ⟨hm, hw' hl, rfl⟩⟩
  have arr : ∀ ok k, l ≠ .readSr → ok = true → (∃ t, k s = .next t) → ∃ t, chipInArray m ok s k = .next t :=
    fun ok k hl ho hk => hk.elim fun t hk => ⟨t, chipInArray_next.mpr ⟨hm, hw' hl, ho, hk⟩⟩
  cases i
  case resetEnableSpi =>
    cases hi
    simp only [chipStep, execResetEnableSpi, chipResetEnable]
    refine acc _ (by simp) ?_
    exact ⟨_, rfl⟩
  case resetEnableOpi =>
    cases hi
    simp only [chipStep, execResetEnableOpi, chipResetEnable]
    refine acc _ (by simp) ?_
    exact ⟨_, rfl⟩
  case resetMemorySpi =>
    cases hi
    simp only [chipStep, execResetMemorySpi, chipResetMemory]
    refine acc _ (by simp) ?_
    cases h : s.chip.rsten
    · exact ⟨_, if_neg (by simp)⟩
    · exact ⟨_, if_pos rfl⟩
  case resetMemoryOpi =>
    cases hi
    simp only [chipStep, execResetMemoryOpi, chipResetMemory]
    refine acc _ (by simp) ?_
    cases h : s.chip.rsten
    · exact ⟨_, if_neg (by simp)⟩
    · exact ⟨_, if_pos rfl⟩
  case writeEnableSpi =>
    cases hi
    simp only [chipStep, execWriteEnableSpi, chipWriteEnable]
    refine acc _ (by simp) ?_
    exact ⟨_, rfl⟩
  case writeEnableOpi =>
    cases hi
    simp only [chipStep, execWriteEnableOpi, chipWriteEnable]
    refine acc _ (by simp) ?_
    exact ⟨_, rfl⟩
  case readSrSpi =>
    cases hi
    simp only [chipStep, execReadSrSpi, chipReadSr]
    exact ⟨_, chipAnswer_next.mpr ⟨hm, by simp, rfl⟩⟩
  case readSrOpi =>
    cases hi
    simp only [chipStep, execReadSrOpi, chipReadSr]
    exact ⟨_, chipAnswer_next.mpr ⟨hm, by simp, rfl⟩⟩
  case readCrSpi =>
    cases hi
    simp only [chipStep, execReadCrSpi, chipReadCr]
    exact ans _ (by simp)
  case readCrOpi =>
    cases hi
    simp only [chipStep, execReadCrOpi, chipReadCr]
    exact ans _ (by simp)
  case readCr2Spi a =>
    cases hi
    simp only [chipStep, execReadCr2Spi, chipReadCr2]
    exact ans _ (by simp)
  case readCr2Opi a =>
    cases hi
    simp only [chipStep, execReadCr2Opi, chipReadCr2]
    exact ans _ (by simp)
  case readIdSpi =>
    cases hi
    simp only [chipStep, execReadIdSpi, chipReadId]
    exact ans _ (by simp)
  case readIdOpi =>
    cases hi
    simp only [chipStep, execReadIdOpi, chipReadId]
    exact ans _ (by simp)
  case writeSrCrSpi sr cr =>
    cases hi
    simp only [chipStep, execWriteSrCrSpi, chipWriteSrCr]
    exact mutn _ _ (by simp)
  case writeSrCrOpi sr cr =>
    cases hi
    simp only [chipStep, execWriteSrCrOpi, chipWriteSrCr]
    exact mutn _ _ (by simp)
  case writeCr2Spi a v =>
    cases hi
    simp only [chipStep, execWriteCr2Spi, chipWriteCr2]
    exact mutn _ _ (by simp)
  case writeCr2Opi a v =>
    cases hi
    simp only [chipStep, execWriteCr2Opi, chipWriteCr2]
    exact mutn _ _ (by simp)
  case readMemSpi a n =>
    cases hi
    simp only [chipStep, execReadMemSpi, chipReadMem]
    rw [if_pos hr.1]
    exact arr _ _ (by simp) (decide_eq_true hr.2) (ans _ (by simp))
  case readMemOpi a n =>
    cases hi
    simp only [chipStep, execReadMemOpi, chipReadMem]
    rw [if_pos hr.1]
    exact arr _ _ (by simp) (decide_eq_true hr.2) (ans _ (by simp))
  case pageProgramSpi a data =>
    cases hi
    simp only [chipStep, execPageProgramSpi, chipPageProgram]
    rw [if_pos (And.intro hr.1 hr.2.1)]
    exact arr _ _ (by simp) (decide_eq_true hr.2.2) (mutn _ _ (by simp))
  case pageProgramOpi a data =>
    cases hi
    simp only [chipStep, execPageProgramOpi, chipPageProgram]
    rw [if_pos (And.intro hr.1 hr.2.1)]
    exact arr _ _ (by simp) (decide_eq_true hr.2.2) (mutn _ _ (by simp))
  case sectorEraseSpi a =>
    cases hi
    simp only [chipStep, execSectorEraseSpi, chipEraseUnit]
    exact arr _ _ (by simp) (decide_eq_true hr) (mutn _ _ (by simp))
  case sectorEraseOpi a =>
    cases hi
    simp only [chipStep, execSectorEraseOpi, chipEraseUnit]
    exact arr _ _ (by simp) (decide_eq_true hr) (mutn _ _ (by simp))
  case blockErase64kSpi a =>
    cases hi
    simp only [chipStep, execBlockErase64kSpi, chipEraseUnit]
    exact arr _ _ (by simp) (decide_eq_true hr) (mutn _ _ (by simp))
  case blockErase64kOpi a =>
    cases hi
    simp only [chipStep, execBlockErase64kOpi, chipEraseUnit]
    exact arr _ _ (by simp) (decide_eq_true hr) (mutn _ _ (by simp))
  case chipEraseSpi =>
    cases hi
    simp only [chipStep, execChipEraseSpi, chipEraseAll]
    exact mutn _ _ (by simp)
  case chipEraseOpi =>
    cases hi
    simp only [chipStep, execChipEraseOpi, chipEraseAll]
    exact mutn _ _ (by simp)
  all_goals cases hi

/-! ### What each shape of data admits -/

theorem bare_some {i j : Instr} {p : Payload} : bare i p = some j ↔ p = .none ∧ j = i := by
  unfold bare; split <;> simp_all [eq_comm]

@[simp] theorem bare_self (i : Instr) : bare i .none = some i := bare_some.mpr ⟨rfl, rfl⟩

theorem asking_some {n : Nat} {i j : Instr} {p : Payload} : asking n i p = some j ↔ p = .read n ∧ j = i := by
  unfold asking; split <;> simp_all [eq_comm]

@[simp] theorem asking_self (n : Nat) (i : Instr) : asking n i (.read n) = some i := asking_some.mpr ⟨rfl, rfl⟩

theorem askingAny_some {f : Nat → Instr} {j : Instr} {p : Payload} :
    askingAny f p = some j ↔ ∃ n, p = .read n ∧ j = f n := by
  unfold askingAny; split <;> simp_all [eq_comm]

theorem sendingAny_some {f : List Byte → Instr} {j : Instr} {p : Payload} :
    sendingAny f p = some j ↔ ∃ data, p = .write data ∧ j = f data := by
  unfold sendingAny; split <;> simp_all [eq_comm]

theorem sendingOne_some {f : Byte → Instr} {j : Instr} {p : Payload} :
    sendingOne f p = some j ↔ ∃ v, p = .write [v] ∧ j = f v := by
  unfold sendingOne
  split
  · simp [eq_comm]
  · rename_i h
    simp only [reduceCtorEq, false_iff, not_exists, not_and]
    exact fun v hv => absurd hv (h v)

theorem sendingTwo_some {f : Byte → Byte → Instr} {j : Instr} {p : Payload} :
    sendingTwo f p = some j ↔ ∃ v w, p = .write [v, w] ∧ j = f v w := by
  unfold sendingTwo
  split
  · simp [eq_comm]
  · rename_i h
    simp only [reduceCtorEq, false_iff, not_exists, not_and]
    exact fun v w hv => absurd hv (h v w)

theorem spiInstr_parts {l : Lop} {a : Option Addr} {p : Payload} {i : Instr}
    (h : spiInstr l a p = some i) :
    i.wireParts = some (.Spi, l, if l.operandAddress then a else none, p) := by
  cases l <;> cases a <;>
    simp only [spiInstr, Option.bind_none, Option.bind_some, bare_some, asking_some, askingAny_some, sendingAny_some,
      sendingOne_some, sendingTwo_some, reduceCtorEq] at h
  all_goals first
    | (obtain ⟨rfl, rfl⟩ := h; rfl)
    | (obtain ⟨n, rfl, rfl⟩ := h; rfl)
    | (obtain ⟨v, w, rfl, rfl⟩ := h; rfl)

theorem opiInstr_parts {l : Lop} {a : Option Addr} {p : Payload} {i : Instr}
    (h : opiInstr l a p = some i) :
    i.wireParts = some (.Opi, l, if l.operandAddress then a else none, p) := by
  cases l <;> cases a <;>
    simp only [opiInstr, Option.bind_none, Option.bind_some, bare_some, asking_some, askingAny_some, sendingAny_some,
      sendingOne_some, sendingTwo_some, reduceCtorEq] at h
  all_goals first
    | (obtain ⟨rfl, rfl⟩ := h; rfl)
    | (obtain ⟨n, rfl, rfl⟩ := h; rfl)
    | (obtain ⟨v, w, rfl, rfl⟩ := h; rfl)

/-- A transaction that decodes to a wire command carries that command's address and data, built from its mode's table. -/
theorem wireInstr_parts {m : EMode} {l : Lop} {a : Option Addr} {p : Payload} {i : Instr}
    (h : wireInstr m l a p = some i) :
    i.wireParts = some (m, l, if l.operandAddress then a else none, p) := by
  cases m
  · exact spiInstr_parts h
  · exact opiInstr_parts h

/-- And the command of its parts is what the decoder's last step makes of them. -/
theorem wireInstr_of_parts {i : Instr} {m : EMode} {l : Lop} {a : Option Addr} {p : Payload}
    (h : i.wireParts = some (m, l, a, p)) :
    wireInstr m l a p = some i ∧ (l.operandAddress = true ↔ a ≠ none) := by
  cases i
  case resetEnableSpi => cases h; exact ⟨bare_self _, by simp [Lop.operandAddress]⟩
  case resetEnableOpi => cases h; exact ⟨bare_self _, by simp [Lop.operandAddress]⟩
  case resetMemorySpi => cases h; exact ⟨bare_self _, by simp [Lop.operandAddress]⟩
  case resetMemoryOpi => cases h; exact ⟨bare_self _, by simp [Lop.operandAddress]⟩
  case writeEnableSpi => cases h; exact ⟨bare_self _, by simp [Lop.operandAddress]⟩
  case writeEnableOpi => cases h; exact ⟨bare_self _, by simp [Lop.operandAddress]⟩
  case readSrSpi => cases h; exact ⟨asking_self 1 _, by simp [Lop.operandAddress]⟩
  case readSrOpi => cases h; exact ⟨asking_self 1 _, by simp [Lop.operandAddress]⟩
  case readCrSpi => cases h; exact ⟨asking_self 1 _, by simp [Lop.operandAddress]⟩
  case readCrOpi => cases h; exact ⟨asking_self 1 _, by simp [Lop.operandAddress]⟩
  case readCr2Spi => cases h; exact ⟨asking_self 1 _, by simp [Lop.operandAddress]⟩
  case readCr2Opi => cases h; exact ⟨asking_self 1 _, by simp [Lop.operandAddress]⟩
  case writeSrCrSpi => cases h; exact ⟨rfl, by simp [Lop.operandAddress]⟩
  case writeSrCrOpi => cases h; exact ⟨rfl, by simp [Lop.operandAddress]⟩
  case writeCr2Spi => cases h; exact ⟨rfl, by simp [Lop.operandAddress]⟩
  case writeCr2Opi => cases h; exact ⟨rfl, by simp [Lop.operandAddress]⟩
  case readIdSpi => cases h; exact ⟨asking_self 3 _, by simp [Lop.operandAddress]⟩
  case readIdOpi => cases h; exact ⟨asking_self 3 _, by simp [Lop.operandAddress]⟩
  case readMemSpi => cases h; exact ⟨rfl, by simp [Lop.operandAddress]⟩
  case readMemOpi => cases h; exact ⟨rfl, by simp [Lop.operandAddress]⟩
  case pageProgramSpi => cases h; exact ⟨rfl, by simp [Lop.operandAddress]⟩
  case pageProgramOpi => cases h; exact ⟨rfl, by simp [Lop.operandAddress]⟩
  case sectorEraseSpi => cases h; exact ⟨bare_self _, by simp [Lop.operandAddress]⟩
  case sectorEraseOpi => cases h; exact ⟨bare_self _, by simp [Lop.operandAddress]⟩
  case blockErase64kSpi => cases h; exact ⟨bare_self _, by simp [Lop.operandAddress]⟩
  case blockErase64kOpi => cases h; exact ⟨bare_self _, by simp [Lop.operandAddress]⟩
  case chipEraseSpi => cases h; exact ⟨bare_self _, by simp [Lop.operandAddress]⟩
  case chipEraseOpi => cases h; exact ⟨bare_self _, by simp [Lop.operandAddress]⟩
  all_goals cases h

/-- The decoder's answer, inverted (R256, R258). -/
theorem decodeTxn_ok {t : Config.OpTab} {x : Txn} {i : Instr} (h : decodeTxn t x = .ok i) :
    ∃ m l, wireInstr m l x.desc.address x.payload = some i ∧ x.desc = build t m l x.desc.address ∧ i.wf = true := by
  unfold decodeTxn at h
  split at h
  · simp at h
  · simp at h
  · rename_i m o _ _
    split at h
    · simp at h
    · rename_i l hl
      split at h
      · simp at h
      · rename_i j hj
        split at h
        · rename_i hc
          simp only [Except.ok.injEq] at h
          subst h
          exact ⟨m, l, hj, hc.1, hc.2⟩
        · simp at h

/-- Delivering a transaction built from a well-formed table: the chip's step of the command it was built for. -/
theorem deliver_build_next {m : EMode} {l : Lop} {a : Option Addr} {p : Payload} {s t : State}
    (ht : OpTab.wf s.optab = true) (h : deliver ⟨build s.optab m l a, p⟩ s = .next t) :
    ∃ i, decodeTxn s.optab ⟨build s.optab m l a, p⟩ = .ok i ∧ i.wf = true ∧ chipStep i s = .next t ∧
      i.wireParts = some (m, l, if l.operandAddress then (build s.optab m l a).address else none, p) := by
  unfold deliver at h
  cases hd : decodeTxn s.optab ⟨build s.optab m l a, p⟩ with
  | error e => simp [hd] at h
  | ok i =>
    simp only [hd] at h
    obtain ⟨m', l', hw, hb, hwf⟩ := decodeTxn_ok hd
    have hm : some m' = some m := by
      rw [← format_build s.optab m' l' (build s.optab m l a).address, ← format_build s.optab m l a]
      exact congrArg _ hb.symm
    have hl : some l' = some l := by
      rw [← lop_build ht m' l' (build s.optab m l a).address, ← lop_build ht m l a]
      exact congrArg _ hb.symm
    cases hm; cases hl
    exact ⟨i, rfl, hwf, h, wireInstr_parts hw⟩

end Sys2Proof.Machine
end

