-- ==== Sys2Proof/Laws/Memory.lean ====
section
/-! SUPPORT. The sparse memory: read after write, what every operation leaves alone, and that every operation keeps the
canonical form. -/

namespace Sys2Proof.Machine

variable {dflt : Nat → Byte}

/-! ### Reading -/

theorem Memory.read_write (m : List Host.Cell) (a : Nat) (v : Byte) (x : Nat)
    (h : Memory.wfFrom dflt lim lo m = true) :
    Memory.read dflt (Memory.write dflt m a v) x = if x = a then v else Memory.read dflt m x := by
  induction m generalizing lo with
  | nil =>
    by_cases hv : v = dflt a <;> by_cases hx : x = a <;> simp_all [Memory.read, Memory.write]
  | cons c m ih =>
    obtain ⟨b, w⟩ := c
    simp only [Memory.wfFrom, Bool.and_eq_true, decide_eq_true_eq] at h
    obtain ⟨⟨⟨hlo, hlim⟩, hw⟩, hm⟩ := h
    have below : ∀ (m : List Host.Cell) (l : Nat), Memory.wfFrom dflt lim l m = true →
        ∀ y, y < l → Memory.read dflt m y = dflt y := by
      intro m
      induction m with
      | nil => intro l _ y _; rfl
      | cons c m ih2 =>
        obtain ⟨b, w⟩ := c
        intro l hl y hy
        simp only [Memory.wfFrom, Bool.and_eq_true, decide_eq_true_eq] at hl
        have : y ≠ b := by omega
        simp [Memory.read, this, ih2 _ hl.2 y (by omega)]
    have hbelow := below m (b + 1) hm
    simp only [Memory.write]
    split
    · rename_i hab
      split
      · rename_i hv
        by_cases hx : x = a
        · subst hx
          have : x ≠ b := by omega
          simp [Memory.read, this, hbelow x (by omega), hv]
        · simp [hx]
      · by_cases hx : x = a <;> simp [Memory.read, hx]
    · split
      · rename_i hab
        subst hab
        split
        · rename_i hv
          by_cases hx : x = a
          · subst hx; simp [hbelow x (by omega), hv]
          · simp [Memory.read, hx]
        · by_cases hx : x = a <;> simp [Memory.read, hx]
      · rename_i h1 h2
        simp only [Memory.read]
        rw [ih hm]
        by_cases hx : x = b
        · have : x ≠ a := by omega
          simp [hx, show b ≠ a by omega]
        · simp [hx]

/-- Clearing a range makes it read as unlisted and leaves the rest. -/
theorem Memory.read_clear (m : List Host.Cell) (lo hi x : Nat) :
    Memory.read dflt (Memory.clear lo hi m) x =
      if lo ≤ x ∧ x < hi then dflt x else Memory.read dflt m x := by
  induction m with
  | nil => simp [Memory.clear, Memory.read]
  | cons c m ih =>
    obtain ⟨b, w⟩ := c
    simp only [Memory.clear] at ih ⊢
    by_cases hb : lo ≤ b ∧ b < hi
    · rw [List.filter_cons_of_neg (by simp [hb]), ih]
      by_cases hx : lo ≤ x ∧ x < hi
      · simp [hx]
      · have : x ≠ b := by rintro rfl; exact hx hb
        simp [hx, Memory.read, this]
    · rw [List.filter_cons_of_pos (by simp; omega)]
      simp only [Memory.read, ih]
      by_cases hxb : x = b
      · subst hxb; simp [hb]
      · simp [hxb]

/-! ### The canonical form -/

theorem Memory.wfFrom_mono {lim lo lo' : Nat} {m : List Host.Cell} (h : Memory.wfFrom dflt lim lo m = true)
    (hl : lo' ≤ lo) : Memory.wfFrom dflt lim lo' m = true := by
  cases m with
  | nil => rfl
  | cons c m =>
    simp only [Memory.wfFrom, Bool.and_eq_true, decide_eq_true_eq] at h ⊢
    exact ⟨⟨⟨by omega, h.1.1.2⟩, h.1.2⟩, h.2⟩

/-- A write keeps the canonical form. -/
theorem Memory.wfFrom_write {lim lo : Nat} {m : List Host.Cell} {a : Nat} {v : Byte}
    (h : Memory.wfFrom dflt lim lo m = true) (hlo : lo ≤ a) (ha : a < lim) :
    Memory.wfFrom dflt lim lo (Memory.write dflt m a v) = true := by
  induction m generalizing lo with
  | nil =>
    simp only [Memory.write]
    split
    · rfl
    · rename_i hv; simp [Memory.wfFrom, hlo, ha, hv]
  | cons c m ih =>
    obtain ⟨b, w⟩ := c
    simp only [Memory.wfFrom, Bool.and_eq_true, decide_eq_true_eq] at h
    obtain ⟨⟨⟨hlb, hbl⟩, hw⟩, hm⟩ := h
    simp only [Memory.write]
    split
    · rename_i hab
      split
      · simp [Memory.wfFrom, hlb, hbl, hw, hm]
      · rename_i hv
        simp only [Memory.wfFrom, hlo, ha, hbl, hw, hm, decide_true, Bool.true_and, Bool.and_true, Bool.and_eq_true,
          bne_iff_ne, ne_eq, hv, not_false_eq_true, decide_eq_true_eq]
        exact ⟨trivial, by omega⟩
    · split
      · rename_i hab
        subst hab
        split
        · exact Memory.wfFrom_mono hm (by omega)
        · rename_i hv; simp [Memory.wfFrom, hlb, hbl, hv, hm]
      · rename_i h1 h2
        simp only [Memory.wfFrom, hlb, hbl, hw, decide_true, Bool.true_and]
        exact ih hm (by omega)

/-- Clearing a range keeps the canonical form. -/
theorem Memory.wfFrom_clear {lim lo : Nat} {m : List Host.Cell} (x y : Nat)
    (h : Memory.wfFrom dflt lim lo m = true) : Memory.wfFrom dflt lim lo (Memory.clear x y m) = true := by
  induction m generalizing lo with
  | nil => rfl
  | cons c m ih =>
    obtain ⟨b, w⟩ := c
    simp only [Memory.wfFrom, Bool.and_eq_true, decide_eq_true_eq] at h
    obtain ⟨⟨⟨hlb, hbl⟩, hw⟩, hm⟩ := h
    simp only [Memory.clear] at ih ⊢
    by_cases hb : x ≤ b ∧ b < y
    · rw [List.filter_cons_of_neg (by simp [hb])]
      exact Memory.wfFrom_mono (ih hm) (by omega)
    · rw [List.filter_cons_of_pos (by simp; omega)]
      simp only [Memory.wfFrom, hlb, hbl, hw, decide_true, Bool.true_and]
      exact ih hm

/-- A write to an address below the limit keeps `Memory.wf`. -/
theorem Memory.wf_write {lim : Nat} {m : List Host.Cell} {a : Nat} {v : Byte} (h : Memory.wf dflt lim m = true)
    (ha : a < lim) : Memory.wf dflt lim (Memory.write dflt m a v) = true :=
  Memory.wfFrom_write h (Nat.zero_le a) ha

/-- Clearing keeps `Memory.wf`. -/
theorem Memory.wf_clear {lim : Nat} {m : List Host.Cell} (x y : Nat) (h : Memory.wf dflt lim m = true) :
    Memory.wf dflt lim (Memory.clear x y m) = true :=
  Memory.wfFrom_clear x y h

/-- Equal contents are equal data: two canonical memories that read alike are one list. -/
theorem Memory.ext_of_wf {lim lo : Nat} {m k : List Host.Cell} (hm : Memory.wfFrom dflt lim lo m = true)
    (hk : Memory.wfFrom dflt lim lo k = true) (h : ∀ a, Memory.read dflt m a = Memory.read dflt k a) : m = k := by
  have below : ∀ (m : List Host.Cell) (l : Nat), Memory.wfFrom dflt lim l m = true →
      ∀ y, y < l → Memory.read dflt m y = dflt y := by
    intro m
    induction m with
    | nil => intro l _ y _; rfl
    | cons c m ih =>
      obtain ⟨b, w⟩ := c
      intro l hl y hy
      simp only [Memory.wfFrom, Bool.and_eq_true, decide_eq_true_eq] at hl
      have : y ≠ b := by omega
      simp [Memory.read, this, ih _ hl.2 y (by omega)]
  induction m generalizing lo k with
  | nil =>
    cases k with
    | nil => rfl
    | cons c k =>
      obtain ⟨b, w⟩ := c
      simp only [Memory.wfFrom, Bool.and_eq_true, decide_eq_true_eq, bne_iff_ne] at hk
      have := h b
      simp [Memory.read] at this
      exact absurd this.symm hk.1.2
  | cons c m ih =>
    obtain ⟨b, w⟩ := c
    simp only [Memory.wfFrom, Bool.and_eq_true, decide_eq_true_eq, bne_iff_ne] at hm
    cases k with
    | nil =>
      have := h b
      simp [Memory.read] at this
      exact absurd this hm.1.2
    | cons d k =>
      obtain ⟨e, u⟩ := d
      simp only [Memory.wfFrom, Bool.and_eq_true, decide_eq_true_eq, bne_iff_ne] at hk
      have hbe : b = e := by
        rcases Nat.lt_trichotomy b e with hlt | heq | hgt
        · have := h b
          rw [show Memory.read dflt ((e, u) :: k) b = dflt b by
            simp [Memory.read, show b ≠ e by omega, below k _ hk.2 b (by omega)]] at this
          simp [Memory.read] at this
          exact absurd this hm.1.2
        · exact heq
        · have := h e
          rw [show Memory.read dflt ((b, w) :: m) e = dflt e by
            simp [Memory.read, show e ≠ b by omega, below m _ hm.2 e (by omega)]] at this
          simp [Memory.read] at this
          exact absurd this.symm hk.1.2
      subst hbe
      have hwu : w = u := by simpa [Memory.read] using h b
      subst hwu
      congr 1
      refine ih hm.2 hk.2 fun a => ?_
      by_cases hab : a = b
      · subst hab; rw [below m _ hm.2 a (by omega), below k _ hk.2 a (by omega)]
      · simpa [Memory.read, hab] using h a

/-! ### The flash array -/

/-- An erased range reads 0xFF; the rest of the array is unchanged (R278 to R280). -/
theorem Chip.byte_erase (c : Chip) (lo hi x : Nat) :
    (c.erase lo hi).byte x = if lo ≤ x ∧ x < hi then erasedByte else c.byte x :=
  Memory.read_clear c.array lo hi x

/-- Where a page program puts a byte lies in the page of its address (R276). -/
theorem pageSlot_bounds (a i : Nat) :
    a - a % Config.pageSize ≤ pageSlot a i ∧ pageSlot a i < a - a % Config.pageSize + Config.pageSize := by
  have : (a % Config.pageSize + i) % Config.pageSize < Config.pageSize := Nat.mod_lt _ (by decide)
  unfold pageSlot; omega

/-- A slot of a page inside the array is inside the array. -/
theorem pageSlot_lt (a i : Nat) (h : a < Config.capacity) : pageSlot a i < Config.capacity := by
  have := (pageSlot_bounds a i).2
  simp only [Config.pageSize, Config.capacity] at *
  omega

/-- A page program inside the array keeps the canonical form. -/
theorem programFrom_wf (a : Nat) (h : a < Config.capacity) (data : List Byte) (i : Nat) (m : List Host.Cell)
    (hm : Memory.wf arrayDflt Config.capacity m = true) :
    Memory.wf arrayDflt Config.capacity (programFrom a i data m) = true := by
  induction data generalizing i m with
  | nil => exact hm
  | cons b data ih => exact ih _ _ (Memory.wf_write hm (pageSlot_lt a i h))

/-- A byte no slot of the data names is unchanged by a page program. -/
theorem programFrom_read_other (a : Nat) (ha : a < Config.capacity) (data : List Byte) (i : Nat)
    (m : List Host.Cell) (hm : Memory.wf arrayDflt Config.capacity m = true) (x : Nat)
    (hx : ∀ j < data.length, x ≠ pageSlot a (i + j)) :
    Memory.read arrayDflt (programFrom a i data m) x = Memory.read arrayDflt m x := by
  induction data generalizing i m with
  | nil => rfl
  | cons b data ih =>
    have h0 : x ≠ pageSlot a i := by simpa using hx 0 (by simp)
    rw [programFrom, ih (i + 1) _ (Memory.wf_write hm (pageSlot_lt a i ha))]
    · rw [Memory.read_write _ _ _ _ hm, if_neg h0]
    · intro j hj
      have := hx (j + 1) (by simpa using hj)
      rwa [show i + (j + 1) = i + 1 + j by omega] at this

/-- Two data bytes less than a page apart land on different bytes of the page (R276). -/
theorem pageSlot_inj (a i j : Nat) (hij : i < j) (hj : j < i + Config.pageSize) : pageSlot a i ≠ pageSlot a j := by
  simp only [pageSlot, Config.pageSize] at *
  omega

/-- Byte `j` of a page program of at most a page is ANDed into its slot (R276). -/
theorem programFrom_read_slot (a : Nat) (ha : a < Config.capacity) (data : List Byte) (i : Nat)
    (m : List Host.Cell) (hm : Memory.wf arrayDflt Config.capacity m = true) (j : Nat) (hj : j < data.length)
    (hlen : data.length ≤ Config.pageSize) :
    Memory.read arrayDflt (programFrom a i data m) (pageSlot a (i + j)) =
      Memory.read arrayDflt m (pageSlot a (i + j)) &&& data[j] := by
  induction data generalizing i m j with
  | nil => simp at hj
  | cons b data ih =>
    have hwf := Memory.wf_write (v := Memory.read arrayDflt m (pageSlot a i) &&& b) hm (pageSlot_lt a i ha)
    simp only [List.length_cons] at hlen hj
    cases j with
    | zero =>
      rw [programFrom, programFrom_read_other a ha data (i + 1) _ hwf]
      · rw [Memory.read_write _ _ _ _ hm]; simp
      · intro k hk
        simpa using pageSlot_inj a i (i + 1 + k) (by omega) (by omega)
    | succ j =>
      have := ih (i + 1) _ hwf j (by omega) (by omega)
      rw [show i + (j + 1) = i + 1 + j by omega, programFrom, this, Memory.read_write _ _ _ _ hm,
        if_neg (pageSlot_inj a i (i + 1 + j) (by omega) (by omega)).symm]
      simp

/-- A page program keeps the canonical form of both memories. -/
theorem Chip.program_memoryWf (c : Chip) (a : Nat) (data : List Byte) (ha : a < Config.capacity)
    (h : c.memoryWf = true) : (c.program a data).memoryWf = true := by
  simp only [Chip.memoryWf, Chip.program, Bool.and_eq_true] at *
  exact ⟨programFrom_wf a ha data 0 _ h.1, h.2⟩

/-- An erase keeps the canonical form of both memories. -/
theorem Chip.erase_memoryWf (c : Chip) (lo hi : Nat) (h : c.memoryWf = true) : (c.erase lo hi).memoryWf = true := by
  simp only [Chip.memoryWf, Chip.erase, Bool.and_eq_true] at *
  exact ⟨Memory.wf_clear lo hi h.1, h.2⟩

/-- A CR2 write keeps the canonical form of both memories. -/
theorem Chip.setCr2_memoryWf (c : Chip) (a : Addr) (v : Byte) (h : c.memoryWf = true) :
    (c.setCr2 a v).memoryWf = true := by
  unfold Chip.setCr2
  split
  · exact h
  · simp only [Chip.memoryWf, Bool.and_eq_true] at *
    exact ⟨h.1, Memory.wf_write h.2 a.isLt⟩

/-- CR2 reads back what was stored, and a write to one register leaves the others (R39, R270). -/
theorem Chip.cr2At_setCr2 (c : Chip) (a b : Addr) (v : Byte) (h : c.memoryWf = true) :
    (c.setCr2 a v).cr2At b = if b = a then v else c.cr2At b := by
  simp only [Chip.memoryWf, Bool.and_eq_true] at h
  unfold Chip.setCr2 Chip.cr2At
  by_cases ha : a = 0 <;> by_cases hb : b = 0
  · simp [ha, hb]
  · rw [if_pos ha, if_neg hb, if_neg hb, if_neg (by rw [ha]; exact hb)]
  · rw [if_neg ha, if_pos hb, if_pos hb, if_neg (by rw [hb]; exact Ne.symm ha)]
  · have key : (b.toNat = a.toNat) ↔ b = a := ⟨fun e => BitVec.eq_of_toNat_eq e, fun e => by rw [e]⟩
    simp only [ha, hb, if_false]
    rw [Memory.read_write _ _ _ _ h.2]
    simp [key]

/-! ### A loss of power -/

/-- The bytes a command in progress is changing lie in the array. -/
theorem Pending.slots_lt {p : Pending} {x : Nat} (h : x ∈ p.slots) : x < Config.capacity := by
  cases p <;> simp only [Pending.slots, List.mem_filter, List.not_mem_nil, decide_eq_true_eq] at h
  · exact h.2
  · exact h.2

/-- Storing a byte at each address of a list: the canonical form stays, the listed addresses read as stored, the others as
before. -/
theorem foldr_write (f : Nat → Byte) (m : List Host.Cell) (hm : Memory.wf arrayDflt Config.capacity m = true) :
    ∀ l : List Nat, (∀ x ∈ l, x < Config.capacity) →
      Memory.wf arrayDflt Config.capacity (l.foldr (fun x m => Memory.write arrayDflt m x (f x)) m) = true ∧
      ∀ y, Memory.read arrayDflt (l.foldr (fun x m => Memory.write arrayDflt m x (f x)) m) y =
        if y ∈ l then f y else Memory.read arrayDflt m y
  | [], _ => ⟨hm, by simp⟩
  | x :: l, h => by
    obtain ⟨h1, h2⟩ := foldr_write f m hm l fun y hy => h y (List.mem_cons_of_mem _ hy)
    refine ⟨Memory.wf_write h1 (h x (List.mem_cons_self ..)), fun y => ?_⟩
    rw [List.foldr_cons, Memory.read_write _ _ _ _ h1, h2]
    by_cases hy : y = x <;> simp [hy]

/-- A loss of power keeps the canonical form. -/
theorem Chip.torn_memoryWf (k : Nat) (c : Chip) (h : c.memoryWf = true) : (c.torn k).memoryWf = true := by
  simp only [Chip.memoryWf, Chip.torn, Bool.and_eq_true] at *
  exact ⟨(foldr_write _ _ h.1 _ fun _ => Pending.slots_lt).1, h.2⟩

/-- It leaves every byte but those the command in progress was changing, each of which becomes a draw (R289). -/
theorem Chip.byte_torn (k : Nat) (c : Chip) (h : c.memoryWf = true) (x : Nat) :
    (c.torn k).byte x = if x ∈ c.pending.slots then Config.tornByte k x else c.byte x := by
  simp only [Chip.memoryWf, Bool.and_eq_true] at h
  exact (foldr_write _ _ h.1 _ fun _ => Pending.slots_lt).2 x

end Sys2Proof.Machine
end

