-- ==== Sys2Proof/Laws/Transport.lean ====
section
/-! SUPPORT. A transport call of a descriptor the controller builds, once and whole; and each way an operation's micro-step
that makes a call can go. -/

namespace Sys2Proof.Machine

/-- The address operand a logical operation uses. -/
def Lop.uses (l : Lop) (a : Option Addr) : Option Addr := if l.operandAddress then a else none

/-- The event of a call (R148). -/
def callEvent (s : State) (m : EMode) (l : Lop) (a : Option Addr) (p : Payload) (ok : Bool) (rx : List Byte) : Event :=
  .call (callKind l.dir) (build s.optab m l a) (eventData p ok rx) ok s.env.reqs

/-- The state after a call whose transaction the chip took. -/
def afterCall (s : State) (m : EMode) (l : Lop) (a : Option Addr) (p : Payload) (ok : Bool) (d : Nat) (u : Bool) : State :=
  { s with
    chip := response l (Lop.uses l a) p s.env.draws s.chip
    trace := s.trace ++ [callEvent s m l a p ok (answerOf l (Lop.uses l a) p s.chip s.env.rx)]
    env :=
      { s.env with
        wire := none, calls := s.env.calls.tail, rx := answerOf l (Lop.uses l a) p s.chip s.env.rx, draws := d
        undoc := u } }

/-- The state after a call whose transaction the chip never saw. -/
def afterLoss (s : State) (m : EMode) (l : Lop) (a : Option Addr) (p : Payload) : State :=
  { s with
    trace := s.trace ++ [callEvent s m l a p false s.env.rx]
    env := { s.env with calls := s.env.calls.tail } }

/-- A call of a built descriptor, when it answers: lost, or taken by the chip and reported `Ok` or `Err`. -/
theorem transact_build_next {m : EMode} {l : Lop} {a : Option Addr} {p : Payload} {s : State} {c : Called}
    (htab : OpTab.wf s.optab = true) (h : transact ⟨build s.optab m l a, p⟩ s = .next c) :
    s.xport.passthrough = false ∧
      (s.env.calls.head = .errLost ∧ c = ⟨false, afterLoss s m l a p⟩ ∨
        s.env.calls.head = (if c.ok then .ok else .errDelivered) ∧ s.chip.emode = some m ∧
          (s.chip.wip = true → l = .readSr) ∧ reaches l (Lop.uses l a) p ∧
          ∃ d u, c.s = afterCall s m l a p c.ok d u ∧ u = (s.env.undoc || marks l (Lop.uses l a) p s.chip) ∧
            (l ≠ .resetMemory → d = s.env.draws)) := by
  obtain ⟨hp, ⟨hc, rfl⟩ | ⟨ok, t, hd, hc, rfl⟩⟩ := transact_next.mp h
  · exact ⟨hp, .inl ⟨hc, rfl⟩⟩
  · refine ⟨hp, .inr ?_⟩
    obtain ⟨i, _, _, hs, hw⟩ := deliver_build_next (s := { s with env.calls := s.env.calls.tail }) htab hd
    have ha : (if l.operandAddress = true then (build s.optab m l a).address else none) = Lop.uses l a := by
      unfold Lop.uses
      split
      · rename_i h; exact build_address_operand htab h
      · rfl
    rw [ha] at hw
    obtain ⟨h1, h2, h3, d, u, rfl, h4, h5⟩ := chipStep_next hw hs
    exact ⟨hc, h1, h2, h3, d, u, rfl, h4, h5⟩

/-- And it answers, when the transport takes explicit calls and the chip has a rule for the command. -/
theorem transact_build_answers {m : EMode} {l : Lop} {a : Option Addr} {p : Payload} {s : State} {i : Instr}
    (htab : OpTab.wf s.optab = true) (hp : s.xport.passthrough = false)
    (hi : wireInstr m l (build s.optab m l a).address p = some i) (hw : i.wf = true)
    (hm : s.chip.emode = some m) (hb : s.chip.wip = true → l = .readSr) (hr : reaches l (Lop.uses l a) p) :
    ∃ c, transact ⟨build s.optab m l a, p⟩ s = .next c := by
  have hd := decodeTxn_build htab m l a p i hi hw
  have hparts := wireInstr_parts hi
  have ha : (if l.operandAddress = true then (build s.optab m l a).address else none) = Lop.uses l a := by
    unfold Lop.uses
    split
    · rename_i h; exact build_address_operand htab h
    · rfl
  rw [ha] at hparts
  obtain ⟨t, ht⟩ := chipStep_answers (s := { s with env.calls := s.env.calls.tail }) hparts hm hb hr
  unfold transact deliver
  simp only [hp, Bool.false_eq_true, if_false, hd, ht]
  cases s.env.calls.head <;> exact ⟨_, rfl⟩

/-- The call of an `Ok` transaction with a chip that serves it. -/
theorem transact_build_ok {m : EMode} {l : Lop} {a : Option Addr} {p : Payload} {s : State} {i : Instr}
    (h : Connected m s) (hi : wireInstr m l (build s.optab m l a).address p = some i) (hw : i.wf = true)
    (hb : s.chip.wip = true → l = .readSr) (hr : reaches l (Lop.uses l a) p) :
    ∃ d u, transact ⟨build s.optab m l a, p⟩ s = .next ⟨true, afterCall s m l a p true d u⟩ ∧
      u = (s.env.undoc || marks l (Lop.uses l a) p s.chip) ∧ (l ≠ .resetMemory → d = s.env.draws) := by
  obtain ⟨c, hc⟩ := transact_build_answers h.table h.direct hi hw h.chip hb hr
  obtain ⟨ok, t⟩ := c
  have := (transact_build_next h.table hc).2
  rw [h.ok] at this
  obtain ⟨h1, _⟩ | ⟨h1, -, -, -, d, u, h2, h3, h4⟩ := this
  · cases h1
  · cases ok
    · simp at h1
    · exact ⟨d, u, by rw [hc]; simp only at h2; rw [h2], h3, h4⟩

/-- An `Ok` call leaves everything but the chip, the trace and the bookkeeping. -/
@[simp] theorem afterCall_optab (s m l a p ok d u) : (afterCall s m l a p ok d u).optab = s.optab := rfl
@[simp] theorem afterCall_ctrl (s m l a p ok d u) : (afterCall s m l a p ok d u).ctrl = s.ctrl := rfl
@[simp] theorem afterCall_seq (s m l a p ok d u) : (afterCall s m l a p ok d u).seq = s.seq := rfl
@[simp] theorem afterCall_x (s m l a p ok d u) : (afterCall s m l a p ok d u).x = s.x := rfl
@[simp] theorem afterCall_xport (s m l a p ok d u) : (afterCall s m l a p ok d u).xport = s.xport := rfl
@[simp] theorem afterCall_chip (s m l a p ok d u) :
    (afterCall s m l a p ok d u).chip = response l (Lop.uses l a) p s.env.draws s.chip := rfl
@[simp] theorem afterCall_wire (s m l a p ok d u) : (afterCall s m l a p ok d u).env.wire = none := rfl
@[simp] theorem afterCall_req (s m l a p ok d u) : (afterCall s m l a p ok d u).env.req = s.env.req := rfl
@[simp] theorem afterCall_reqs (s m l a p ok d u) : (afterCall s m l a p ok d u).env.reqs = s.env.reqs := rfl
@[simp] theorem afterCall_rx (s m l a p ok d u) :
    (afterCall s m l a p ok d u).env.rx = answerOf l (Lop.uses l a) p s.chip s.env.rx := rfl
@[simp] theorem afterCall_trace (s m l a p ok d u) : (afterCall s m l a p ok d u).trace =
    s.trace ++ [callEvent s m l a p ok (answerOf l (Lop.uses l a) p s.chip s.env.rx)] := rfl
@[simp] theorem afterLoss_optab (s m l a p) : (afterLoss s m l a p).optab = s.optab := rfl
@[simp] theorem afterLoss_ctrl (s m l a p) : (afterLoss s m l a p).ctrl = s.ctrl := rfl
@[simp] theorem afterLoss_seq (s m l a p) : (afterLoss s m l a p).seq = s.seq := rfl
@[simp] theorem afterLoss_x (s m l a p) : (afterLoss s m l a p).x = s.x := rfl
@[simp] theorem afterLoss_xport (s m l a p) : (afterLoss s m l a p).xport = s.xport := rfl
@[simp] theorem afterLoss_chip (s m l a p) : (afterLoss s m l a p).chip = s.chip := rfl
@[simp] theorem afterLoss_wire (s m l a p) : (afterLoss s m l a p).env.wire = s.env.wire := rfl
@[simp] theorem afterLoss_req (s m l a p) : (afterLoss s m l a p).env.req = s.env.req := rfl
@[simp] theorem afterLoss_reqs (s m l a p) : (afterLoss s m l a p).env.reqs = s.env.reqs := rfl
@[simp] theorem afterLoss_trace (s m l a p) :
    (afterLoss s m l a p).trace = s.trace ++ [callEvent s m l a p false s.env.rx] := rfl

/-! ### The chip's flags after each response -/

theorem mutated_array (c : Chip) (f : Chip → Chip) : (c.mutated f).array = (f c.asked).array := rfl

theorem mutated_memoryWf {c : Chip} {f : Chip → Chip} (h : (f c.asked).memoryWf = true) :
    (c.mutated f).memoryWf = true := h

section response
variable (l : Lop) (a : Option Addr) (p : Payload) (k : Nat) (c : Chip)

theorem srCrEffect_array : (srCrEffect p c).array = c.array := by
  unfold srCrEffect; split <;> rfl

theorem cr2Effect_array : (cr2Effect a p c).array = c.array := by
  unfold cr2Effect; split
  · unfold Chip.setCr2; split <;> rfl
  · rfl

/-- Every response but a program or an erase leaves the array. -/
theorem response_array (h : l ∉ [.pageProgram, .sectorErase, .blockErase64k, .chipErase]) :
    (response l a p k c).array = c.array := by
  cases l <;> try simp at h
  case resetMemory => simp only [response]; split <;> rfl
  case writeSrCr =>
    simp only [response]; split
    · exact srCrEffect_array p c.asked
    · rfl
  case writeCr2 =>
    simp only [response]; split
    · exact cr2Effect_array a p c.asked
    · rfl
  all_goals rfl

theorem srCrEffect_memoryWf (h : c.memoryWf = true) : (srCrEffect p c).memoryWf = true := by
  unfold srCrEffect; split <;> exact h

theorem cr2Effect_memoryWf (h : c.memoryWf = true) : (cr2Effect a p c).memoryWf = true := by
  unfold cr2Effect; split
  · exact Chip.setCr2_memoryWf _ _ _ h
  · exact h

theorem programEffect_memoryWf (hr : reaches .pageProgram a p) (h : c.memoryWf = true) :
    (programEffect a p c).memoryWf = true := by
  unfold programEffect; split
  · exact Chip.program_memoryWf _ _ _ hr.2.2 h
  · exact h

theorem eraseEffect_memoryWf (unit : Nat) (h : c.memoryWf = true) : (eraseEffect unit a c).memoryWf = true := by
  unfold eraseEffect; split
  · exact Chip.erase_memoryWf _ _ _ h
  · exact h

/-- A response keeps the canonical form of the chip's memories. -/
theorem response_memoryWf (hr : reaches l a p) (h : c.memoryWf = true) : (response l a p k c).memoryWf = true := by
  have ha : c.asked.memoryWf = true := h
  cases l <;> simp only [response]
  case resetMemory =>
    split
    · simp only [Chip.memoryWf, resetRegisters, Bool.and_eq_true] at h ⊢
      exact ⟨h.1, rfl⟩
    · exact h
  case writeSrCr => split; exacts [mutated_memoryWf (srCrEffect_memoryWf _ _ ha), ha]
  case writeCr2 => split; exacts [mutated_memoryWf (cr2Effect_memoryWf _ _ _ ha), ha]
  case pageProgram => split; exacts [mutated_memoryWf (programEffect_memoryWf _ _ _ hr ha), ha]
  case sectorErase => split; exacts [mutated_memoryWf (eraseEffect_memoryWf _ _ _ ha), ha]
  case blockErase64k => split; exacts [mutated_memoryWf (eraseEffect_memoryWf _ _ _ ha), ha]
  case chipErase => split; exacts [mutated_memoryWf (Chip.erase_memoryWf _ _ _ ha), ha]
  all_goals exact h

end response

end Sys2Proof.Machine
end

