-- ==== Sys2Proof/Laws/Exec.lean ====
section
/-! SUPPORT. A host operation's meaning, once and whole: at `IDLE` the dispatcher; at a label that makes a transport call, one
call and what follows an `Ok`; at any other label of the operation, one next state; at a label of another operation, the
fault of R25. -/

namespace Sys2Proof.Machine

/-- A micro-step that makes a call: the command, and what follows `Ok`. -/
structure Call where
  lop : Lop
  addr : Option Addr
  payload : Payload
  next : State → State

/-- The micro-step: one call, and an abort on `Err` (R150). -/
def Call.outcome (k : Call) (s : State) : Out :=
  match transact ⟨build s.optab s.ctrl.emode k.lop k.addr, k.payload⟩ s with
  | .next c => .next (if c.ok then k.next c.s else abort .transportError c.s)
  | .fault f => .fault f
  | .refused r => .refused r

/-- What follows the poll of W1 (R156). -/
def afterPoll (p : Phase) (t : State) : State :=
  { t with
    ctrl.tmp := rxByte t 0
    ctrl.phase := if srWip (rxByte t 0) then .w1 else p }

/-- The calls of `wait_wip` and `mutate` (R156, R158). -/
def pollCall (p : Phase) : Call := ⟨.readSr, none, .read 1, afterPoll p⟩

def mutateCall (l : Lop) (a : Option Addr) (q : Payload) (p : Phase) (s : State) : Option Call :=
  match s.ctrl.phase with
  | .m1 => some ⟨.writeEnable, none, .none, go .m2⟩
  | .m2 => some ⟨l, a, q, go .w1⟩
  | .w1 => some (pollCall p)
  | _ => none

/-- What follows O1 and X1. -/
def keepMode (p : Phase) (t : State) : State := { t with ctrl.tmp := rxByte t 0, ctrl.phase := p }

/-- What follows RS1, RC1 and RQ1. -/
def keepByte (t : State) : State := finish { t with x.r0 := rxByte t 0 }

/-- The call of each micro-step that makes one. -/
def microCall (i : Instr) (s : State) : Option Call :=
  match i with
  | .construct =>
    match s.ctrl.phase with
    | .s2 => some ⟨.resetEnable, none, .none, go .s3⟩
    | .s3 => some ⟨.resetMemory, none, .none, go .w1⟩
    | .w1 => some (pollCall .s5)
    | _ => none
  | .toOpi =>
    match s.ctrl.phase with
    | .o1 => some ⟨.readCr2, some 0, .read 1, keepMode .o2⟩
    | .o2 => some ⟨.writeEnable, none, .none, go .o3⟩
    | .o3 => some ⟨.writeCr2, some 0, .write [opiValue s.ctrl.tmp], go .o4⟩
    | .w1 => some (pollCall .o6)
    | _ => none
  | .toSpi =>
    match s.ctrl.phase with
    | .x1 => some ⟨.readCr2, some 0, .read 1, keepMode .x2⟩
    | .x2 => some ⟨.writeEnable, none, .none, go .x3⟩
    | .x3 => some ⟨.writeCr2, some 0, .write [spiValue s.ctrl.tmp], go .x4⟩
    | .w1 => some (pollCall .x6)
    | _ => none
  | .readId => if s.ctrl.phase = .i1 then some ⟨.readId, none, .read 3, go .i2⟩ else none
  | .readStatusRegister => if s.ctrl.phase = .rs1 then some ⟨.readSr, none, .read 1, keepByte⟩ else none
  | .readConfigurationRegister => if s.ctrl.phase = .rc1 then some ⟨.readCr, none, .read 1, keepByte⟩ else none
  | .readConfigurationRegister2 => if s.ctrl.phase = .rq1 then some ⟨.readCr2, some s.x.a, .read 1, keepByte⟩ else none
  | .writeStatusAndConfigurationRegister => mutateCall .writeSrCr none (.write [s.x.v0, s.x.v1]) .fin s
  | .writeConfigurationRegister2 => mutateCall .writeCr2 (some s.x.a) (.write [s.x.v0]) .fin s
  | .readMemory => if s.ctrl.phase = .b1 then some ⟨.readMem, some s.x.a, .read s.x.n.toNat, go .b2⟩ else none
  | .writeMemory => mutateCall .pageProgram (some s.seq.cursor) (.write (chunkData s)) .p6 s
  | .pageProgram => mutateCall .pageProgram (some s.x.a) (.write (pageData s)) .g3 s
  | .eraseSector => mutateCall .sectorErase (some s.x.a) .none .fin s
  | .eraseBlock64k => mutateCall .blockErase64k (some s.x.a) .none .fin s
  | .eraseChip => mutateCall .chipErase none .none .fin s
  | _ => none

/-- G1 (R216). -/
def afterCheck (a n : Nat) (s : State) : State := if fitsPage a n then go .m1 s else abort .pageOverflow s

@[simp] theorem afterCheck_emode (a n : Nat) (s : State) : (afterCheck a n s).ctrl.emode = s.ctrl.emode := by
  unfold afterCheck; split <;> rfl

@[simp] theorem afterCheck_mmode (a n : Nat) (s : State) : (afterCheck a n s).ctrl.mmode = s.ctrl.mmode := by
  unfold afterCheck; split <;> rfl

/-- The next state of each micro-step that makes no call. -/
def microLocal (i : Instr) (s : State) : Option State :=
  match i with
  | .construct =>
    match s.ctrl.phase with
    | .s1 => some (constructTags s)
    | .s5 => some (constructDone s)
    | _ => none
  | .toOpi =>
    match s.ctrl.phase with
    | .o4 => some (retag .Opi s)
    | .o6 => some (finish s)
    | _ => none
  | .toSpi =>
    match s.ctrl.phase with
    | .x4 => some (retag .Spi s)
    | .x6 => some (finish s)
    | _ => none
  | .readId => if s.ctrl.phase = .i2 then some (storeId s) else none
  | .readMemory => if s.ctrl.phase = .b2 then some (storeBuffer s) else none
  | .writeStatusAndConfigurationRegister | .writeConfigurationRegister2 | .eraseSector | .eraseBlock64k | .eraseChip =>
    if s.ctrl.phase = .fin then some (finish s) else none
  | .pageProgram =>
    match s.ctrl.phase with
    | .g1 => some (afterCheck s.x.a.toNat s.x.n.toNat s)
    | .g3 => some (finish s)
    | _ => none
  | .writeMemory =>
    match s.ctrl.phase with
    | .p1 => some (splitStart s)
    | .p2 => some (splitTest s)
    | .p3 => some (splitRoom s)
    | .p4 => some (splitChunk s)
    | .p5 => some (go .g1 s)
    | .g1 => some (afterCheck s.seq.cursor.toNat s.seq.chunk.toNat s)
    | .p6 => some (splitAdvance s)
    | .p7 => some (finish s)
    | _ => none
  | .enableMemoryMapped =>
    match s.ctrl.phase with
    | .e1 => some (go .e2 s)
    | .e2 => some (go .e3 (enablePassthrough (readTemplate s.optab s.ctrl.emode) (writeTemplate s.optab s.ctrl.emode) s))
    | .e3 => some (finish { s with ctrl.mmode := .MemoryMapped })
    | _ => none
  | .disableMemoryMapped =>
    match s.ctrl.phase with
    | .f1 => some (go .f2 (disablePassthrough s))
    | .f2 => some (finish { s with ctrl.mmode := .Direct })
    | _ => none
  | _ => none

/-- A micro-step: the call it makes, or its next state, or neither. -/
def micro (c : Option Call) (t : Option State) (s : State) : Out :=
  match c with
  | some k => k.outcome s
  | none => t.elim (.fault .phaseOutsideOperation) Host.Outcome.next

theorem transaction_outcome (l : Lop) (a : Option Addr) (p : Payload) (f : State → State) (s : State) :
    (transaction l a p s fun t => .next (f t)) = Call.outcome ⟨l, a, p, f⟩ s := by
  unfold transaction Call.outcome
  dsimp only
  cases transact ⟨build s.optab s.ctrl.emode l a, p⟩ s with
  | next c => cases hc : c.ok <;> simp [hc]
  | fault f => rfl
  | refused r => rfl

theorem command_outcome (l : Lop) (a : Option Addr) (p : Payload) (q : Phase) (s : State) :
    command l a p q s = Call.outcome ⟨l, a, p, go q⟩ s := transaction_outcome l a p (go q) s

theorem pollWip_outcome (p : Phase) (s : State) : pollWip p s = (pollCall p).outcome s :=
  transaction_outcome .readSr none (.read 1) (afterPoll p) s

theorem mutate_micro (l : Lop) (a : Option Addr) (q : Payload) (p : Phase) (s : State) :
    mutate l a q p s = micro (mutateCall l a q p s) none s := by
  unfold mutate mutateCall
  cases s.ctrl.phase <;> first
    | rfl
    | exact command_outcome ..
    | exact pollWip_outcome ..

theorem checkPage_next (a n : Nat) (s : State) : checkPage a n s = .next (afterCheck a n s) := by
  unfold checkPage afterCheck; split <;> rfl

/-- What each of the seventeen host operations does away from `IDLE`. -/
theorem exec_micro {i : Instr} {op : Byte} {s : State} (hi : i.requestCode = some op) (hp : s.ctrl.phase ≠ .idle) :
    exec i s = micro (microCall i s) (microLocal i s) s := by
  cases i
  case construct =>
    simp only [exec, execConstruct, microCall, microLocal]
    cases h : s.ctrl.phase <;> first
      | exact absurd h hp
      | rfl
      | exact command_outcome ..
      | exact pollWip_outcome ..
  case toOpi =>
    simp only [exec, execToOpi, microCall, microLocal]
    cases h : s.ctrl.phase <;> first
      | exact absurd h hp
      | rfl
      | exact transaction_outcome ..
      | exact command_outcome ..
      | exact pollWip_outcome ..
  case toSpi =>
    simp only [exec, execToSpi, microCall, microLocal]
    cases h : s.ctrl.phase <;> first
      | exact absurd h hp
      | rfl
      | exact transaction_outcome ..
      | exact command_outcome ..
      | exact pollWip_outcome ..
  case readId =>
    simp only [exec, execReadId, microCall, microLocal]
    cases h : s.ctrl.phase <;> first
      | exact absurd h hp
      | rfl
      | exact command_outcome ..
  case readStatusRegister =>
    simp only [exec, execReadStatusRegister, microCall, microLocal]
    cases h : s.ctrl.phase <;> first
      | exact absurd h hp
      | rfl
      | exact transaction_outcome ..
  case readConfigurationRegister =>
    simp only [exec, execReadConfigurationRegister, microCall, microLocal]
    cases h : s.ctrl.phase <;> first
      | exact absurd h hp
      | rfl
      | exact transaction_outcome ..
  case readConfigurationRegister2 =>
    simp only [exec, execReadConfigurationRegister2, microCall, microLocal]
    cases h : s.ctrl.phase <;> first
      | exact absurd h hp
      | rfl
      | exact transaction_outcome ..
  case writeStatusAndConfigurationRegister =>
    simp only [exec, execWriteStatusAndConfigurationRegister, microCall, microLocal, mutate_micro, mutateCall]
    cases h : s.ctrl.phase <;> first
      | exact absurd h hp
      | rfl
  case writeConfigurationRegister2 =>
    simp only [exec, execWriteConfigurationRegister2, microCall, microLocal, mutate_micro, mutateCall]
    cases h : s.ctrl.phase <;> first
      | exact absurd h hp
      | rfl
  case readMemory =>
    simp only [exec, execReadMemory, microCall, microLocal]
    cases h : s.ctrl.phase <;> first
      | exact absurd h hp
      | rfl
      | exact command_outcome ..
  case writeMemory =>
    simp only [exec, execWriteMemory, microCall, microLocal, mutate_micro, mutateCall]
    cases h : s.ctrl.phase <;> first
      | exact absurd h hp
      | rfl
      | exact checkPage_next ..
  case pageProgram =>
    simp only [exec, execPageProgram, microCall, microLocal, mutate_micro, mutateCall]
    cases h : s.ctrl.phase <;> first
      | exact absurd h hp
      | rfl
      | exact checkPage_next ..
  case eraseSector =>
    simp only [exec, execEraseSector, microCall, microLocal, mutate_micro, mutateCall]
    cases h : s.ctrl.phase <;> first
      | exact absurd h hp
      | rfl
  case eraseBlock64k =>
    simp only [exec, execEraseBlock64k, microCall, microLocal, mutate_micro, mutateCall]
    cases h : s.ctrl.phase <;> first
      | exact absurd h hp
      | rfl
  case eraseChip =>
    simp only [exec, execEraseChip, microCall, microLocal, mutate_micro, mutateCall]
    cases h : s.ctrl.phase <;> first
      | exact absurd h hp
      | rfl
  case enableMemoryMapped =>
    simp only [exec, execEnableMemoryMapped, microCall, microLocal]
    cases h : s.ctrl.phase <;> first
      | exact absurd h hp
      | rfl
  case disableMemoryMapped =>
    simp only [exec, execDisableMemoryMapped, microCall, microLocal]
    cases h : s.ctrl.phase <;> first
      | exact absurd h hp
      | rfl
  all_goals cases hi

/-- A micro-step's call, when it goes through: what follows it, in the state after the call. -/
theorem outcome_ok {m : EMode} {k : Call} {s : State} {i : Instr} (h : Connected m s)
    (hi : wireInstr m k.lop (build s.optab m k.lop k.addr).address k.payload = some i) (hw : i.wf = true)
    (hb : s.chip.wip = true → k.lop = .readSr) (hr : reaches k.lop (Lop.uses k.lop k.addr) k.payload) :
    ∃ d u, k.outcome s = .next (k.next
      { called s (okEvent s k.lop k.addr (eventData k.payload true
            (answerOf k.lop (Lop.uses k.lop k.addr) k.payload s.chip s.env.rx)))
          (response k.lop (Lop.uses k.lop k.addr) k.payload s.env.draws s.chip)
          (answerOf k.lop (Lop.uses k.lop k.addr) k.payload s.chip s.env.rx) with env.draws := d, env.undoc := u }) ∧
      u = (s.env.undoc || marks k.lop (Lop.uses k.lop k.addr) k.payload s.chip) ∧ (k.lop ≠ .resetMemory → d = s.env.draws) := by
  obtain ⟨d, u, ht, h1, h2⟩ := transact_build_ok h hi hw hb hr
  refine ⟨d, u, ?_, h1, h2⟩
  unfold Call.outcome
  rw [h.tag, ht]
  simp only [if_true]
  congr 2
  unfold afterCall called okEvent callEvent
  rw [h.tag]
  obtain ⟨tab, ctrl, seq, x, xport, chip, trace, env⟩ := s
  obtain ⟨script, req, reqs, wire, done, calls, draws, rx, loaded, undoc⟩ := env
  have := h.bus
  dsimp only at this ⊢
  subst this
  rfl

/-- The same, for a command that draws nothing and can mark no undescribed bit. -/
theorem outcome_ok_plain {m : EMode} {k : Call} {s : State} {i : Instr} (h : Connected m s)
    (hi : wireInstr m k.lop (build s.optab m k.lop k.addr).address k.payload = some i) (hw : i.wf = true)
    (hb : s.chip.wip = true → k.lop = .readSr) (hr : reaches k.lop (Lop.uses k.lop k.addr) k.payload)
    (hl : k.lop ∉ [.writeSrCr, .writeCr2, .resetMemory]) :
    k.outcome s = .next (k.next
      (called s (okEvent s k.lop k.addr (eventData k.payload true
            (answerOf k.lop (Lop.uses k.lop k.addr) k.payload s.chip s.env.rx)))
          (response k.lop (Lop.uses k.lop k.addr) k.payload s.env.draws s.chip)
          (answerOf k.lop (Lop.uses k.lop k.addr) k.payload s.chip s.env.rx))) := by
  obtain ⟨d, u, h1, h2, h3⟩ := outcome_ok h hi hw hb hr
  simp at hl
  rw [h1, h2, marks_eq_false (by simp [hl]), Bool.or_false, h3 hl.2.2]
  rfl

/-- What each of the seventeen host operations does at `IDLE`: the dispatcher (R302). -/
theorem exec_idle {i : Instr} {op : Byte} {s : State} (hi : i.requestCode = some op) (hp : s.ctrl.phase = .idle) :
    exec i s = dispatch op (firstStep i) (barOf i s) s := by
  cases i
  case construct => cases hi; simp only [exec, execConstruct, hp]; rfl
  case toOpi => cases hi; simp only [exec, execToOpi, hp]; rfl
  case toSpi => cases hi; simp only [exec, execToSpi, hp]; rfl
  case readId => cases hi; simp only [exec, execReadId, hp]; rfl
  case readStatusRegister => cases hi; simp only [exec, execReadStatusRegister, hp]; rfl
  case readConfigurationRegister => cases hi; simp only [exec, execReadConfigurationRegister, hp]; rfl
  case readConfigurationRegister2 => cases hi; simp only [exec, execReadConfigurationRegister2, hp]; rfl
  case writeStatusAndConfigurationRegister =>
    cases hi; simp only [exec, execWriteStatusAndConfigurationRegister, hp]; rfl
  case writeConfigurationRegister2 => cases hi; simp only [exec, execWriteConfigurationRegister2, hp]; rfl
  case readMemory => cases hi; simp only [exec, execReadMemory, hp]; rfl
  case writeMemory => cases hi; simp only [exec, execWriteMemory, hp]; rfl
  case pageProgram => cases hi; simp only [exec, execPageProgram, hp]; rfl
  case eraseSector => cases hi; simp only [exec, execEraseSector, hp]; rfl
  case eraseBlock64k => cases hi; simp only [exec, execEraseBlock64k, hp]; rfl
  case eraseChip => cases hi; simp only [exec, execEraseChip, hp]; rfl
  case enableMemoryMapped => cases hi; simp only [exec, execEnableMemoryMapped, hp]; rfl
  case disableMemoryMapped => cases hi; simp only [exec, execDisableMemoryMapped, hp]; rfl
  all_goals cases hi

/-- A wire command's meaning is the chip's step. -/
theorem exec_wire {i : Instr} {q : EMode × Lop × Option Addr × Payload} (h : i.wireParts = some q) (s : State) :
    exec i s = chipStep i s := by
  cases i <;> first
    | (cases h; done)
    | rfl

/-! ### The step -/

/-- A decoded request is a host operation, with the code it was decoded from. -/
theorem decodeRequest_code {op : Byte} {i : Instr} (h : decodeRequest op = .ok i) : i.requestCode = some op := by
  unfold decodeRequest at h
  have ho : op = BitVec.ofNat 8 op.toNat := by simp
  split at h <;> first
    | (cases h; rename_i hh; rw [hh] at ho; rw [ho]; rfl)
    | cases h

/-- A decoded transaction is a wire command. -/
theorem decodeTxn_parts {t : Config.OpTab} {x : Txn} {i : Instr} (h : decodeTxn t x = .ok i) :
    ∃ q, i.wireParts = some q ∧ q.2.2.2 = x.payload := by
  obtain ⟨m, l, hw, _, _⟩ := decodeTxn_ok h
  exact ⟨_, wireInstr_parts hw, rfl⟩

/-- What answers a `Read` is a reading command. -/
theorem dir_of_read {i : Instr} {m : EMode} {l : Lop} {a : Option Addr} {n : Nat}
    (h : i.wireParts = some (m, l, a, .read n)) : l.dir = .read := by
  cases i <;> cases h <;> rfl

/-- The five ways a step answers a next state: the completion agent; a transaction on the bus; the request or the operation of
the controller; a reserved request; the host. -/
theorem step_next {s t : State} (h : step s = .next t) :
    (s.chip.wip = true ∧ s.env.done.head = true ∧ t = chipDone (asked s)) ∨
    (∃ x i q, s.env.wire = some x ∧ decodeTxn s.optab x = .ok i ∧ i.wireParts = some q ∧
      chipStep i (asked s) = .next t) ∨
    (s.env.wire = none ∧ (s.ctrl.phase ≠ .idle ∨ s.env.req = true) ∧
      ∃ i, decodeRequest s.x.op = .ok i ∧ i.requestCode = some s.x.op ∧ exec i (asked s) = .next t) ∨
    (s.env.wire = none ∧ s.ctrl.phase = .idle ∧ s.env.req = true ∧ 0x11 ≤ s.x.op.toNat ∧
      dispatchReserved (asked s) = .next t) ∨
    (s.env.wire = none ∧ s.ctrl.phase = .idle ∧ s.env.req = false ∧ hostTurn (asked s) = .next t) := by
  unfold step at h
  cases ht : turn s with
  | chipDone =>
    rw [ht] at h
    left
    unfold turn at ht
    split at ht
    · rename_i hc
      simp only [Bool.and_eq_true] at hc
      cases h
      exact ⟨hc.1, hc.2, rfl⟩
    · unfold ctrlTurn at ht
      repeat' split at ht
      all_goals cases ht
  | instr i =>
    rw [ht] at h
    dsimp only at h
    unfold turn at ht
    split at ht
    · cases ht
    · split at ht
      · rename_i x hx
        split at ht
        · rename_i j hj
          cases ht
          obtain ⟨q, hq, -⟩ := decodeTxn_parts hj
          rw [exec_wire hq] at h
          exact .inr (.inl ⟨x, i, q, hx, hj, hq, h⟩)
        · cases ht
      · rename_i hx
        split at ht
        · cases ht
        · rename_i hc
          unfold ctrlTurn at ht
          split at ht
          · rename_i j hj
            cases ht
            refine .inr (.inr (.inl ⟨hx, ?_, i, hj, decodeRequest_code hj, h⟩))
            simp only [Bool.and_eq_true, decide_eq_true_eq, Bool.not_eq_true', not_and, Bool.not_eq_false] at hc
            by_cases hp : s.ctrl.phase = .idle
            · exact .inr (hc hp)
            · exact .inl hp
          · split at ht <;> cases ht
  | reserved =>
    rw [ht] at h
    dsimp only at h
    unfold turn at ht
    split at ht
    · cases ht
    · split at ht
      · split at ht <;> cases ht
      · rename_i hx
        split at ht
        · cases ht
        · rename_i hc
          unfold ctrlTurn at ht
          split at ht
          · cases ht
          · rename_i e he
            split at ht
            · rename_i hp
              refine .inr (.inr (.inr (.inl ⟨hx, hp, ?_, ?_, h⟩)))
              · simpa [hp] using hc
              · unfold decodeRequest at he
                by_contra hlt
                have : s.x.op.toNat ≤ 16 := by omega
                generalize s.x.op.toNat = n at this he
                interval_cases n <;> cases he
            · cases ht
  | host =>
    rw [ht] at h
    dsimp only at h
    unfold turn at ht
    split at ht
    · cases ht
    · split at ht
      · split at ht <;> cases ht
      · rename_i hx
        split at ht
        · rename_i hc
          simp only [Bool.and_eq_true, decide_eq_true_eq, Bool.not_eq_true'] at hc
          exact .inr (.inr (.inr (.inr ⟨hx, hc.1, hc.2, h⟩)))
        · unfold ctrlTurn at ht
          repeat' split at ht
          all_goals cases ht
  | stuck f =>
    rw [ht] at h
    cases h

end Sys2Proof.Machine
end

