-- ==== Sys2Proof/Laws/Flags.lean ====
section
/-! SUPPORT. The flags after each update of the chip's registers. -/

namespace Sys2Proof.Machine

/-! ### Single bits -/

theorem setBit_true_0 (b : Byte) : setBit b 0 true = b ||| 0x01#8 := rfl

theorem setBit_true_1 (b : Byte) : setBit b 1 true = b ||| 0x02#8 := rfl

theorem setBit_false_01 (b : Byte) : setBit (setBit b 0 false) 1 false = b &&& 0xFC#8 := by
  simp only [setBit, Bool.false_eq_true, if_false]
  rw [BitVec.and_assoc]
  rfl

/-- Two bytes agree on bits 1:0 exactly when their two low bits agree (R187). -/
theorem and_three_eq (a b : Byte) :
    a &&& 0x03#8 = b &&& 0x03#8 ↔ a.getLsbD 0 = b.getLsbD 0 ∧ a.getLsbD 1 = b.getLsbD 1 := by
  constructor
  · intro h
    have h0 := congrArg (fun x => x.getLsbD 0) h
    have h1 := congrArg (fun x => x.getLsbD 1) h
    simp at h0 h1
    exact ⟨h0, h1⟩
  · rintro ⟨h0, h1⟩
    ext i hi
    interval_cases i <;> simp_all

/-- Bits 7:2 of one byte and 1:0 of another. -/
theorem mergeBits_low (a b : Byte) (i : Nat) (hi : i < 2) : (mergeBits undescribed a b).getLsbD i = a.getLsbD i := by
  interval_cases i <;> simp [mergeBits, undescribed]

/-- A byte stored over another leaves it as it was exactly when the undescribed bits agree. -/
theorem mergeBits_undescribed (a b : Byte) : mergeBits undescribed a b = a ↔ b &&& 0xFC = a &&& 0xFC := by
  have hm : ∀ k : Nat, k < 8 → (mergeBits undescribed a b).getLsbD k = if k < 2 then a.getLsbD k else b.getLsbD k := by
    intro k hk
    unfold mergeBits undescribed
    interval_cases k <;> simp
  have hn : ∀ (c : Byte) (k : Nat), k < 8 → (c &&& 0xFC).getLsbD k = if k < 2 then false else c.getLsbD k := by
    intro c k hk
    interval_cases k <;> simp
  simp only [BitVec.eq_of_getLsbD_eq_iff]
  refine forall_congr' fun k => forall_congr' fun hk => ?_
  rw [hm k hk, hn b k hk, hn a k hk]
  split <;> simp

/-! ### WIP, WEL, and the chip's mode -/

section chip
variable (c : Chip)

@[simp] theorem raiseWip_wip : c.raiseWip.wip = true := by simp [Chip.raiseWip, Chip.wip, srWip, setBit]
@[simp] theorem raiseWip_wel : c.raiseWip.wel = c.wel := by simp [Chip.raiseWip, Chip.wel, srWel, setBit]
@[simp] theorem raiseWip_cr20 : c.raiseWip.cr20 = c.cr20 := rfl
@[simp] theorem raiseWip_emode : c.raiseWip.emode = c.emode := rfl
@[simp] theorem raiseWip_rsten : c.raiseWip.rsten = c.rsten := rfl
@[simp] theorem setWel_wip : c.setWel.wip = c.wip := by simp [Chip.setWel, Chip.wip, srWip, setBit]
@[simp] theorem setWel_wel : c.setWel.wel = true := by simp [Chip.setWel, Chip.wel, srWel, setBit]
@[simp] theorem setWel_emode : c.setWel.emode = c.emode := rfl
@[simp] theorem setWel_cr20 : c.setWel.cr20 = c.cr20 := rfl
@[simp] theorem complete_wip : c.complete.wip = false := by simp [Chip.complete, Chip.wip, srWip, setBit]
@[simp] theorem complete_wel : c.complete.wel = false := by simp [Chip.complete, Chip.wel, srWel, setBit]
@[simp] theorem complete_emode : c.complete.emode = c.emode := rfl
@[simp] theorem complete_cr20 : c.complete.cr20 = c.cr20 := rfl
@[simp] theorem complete_array : c.complete.array = c.array := rfl
@[simp] theorem complete_rsten : c.complete.rsten = c.rsten := rfl
@[simp] theorem complete_memoryWf : c.complete.memoryWf = c.memoryWf := rfl
@[simp] theorem asked_wip : c.asked.wip = c.wip := rfl
@[simp] theorem asked_wel : c.asked.wel = c.wel := rfl
@[simp] theorem asked_emode : c.asked.emode = c.emode := rfl
@[simp] theorem asked_cr20 : c.asked.cr20 = c.cr20 := rfl
@[simp] theorem asked_array : c.asked.array = c.array := rfl
@[simp] theorem asked_rsten : c.asked.rsten = false := rfl
@[simp] theorem asked_memoryWf : c.asked.memoryWf = c.memoryWf := rfl

theorem emode_spi : c.emode = some .Spi ↔ c.cr20.getLsbD 0 = false ∧ c.cr20.getLsbD 1 = false := by
  unfold Chip.emode Chip.opiEn Chip.cr2B1
  cases c.cr20.getLsbD 0 <;> cases c.cr20.getLsbD 1 <;> simp

theorem emode_opi : c.emode = some .Opi ↔ c.cr20.getLsbD 0 = true ∧ c.cr20.getLsbD 1 = false := by
  unfold Chip.emode Chip.opiEn Chip.cr2B1
  cases c.cr20.getLsbD 0 <;> cases c.cr20.getLsbD 1 <;> simp

end chip

/-- Writing back the register with bit 0 set selects Opi, when bit 1 was clear (R181). -/
theorem opiValue_bits (b : Byte) : (opiValue b).getLsbD 0 = true ∧ (opiValue b).getLsbD 1 = b.getLsbD 1 := by
  simp [opiValue]

/-- Writing back the register with bits 1:0 clear selects Spi (R184). -/
theorem spiValue_bits (b : Byte) : (spiValue b).getLsbD 0 = false ∧ (spiValue b).getLsbD 1 = false := by
  simp [spiValue]

/-- The values the mode switches write back keep bits 7:2 (R97). -/
theorem opiValue_high (b : Byte) : opiValue b &&& 0xFC = b &&& 0xFC := by
  apply BitVec.eq_of_getLsbD_eq
  intro k hk
  interval_cases k <;> simp [opiValue]

theorem spiValue_high (b : Byte) : spiValue b &&& 0xFC = b &&& 0xFC := by
  simp [spiValue, BitVec.and_assoc]

/-- The registers after an effective reset: WIP set, WEL clear, the Spi mode (R261). -/
theorem resetRegisters_flags (k : Nat) (c : Chip) :
    (resetRegisters k c).wip = true ∧ (resetRegisters k c).wel = false ∧ (resetRegisters k c).emode = some .Spi := by
  refine ⟨?_, ?_, ?_⟩
  · simp only [resetRegisters, Chip.wip, srWip]; rw [mergeBits_low _ _ _ (by decide)]; rfl
  · simp only [resetRegisters, Chip.wel, srWel]; rw [mergeBits_low _ _ _ (by decide)]; rfl
  · rw [emode_spi]
    simp only [resetRegisters]
    rw [mergeBits_low _ _ _ (by decide), mergeBits_low _ _ _ (by decide)]
    exact ⟨rfl, rfl⟩

end Sys2Proof.Machine
end

