-- ==== Sys2Proof/Laws/Frames.lean ====
section
/-! SUPPORT. What each kind of micro-step leaves alone, and what a step can do to the trace, the chip and the tags. -/

namespace Sys2Proof.Machine

/-- A micro-step away from `IDLE`, when it answers. -/
theorem exec_micro_next {i : Instr} {op : Byte} {s t : State} (hi : i.requestCode = some op)
    (hp : s.ctrl.phase ≠ .idle) (h : exec i s = .next t) :
    (∃ k c, microCall i s = some k ∧ transact ⟨build s.optab s.ctrl.emode k.lop k.addr, k.payload⟩ s = .next c ∧
      t = if c.ok then k.next c.s else abort .transportError c.s) ∨
    (microCall i s = none ∧ microLocal i s = some t) := by
  rw [exec_micro hi hp] at h
  unfold micro at h
  cases hk : microCall i s with
  | some k =>
    rw [hk] at h
    dsimp only [Call.outcome] at h
    cases ht : transact ⟨build s.optab s.ctrl.emode k.lop k.addr, k.payload⟩ s with
    | next c => rw [ht] at h; cases h; exact .inl ⟨k, c, rfl, ht, rfl⟩
    | fault f => rw [ht] at h; cases h
    | refused r => rw [ht] at h; cases h
  | none =>
    rw [hk] at h
    cases hl : microLocal i s with
    | none => rw [hl] at h; cases h
    | some u => rw [hl] at h; cases h; exact .inr ⟨rfl, rfl⟩

/-- The parts of the state the controller's own registers do not touch after a call. -/
structure Carried (u v : State) : Prop where
  optab : v.optab = u.optab
  chip : v.chip = u.chip
  trace : v.trace = u.trace
  xport : v.xport = u.xport
  env : v.env = u.env
  seq : v.seq = u.seq
  cstate : v.ctrl.cstate = u.ctrl.cstate
  emode : v.ctrl.emode = u.ctrl.emode
  mmode : v.ctrl.mmode = u.ctrl.mmode
  cause : v.ctrl.cause = u.ctrl.cause
  op : v.x.op = u.x.op
  a : v.x.a = u.x.a
  n : v.x.n = u.x.n
  v0 : v.x.v0 = u.x.v0
  v1 : v.x.v1 = u.x.v1
  buf : v.x.buf = u.x.buf

theorem carried_go (p : Phase) (u : State) : Carried u (go p u) := by constructor <;> rfl
theorem carried_afterPoll (p : Phase) (u : State) : Carried u (afterPoll p u) := by constructor <;> rfl
theorem carried_keepMode (p : Phase) (u : State) : Carried u (keepMode p u) := by constructor <;> rfl
theorem carried_keepByte (u : State) : Carried u (keepByte u) := by constructor <;> rfl

theorem mutateCall_carried {l : Lop} {a : Option Addr} {q : Payload} {p : Phase} {s : State} {k : Call}
    (h : mutateCall l a q p s = some k) (u : State) : Carried u (k.next u) := by
  unfold mutateCall at h
  split at h <;> cases h
  · exact carried_go ..
  · exact carried_go ..
  · exact carried_afterPoll ..

/-- After an `Ok` call an operation changes only its phase, its scratch and result registers and the status. -/
theorem microCall_carried {i : Instr} {s : State} {k : Call} (h : microCall i s = some k) (u : State) :
    Carried u (k.next u) := by
  cases i
  case construct =>
    simp only [microCall] at h
    split at h <;> cases h
    · exact carried_go ..
    · exact carried_go ..
    · exact carried_afterPoll ..
  case toOpi =>
    simp only [microCall] at h
    split at h <;> cases h
    · exact carried_keepMode ..
    · exact carried_go ..
    · exact carried_go ..
    · exact carried_afterPoll ..
  case toSpi =>
    simp only [microCall] at h
    split at h <;> cases h
    · exact carried_keepMode ..
    · exact carried_go ..
    · exact carried_go ..
    · exact carried_afterPoll ..
  case readId => simp only [microCall] at h; split at h <;> cases h; exact carried_go ..
  case readMemory => simp only [microCall] at h; split at h <;> cases h; exact carried_go ..
  case readStatusRegister => simp only [microCall] at h; split at h <;> cases h; exact carried_keepByte ..
  case readConfigurationRegister => simp only [microCall] at h; split at h <;> cases h; exact carried_keepByte ..
  case readConfigurationRegister2 => simp only [microCall] at h; split at h <;> cases h; exact carried_keepByte ..
  case writeStatusAndConfigurationRegister => exact mutateCall_carried h u
  case writeConfigurationRegister2 => exact mutateCall_carried h u
  case writeMemory => exact mutateCall_carried h u
  case pageProgram => exact mutateCall_carried h u
  case eraseSector => exact mutateCall_carried h u
  case eraseBlock64k => exact mutateCall_carried h u
  case eraseChip => exact mutateCall_carried h u
  all_goals cases h

/-- A micro-step that makes no call leaves the chip and the operand registers. -/
theorem microLocal_frame {i : Instr} {s t : State} (h : microLocal i s = some t) :
    t.optab = s.optab ∧ t.chip = s.chip ∧ t.x.op = s.x.op ∧ t.x.a = s.x.a ∧ t.x.n = s.x.n ∧ t.x.v0 = s.x.v0 ∧ t.x.v1 = s.x.v1 ∧
      t.env.script = s.env.script ∧ t.env.req = s.env.req ∧ t.env.reqs = s.env.reqs ∧ t.env.wire = s.env.wire ∧
      t.env.undoc = s.env.undoc := by
  cases i <;> simp only [microLocal] at h
  case pageProgram =>
    split at h <;> cases h
    · unfold afterCheck; split <;> exact ⟨rfl, rfl, rfl, rfl, rfl, rfl, rfl, rfl, rfl, rfl, rfl, rfl⟩
    · exact ⟨rfl, rfl, rfl, rfl, rfl, rfl, rfl, rfl, rfl, rfl, rfl, rfl⟩
  case writeMemory =>
    split at h <;> cases h
    case h_6 => unfold afterCheck; split <;> exact ⟨rfl, rfl, rfl, rfl, rfl, rfl, rfl, rfl, rfl, rfl, rfl, rfl⟩
    all_goals exact ⟨rfl, rfl, rfl, rfl, rfl, rfl, rfl, rfl, rfl, rfl, rfl, rfl⟩
  all_goals first
    | cases h
    | (split at h <;> cases h <;> exact ⟨rfl, rfl, rfl, rfl, rfl, rfl, rfl, rfl, rfl, rfl, rfl, rfl⟩)

/-- The chip's step of a wire command leaves every part of the state but the chip and the bookkeeping. -/
theorem chipStep_frame {i : Instr} {q : EMode × Lop × Option Addr × Payload} {s t : State}
    (hq : i.wireParts = some q) (h : chipStep i s = .next t) :
    t.optab = s.optab ∧ t.ctrl = s.ctrl ∧ t.seq = s.seq ∧ t.x = s.x ∧ t.xport = s.xport ∧ t.trace = s.trace ∧
      t.env.script = s.env.script ∧ t.env.req = s.env.req ∧ t.env.reqs = s.env.reqs ∧ t.env.wire = none ∧
      reaches q.2.1 q.2.2.1 q.2.2.2 ∧ t.chip = response q.2.1 q.2.2.1 q.2.2.2 s.env.draws s.chip ∧
      t.env.undoc = (s.env.undoc || marks q.2.1 q.2.2.1 q.2.2.2 s.chip) := by
  obtain ⟨m, l, a, p⟩ := q
  obtain ⟨-, -, hr, d, u, rfl, rfl, -⟩ := chipStep_next hq h
  exact ⟨rfl, rfl, rfl, rfl, rfl, rfl, rfl, rfl, rfl, rfl, hr, rfl, rfl⟩

/-- A call, whatever its table, its descriptor and its result, leaves the controller, the sequencer, the host's registers and
the transport; the chip has taken at most one wire command. -/
theorem transact_frame {x : Txn} {s : State} {c : Called} (h : transact x s = .next c) :
    c.s.optab = s.optab ∧ c.s.ctrl = s.ctrl ∧ c.s.seq = s.seq ∧ c.s.x = s.x ∧ c.s.xport = s.xport ∧
      (∃ e, c.s.trace = s.trace ++ [e]) ∧
      c.s.env.script = s.env.script ∧ c.s.env.req = s.env.req ∧ c.s.env.reqs = s.env.reqs ∧
      (c.s.env.wire = s.env.wire ∨ c.s.env.wire = none) ∧
      (c.s.chip = s.chip ∨ ∃ l a p, reaches l a p ∧ c.s.chip = response l a p s.env.draws s.chip) := by
  obtain ⟨-, ⟨-, rfl⟩ | ⟨ok, t, hd, -, rfl⟩⟩ := transact_next.mp h
  · exact ⟨rfl, rfl, rfl, rfl, rfl, ⟨_, rfl⟩, rfl, rfl, rfl, .inl rfl, .inl rfl⟩
  · unfold deliver at hd
    split at hd
    · rename_i i hi
      obtain ⟨q, hq, -⟩ := decodeTxn_parts hi
      obtain ⟨h0, h1, h2, h3, h4, h5, h6, h7, h8, h9, h10, h11, hu⟩ := chipStep_frame hq hd
      exact ⟨h0, h1, h2, h3, h4, ⟨_, (logCall_trace ..).trans (congrArg (· ++ _) h5)⟩, h6, h7, h8,
      .inr h9, .inr ⟨_, _, _, h10, h11⟩⟩
    · cases hd

/-- The same of a descriptor built from a well-formed table: the command the chip has taken is the one it was built for. -/
theorem transact_build_chip {m : EMode} {l : Lop} {a : Option Addr} {p : Payload} {s : State} {c : Called}
    (ht : OpTab.wf s.optab = true) (h : transact ⟨build s.optab m l a, p⟩ s = .next c) :
    (c.s.chip = s.chip ∨ reaches l (Lop.uses l a) p ∧ c.s.chip = response l (Lop.uses l a) p s.env.draws s.chip) ∧
      ((c.s.env.undoc = s.env.undoc) ∨ c.s.env.undoc = (s.env.undoc || marks l (Lop.uses l a) p s.chip)) := by
  obtain ⟨-, ⟨-, rfl⟩ | ⟨-, -, -, hr, d, u, hc, hu, -⟩⟩ := transact_build_next ht h
  · exact ⟨.inl rfl, .inl rfl⟩
  · rw [hc]
    exact ⟨.inr ⟨hr, rfl⟩, .inr hu⟩

/-- A window access that is served (R248). -/
theorem windowRead_next {b : Bool} {w : Nat} {a : Addr} {s t : State} (h : windowRead b w a s = .next t) :
    s.xport.passthrough = true ∧ inWindow w a = true ∧ b = true ∧ windowAccess w a s = .next t := by
  unfold windowRead at h
  cases hp : s.xport.passthrough <;> cases hi : inWindow w a <;> cases b <;> simp_all

/-- A window access leaves everything but the chip, the trace and the bookkeeping. -/
theorem windowAccess_frame {w : Nat} {a : Addr} {s t : State} (h : windowAccess w a s = .next t) :
    t.optab = s.optab ∧ t.ctrl = s.ctrl ∧ t.seq = s.seq ∧ t.x = s.x ∧ t.xport = s.xport ∧
      (∃ bytes, t.trace = s.trace ++ [.windowRead a.toNat bytes]) ∧
      t.env.script = s.env.script ∧ t.env.req = s.env.req ∧ t.env.wire = none ∧ t.env.reqs = s.env.reqs ∧
      t.env.undoc = s.env.undoc ∧
      ∃ l a' p, l.dir = .read ∧ reaches l a' p ∧ t.chip = response l a' p s.env.draws s.chip := by
  obtain ⟨d, u, -, hd, rfl⟩ := windowAccess_next.mp h
  unfold deliver at hd
  split at hd
  · rename_i i hi
    obtain ⟨⟨m, l, a', p⟩, hq, hp⟩ := decodeTxn_parts hi
    dsimp only at hp
    subst hp
    obtain ⟨h0, h1, h2, h3, h4, h5, h6, h7, h8, h9, h10, h11, hu⟩ := chipStep_frame hq hd
    rw [marks_read (dir_of_read hq), Bool.or_false] at hu
    exact ⟨h0, h1, h2, h3, h4, ⟨u.env.rx, by simp only [h5]⟩, h6, h7, h9, h8, hu, l, a', _, dir_of_read hq, h10, h11⟩
  · cases hd

/-- A micro-step that makes no call records at most one event, a passthrough call. -/
theorem microLocal_trace {i : Instr} {s t : State} (h : microLocal i s = some t) :
    t.trace = s.trace ∨ ∃ e, t.trace = s.trace ++ [e] := by
  cases i <;> simp only [microLocal] at h
  case pageProgram =>
    split at h <;> cases h
    · unfold afterCheck; split <;> exact .inl rfl
    · exact .inl rfl
  case writeMemory =>
    split at h <;> cases h
    case h_6 => unfold afterCheck; split <;> exact .inl rfl
    all_goals exact .inl rfl
  case enableMemoryMapped =>
    split at h <;> cases h
    · exact .inl rfl
    · exact .inr ⟨_, rfl⟩
    · exact .inl rfl
  case disableMemoryMapped =>
    split at h <;> cases h
    · exact .inr ⟨_, rfl⟩
    · exact .inl rfl
  all_goals first
    | cases h
    | (split at h <;> cases h <;> exact .inl rfl)

/-- A reading command leaves the chip but the latch of RESET_ENABLE (R73). -/
theorem response_read {l : Lop} {a : Option Addr} {p : Payload} {k : Nat} {c : Chip} (h : l.dir = .read) :
    response l a p k c = c.asked := by
  cases l <;> first | rfl | cases h

/-- The host's turn: nothing, a write of its own registers, a served window access, or a power cycle. -/
theorem hostTurn_next {s t : State} (h : hostTurn s = .next t) :
    (t.optab = s.optab ∧ t.ctrl = s.ctrl ∧ t.seq = s.seq ∧ t.xport = s.xport ∧ t.env.wire = s.env.wire ∧ t.env.reqs = s.env.reqs ∧
      t.env.undoc = s.env.undoc ∧ t.chip = s.chip ∧ t.trace = s.trace ∧ (s.x.buf.length = s.x.n.toNat → t.x.buf.length = t.x.n.toNat)) ∨
    (t.optab = s.optab ∧ t.ctrl = s.ctrl ∧ t.seq = s.seq ∧ t.xport = s.xport ∧ t.env.wire = none ∧ t.env.reqs = s.env.reqs ∧
      t.env.undoc = s.env.undoc ∧ t.x = s.x ∧ t.chip = s.chip.asked ∧ ∃ a bytes, t.trace = s.trace ++ [.windowRead a bytes]) ∨
    (∃ rest, s.env.script = .powerCycle :: rest ∧ t = powerOn (powerLoss { s with env.script := rest })) := by
  have win : ∀ (b : Bool) (w : Nat) (a : Addr) (rest : List HostAct),
      windowRead b w a { s with env.script := rest } = .next t →
      t.optab = s.optab ∧ t.ctrl = s.ctrl ∧ t.seq = s.seq ∧ t.xport = s.xport ∧ t.env.wire = none ∧ t.env.reqs = s.env.reqs ∧
        t.env.undoc = s.env.undoc ∧ t.x = s.x ∧ t.chip = s.chip.asked ∧ ∃ a bytes, t.trace = s.trace ++ [.windowRead a bytes] := by
    intro b w a rest h
    obtain ⟨-, -, -, h⟩ := windowRead_next h
    obtain ⟨h0, h1, h2, h3, h4, ⟨bytes, h5⟩, -, -, h6, h6', hu, l, a', p, h7, -, h8⟩ := windowAccess_frame h
    exact ⟨h0, h1, h2, h4, h6, h6', hu, h3, by rw [h8, response_read h7], _, bytes, h5⟩
  unfold hostTurn at h
  split at h
  · cases h; exact .inl ⟨rfl, rfl, rfl, rfl, rfl, rfl, rfl, rfl, rfl, id⟩
  · rename_i a rest hs
    cases a <;> simp only [hostMove] at h
    case load => exact .inr (.inl (win _ _ _ _ h))
    case fetch => exact .inr (.inl (win _ _ _ _ h))
    case store =>
      unfold windowStore at h
      split at h
      · split at h <;> cases h
      · cases h
    case powerCycle => cases h; exact .inr (.inr ⟨rest, hs, rfl⟩)
    case setN v =>
      cases h
      exact .inl ⟨rfl, rfl, rfl, rfl, rfl, rfl, rfl, rfl, rfl, fun _ => by simp [setLength, resize, freeBytes]; omega⟩
    case setBuf bytes =>
      cases h
      exact .inl ⟨rfl, rfl, rfl, rfl, rfl, rfl, rfl, rfl, rfl, fun _ => by
        simp [setBuffer]; exact Nat.mod_le _ _⟩
    all_goals (cases h; exact .inl ⟨rfl, rfl, rfl, rfl, rfl, rfl, rfl, rfl, rfl, id⟩)

end Sys2Proof.Machine
end

