-- ==== Sys2Proof/Laws/PerInstr.lean ====
section
/-! SUPPORT. One lemma for each constructor of `Instr`: an operation has exactly one encoding, a request code or a transaction
(R130, R134). -/

namespace Sys2Proof.Laws.OneEncoding

/-- The operation is a wire command or has a request code, and not both. -/
def Statement (i : Instr) : Prop := i.wireParts.isSome ≠ i.requestCode.isSome

theorem construct : Statement .construct := Bool.noConfusion
theorem toOpi : Statement .toOpi := Bool.noConfusion
theorem toSpi : Statement .toSpi := Bool.noConfusion
theorem readId : Statement .readId := Bool.noConfusion
theorem readStatusRegister : Statement .readStatusRegister := Bool.noConfusion
theorem readConfigurationRegister : Statement .readConfigurationRegister := Bool.noConfusion
theorem readConfigurationRegister2 : Statement .readConfigurationRegister2 := Bool.noConfusion
theorem writeStatusAndConfigurationRegister : Statement .writeStatusAndConfigurationRegister := Bool.noConfusion
theorem writeConfigurationRegister2 : Statement .writeConfigurationRegister2 := Bool.noConfusion
theorem readMemory : Statement .readMemory := Bool.noConfusion
theorem writeMemory : Statement .writeMemory := Bool.noConfusion
theorem pageProgram : Statement .pageProgram := Bool.noConfusion
theorem eraseSector : Statement .eraseSector := Bool.noConfusion
theorem eraseBlock64k : Statement .eraseBlock64k := Bool.noConfusion
theorem eraseChip : Statement .eraseChip := Bool.noConfusion
theorem enableMemoryMapped : Statement .enableMemoryMapped := Bool.noConfusion
theorem disableMemoryMapped : Statement .disableMemoryMapped := Bool.noConfusion
theorem resetEnableSpi : Statement .resetEnableSpi := Bool.noConfusion
theorem resetMemorySpi : Statement .resetMemorySpi := Bool.noConfusion
theorem writeEnableSpi : Statement .writeEnableSpi := Bool.noConfusion
theorem readSrSpi : Statement .readSrSpi := Bool.noConfusion
theorem readCrSpi : Statement .readCrSpi := Bool.noConfusion
theorem readCr2Spi (a : Addr) : Statement (.readCr2Spi a) := Bool.noConfusion
theorem writeSrCrSpi (sr : Byte) (cr : Byte) : Statement (.writeSrCrSpi sr cr) := Bool.noConfusion
theorem writeCr2Spi (a : Addr) (v : Byte) : Statement (.writeCr2Spi a v) := Bool.noConfusion
theorem readIdSpi : Statement .readIdSpi := Bool.noConfusion
theorem readMemSpi (a : Addr) (n : Nat) : Statement (.readMemSpi a n) := Bool.noConfusion
theorem pageProgramSpi (a : Addr) (data : List Byte) : Statement (.pageProgramSpi a data) := Bool.noConfusion
theorem sectorEraseSpi (a : Addr) : Statement (.sectorEraseSpi a) := Bool.noConfusion
theorem blockErase64kSpi (a : Addr) : Statement (.blockErase64kSpi a) := Bool.noConfusion
theorem chipEraseSpi : Statement .chipEraseSpi := Bool.noConfusion
theorem resetEnableOpi : Statement .resetEnableOpi := Bool.noConfusion
theorem resetMemoryOpi : Statement .resetMemoryOpi := Bool.noConfusion
theorem writeEnableOpi : Statement .writeEnableOpi := Bool.noConfusion
theorem readSrOpi : Statement .readSrOpi := Bool.noConfusion
theorem readCrOpi : Statement .readCrOpi := Bool.noConfusion
theorem readCr2Opi (a : Addr) : Statement (.readCr2Opi a) := Bool.noConfusion
theorem writeSrCrOpi (sr : Byte) (cr : Byte) : Statement (.writeSrCrOpi sr cr) := Bool.noConfusion
theorem writeCr2Opi (a : Addr) (v : Byte) : Statement (.writeCr2Opi a v) := Bool.noConfusion
theorem readIdOpi : Statement .readIdOpi := Bool.noConfusion
theorem readMemOpi (a : Addr) (n : Nat) : Statement (.readMemOpi a n) := Bool.noConfusion
theorem pageProgramOpi (a : Addr) (data : List Byte) : Statement (.pageProgramOpi a data) := Bool.noConfusion
theorem sectorEraseOpi (a : Addr) : Statement (.sectorEraseOpi a) := Bool.noConfusion
theorem blockErase64kOpi (a : Addr) : Statement (.blockErase64kOpi a) := Bool.noConfusion
theorem chipEraseOpi : Statement .chipEraseOpi := Bool.noConfusion

end Sys2Proof.Laws.OneEncoding
end

