-- ==== Sys2Proof/Tests/Slice0.lean ====
section
/-! SUPPORT. Tests of the model. What a test expects comes from the vectors of spec file 95, named in its comment (their opcodes
are the defaults of `OPTAB`), or from the rule it names. After them, for each statement that has hypotheses, a state and
operands that meet them. -/

namespace Sys2Proof.Tests

open Sys2Proof Sys2Proof.Machine

/-! ### Well-formedness: an ill-formed term for each check -/

theorem test_wf_empty_read : Instr.wf (.readMemSpi 0 0) = false := by decide
theorem test_wf_long_read : Instr.wf (.readMemOpi 0 4294967296) = false := by decide
theorem test_wf_empty_program : Instr.wf (.pageProgramSpi 0 []) = false := by decide
theorem test_wf_long_program : Instr.wf (.pageProgramOpi 0 (List.replicate 257 0)) = false := by
  show decide (1 ≤ (List.replicate 257 (0 : Byte)).length ∧ (List.replicate 257 (0 : Byte)).length ≤ 256) = false
  rw [List.length_replicate]; decide
theorem test_wf_full_page : Instr.wf (.pageProgramOpi 0 (List.replicate 256 0)) = true := by
  show decide (1 ≤ (List.replicate 256 (0 : Byte)).length ∧ (List.replicate 256 (0 : Byte)).length ≤ 256) = true
  rw [List.length_replicate]; decide

/-- The default tables with one cell changed. -/
def spoiled (m : EMode) (l : Lop) (e : Config.OpEntry) : Config.OpTab :=
  { defaultTab with
    spi := .of fun k => if m = .Spi ∧ k = l then e else defaultTab.entry .Spi k
    opi := .of fun k => if m = .Opi ∧ k = l then e else defaultTab.entry .Opi k }

theorem test_tables_duplicate_opcode : OpTab.distinct (spoiled .Spi .readCr ⟨0x05, 0, none⟩) = false := by decide
theorem test_tables_wide_spi_opcode : OpTab.spiFits (spoiled .Spi .readCr ⟨0x115, 0, none⟩) = false := by decide
theorem test_tables_short_address : OpTab.addressed (spoiled .Opi .sectorErase ⟨0x21DE, 0, some .bits24⟩) = false := by decide
theorem test_tables_no_dummies : OpTab.dummies (spoiled .Opi .readSr ⟨0x05FA, 0, some .bits32⟩) = false := by decide
theorem test_tables_read_dummies : OpTab.dummies (spoiled .Spi .readMem ⟨0x0C, 20, some .bits32⟩) = false := by decide
theorem test_tables_refused : OpTab.wf (spoiled .Spi .readCr ⟨0x05, 0, none⟩) = false := by decide

/-- A well-formed descriptor, to spoil. -/
def good : Descriptor := build defaultTab .Spi .readMem (some 0)

theorem test_descriptor_good : Descriptor.wf good = true := by decide
theorem test_descriptor_no_opcode : Descriptor.wf { good with opcode := none } = false := by decide
theorem test_descriptor_no_address : Descriptor.wf { good with address := none } = false := by decide
theorem test_descriptor_no_address_lines : Descriptor.wf { good with alines := none } = false := by decide
theorem test_descriptor_no_data_lines : Descriptor.wf { good with dlines := none } = false := by decide
theorem test_descriptor_dummy_write : Descriptor.wf { good with dir := .write } = false := by decide
theorem test_descriptor_short_address : Descriptor.wf { good with asize := some .bits24 } = false := by decide
theorem test_descriptor_inline : Descriptor.wf { good with inline := some [0] } = false := by decide
theorem test_template_with_address : Descriptor.templateWf good = false := by decide
theorem test_template_without_size : Descriptor.templateWf { good with address := none, asize := none } = false := by decide

/-! ### Decoding: the descriptors of vectors DV1 to DV28, bit by bit (R101 to R114) -/

/-- DV1. -/
theorem test_dv1_decodes : decodeTxn defaultTab
    ⟨⟨.one, .bits8, none, none, none, 0, some 0x66, none, .commandOnly, none⟩,
      .none⟩ = .ok .resetEnableSpi := by decide

/-- DV2. -/
theorem test_dv2_decodes : decodeTxn defaultTab
    ⟨⟨.one, .bits8, none, none, none, 0, some 0x99, none, .commandOnly, none⟩,
      .none⟩ = .ok .resetMemorySpi := by decide

/-- DV3. -/
theorem test_dv3_decodes : decodeTxn defaultTab
    ⟨⟨.one, .bits8, none, none, none, 0, some 0x06, none, .commandOnly, none⟩,
      .none⟩ = .ok .writeEnableSpi := by decide

/-- DV4. -/
theorem test_dv4_decodes : decodeTxn defaultTab
    ⟨⟨.one, .bits8, none, none, some .one, 0, some 0x05, none, .read, none⟩,
      .read 1⟩ = .ok .readSrSpi := by decide

/-- DV5. -/
theorem test_dv5_decodes : decodeTxn defaultTab
    ⟨⟨.one, .bits8, none, none, some .one, 0, some 0x15, none, .read, none⟩,
      .read 1⟩ = .ok .readCrSpi := by decide

/-- DV6. -/
theorem test_dv6_decodes : decodeTxn defaultTab
    ⟨⟨.one, .bits8, some .one, some .bits32, some .one, 0, some 0x71, some 0x300, .read, none⟩,
      .read 1⟩ = .ok (.readCr2Spi 0x300) := by decide

/-- DV7. -/
theorem test_dv7_decodes : decodeTxn defaultTab
    ⟨⟨.one, .bits8, none, none, some .one, 0, some 0x01, none, .write, none⟩,
      .write [0x11, 0x22]⟩ = .ok (.writeSrCrSpi 0x11 0x22) := by decide

/-- DV8. -/
theorem test_dv8_decodes : decodeTxn defaultTab
    ⟨⟨.one, .bits8, some .one, some .bits32, some .one, 0, some 0x72, some 0x300, .write, none⟩,
      .write [0x5A]⟩ = .ok (.writeCr2Spi 0x300 0x5A) := by decide

/-- DV9. -/
theorem test_dv9_decodes : decodeTxn defaultTab
    ⟨⟨.one, .bits8, none, none, some .one, 0, some 0x9F, none, .read, none⟩,
      .read 3⟩ = .ok .readIdSpi := by decide

/-- DV10. -/
theorem test_dv10_decodes : decodeTxn defaultTab
    ⟨⟨.one, .bits8, some .one, some .bits32, some .one, 8, some 0x0C, some 0x1FFFFFF, .read, none⟩,
      .read 1⟩ = .ok (.readMemSpi 0x1FFFFFF 1) := by decide

/-- DV11. -/
theorem test_dv11_decodes : decodeTxn defaultTab
    ⟨⟨.one, .bits8, some .one, some .bits32, some .one, 0, some 0x12, some 0x1F0, .write, none⟩,
      .write [0x11, 0x22]⟩ = .ok (.pageProgramSpi 0x1F0 [0x11, 0x22]) := by decide

/-- DV12. -/
theorem test_dv12_decodes : decodeTxn defaultTab
    ⟨⟨.one, .bits8, some .one, some .bits32, none, 0, some 0x21, some 0x1234, .commandOnly, none⟩,
      .none⟩ = .ok (.sectorEraseSpi 0x1234) := by decide

/-- DV13. -/
theorem test_dv13_decodes : decodeTxn defaultTab
    ⟨⟨.one, .bits8, some .one, some .bits32, none, 0, some 0xDC, some 0x18000, .commandOnly, none⟩,
      .none⟩ = .ok (.blockErase64kSpi 0x18000) := by decide

/-- DV14. -/
theorem test_dv14_decodes : decodeTxn defaultTab
    ⟨⟨.one, .bits8, none, none, none, 0, some 0x60, none, .commandOnly, none⟩,
      .none⟩ = .ok .chipEraseSpi := by decide

/-- DV15. -/
theorem test_dv15_decodes : decodeTxn defaultTab
    ⟨⟨.eight, .bits16, none, none, none, 0, some 0x6699, none, .commandOnly, none⟩,
      .none⟩ = .ok .resetEnableOpi := by decide

/-- DV16. -/
theorem test_dv16_decodes : decodeTxn defaultTab
    ⟨⟨.eight, .bits16, none, none, none, 0, some 0x9966, none, .commandOnly, none⟩,
      .none⟩ = .ok .resetMemoryOpi := by decide

/-- DV17. -/
theorem test_dv17_decodes : decodeTxn defaultTab
    ⟨⟨.eight, .bits16, none, none, none, 0, some 0x06F9, none, .commandOnly, none⟩,
      .none⟩ = .ok .writeEnableOpi := by decide

/-- DV18. -/
theorem test_dv18_decodes : decodeTxn defaultTab
    ⟨⟨.eight, .bits16, some .eight, some .bits32, some .eight, 4, some 0x05FA, some 0, .read, none⟩,
      .read 1⟩ = .ok .readSrOpi := by decide

/-- DV19. -/
theorem test_dv19_decodes : decodeTxn defaultTab
    ⟨⟨.eight, .bits16, some .eight, some .bits32, some .eight, 4, some 0x15EA, some 1, .read, none⟩,
      .read 1⟩ = .ok .readCrOpi := by decide

/-- DV20. -/
theorem test_dv20_decodes : decodeTxn defaultTab
    ⟨⟨.eight, .bits16, some .eight, some .bits32, some .eight, 4, some 0x718E, some 0x300, .read, none⟩,
      .read 1⟩ = .ok (.readCr2Opi 0x300) := by decide

/-- DV21. -/
theorem test_dv21_decodes : decodeTxn defaultTab
    ⟨⟨.eight, .bits16, some .eight, some .bits32, some .eight, 0, some 0x01FE, some 0, .write, none⟩,
      .write [0x11, 0x22]⟩ = .ok (.writeSrCrOpi 0x11 0x22) := by decide

/-- DV22. -/
theorem test_dv22_decodes : decodeTxn defaultTab
    ⟨⟨.eight, .bits16, some .eight, some .bits32, some .eight, 0, some 0x728D, some 0x300, .write, none⟩,
      .write [0x5A]⟩ = .ok (.writeCr2Opi 0x300 0x5A) := by decide

/-- DV23. -/
theorem test_dv23_decodes : decodeTxn defaultTab
    ⟨⟨.eight, .bits16, some .eight, some .bits32, some .eight, 4, some 0x9F60, some 0, .read, none⟩,
      .read 3⟩ = .ok .readIdOpi := by decide

/-- DV24. -/
theorem test_dv24_decodes : decodeTxn defaultTab
    ⟨⟨.eight, .bits16, some .eight, some .bits32, some .eight, 20, some 0xEC13, some 0x1FFFFFF, .read, none⟩,
      .read 1⟩ = .ok (.readMemOpi 0x1FFFFFF 1) := by decide

/-- DV25. -/
theorem test_dv25_decodes : decodeTxn defaultTab
    ⟨⟨.eight, .bits16, some .eight, some .bits32, some .eight, 0, some 0x12ED, some 0x1F0, .write, none⟩,
      .write [0x11, 0x22]⟩ = .ok (.pageProgramOpi 0x1F0 [0x11, 0x22]) := by decide

/-- DV26. -/
theorem test_dv26_decodes : decodeTxn defaultTab
    ⟨⟨.eight, .bits16, some .eight, some .bits32, none, 0, some 0x21DE, some 0x1234, .commandOnly, none⟩,
      .none⟩ = .ok (.sectorEraseOpi 0x1234) := by decide

/-- DV27. -/
theorem test_dv27_decodes : decodeTxn defaultTab
    ⟨⟨.eight, .bits16, some .eight, some .bits32, none, 0, some 0xDC23, some 0x18000, .commandOnly, none⟩,
      .none⟩ = .ok (.blockErase64kOpi 0x18000) := by decide

/-- DV28. -/
theorem test_dv28_decodes : decodeTxn defaultTab
    ⟨⟨.eight, .bits16, none, none, none, 0, some 0x609F, none, .commandOnly, none⟩,
      .none⟩ = .ok .chipEraseOpi := by decide

/-! ### Decoding: the seventeen request codes (R130), and reserved ones (R132) -/

theorem test_code_00 : decodeRequest 0x00 = .ok .construct := by decide
theorem test_code_01 : decodeRequest 0x01 = .ok .toOpi := by decide
theorem test_code_02 : decodeRequest 0x02 = .ok .toSpi := by decide
theorem test_code_03 : decodeRequest 0x03 = .ok .readId := by decide
theorem test_code_04 : decodeRequest 0x04 = .ok .readStatusRegister := by decide
theorem test_code_05 : decodeRequest 0x05 = .ok .readConfigurationRegister := by decide
theorem test_code_06 : decodeRequest 0x06 = .ok .readConfigurationRegister2 := by decide
theorem test_code_07 : decodeRequest 0x07 = .ok .writeStatusAndConfigurationRegister := by decide
theorem test_code_08 : decodeRequest 0x08 = .ok .writeConfigurationRegister2 := by decide
theorem test_code_09 : decodeRequest 0x09 = .ok .readMemory := by decide
theorem test_code_0a : decodeRequest 0x0A = .ok .writeMemory := by decide
theorem test_code_0b : decodeRequest 0x0B = .ok .pageProgram := by decide
theorem test_code_0c : decodeRequest 0x0C = .ok .eraseSector := by decide
theorem test_code_0d : decodeRequest 0x0D = .ok .eraseBlock64k := by decide
theorem test_code_0e : decodeRequest 0x0E = .ok .eraseChip := by decide
theorem test_code_0f : decodeRequest 0x0F = .ok .enableMemoryMapped := by decide
theorem test_code_10 : decodeRequest 0x10 = .ok .disableMemoryMapped := by decide
theorem test_code_11 : decodeRequest 0x11 = .error .reservedRequest := by decide
theorem test_code_83 : decodeRequest 0x83 = .error .reservedRequest := by decide
theorem test_code_ff : decodeRequest 0xFF = .error .reservedRequest := by decide

/-- R258: a byte count the row has not, an opcode of no row, lines of neither mode. -/
theorem test_stray_shape : decodeTxn defaultTab ⟨build defaultTab .Spi .readSr none, .read 2⟩ = .error .badShape := by decide
theorem test_stray_opcode : decodeTxn defaultTab ⟨{ good with opcode := some 0x77 }, .read 1⟩ = .error .unknownOpcode := by decide
theorem test_stray_lines : decodeTxn defaultTab ⟨{ good with ilines := .eight }, .read 1⟩ = .error .unknownFormat := by decide

/-! ### Small states -/

/-- A constructed controller in mode `m` at the label `p` of the request `op`, the chip idle in the same mode. -/
def at_ (m : EMode) (p : Phase) (op : Byte) : State :=
  { State.reset with
    ctrl := { State.reset.ctrl with cstate := .ready, emode := m, phase := p }
    x := { State.reset.x with op := op, n := 2, buf := [0x11, 0x22] }
    chip.cr20 := match m with | .Spi => 0 | .Opi => 1 }

/-- A field of the next state. -/
def got {α : Type} (f : State → α) : Out → Option α
  | .next s => some (f s)
  | _ => none

/-- The stop, where there is one. -/
def stops : Out → Option Fault
  | .fault f => some f
  | _ => none

def bars : Out → Option Refusal
  | .refused r => some r
  | _ => none

/-- The chip of a state, set. -/
def withSr (sr : Byte) (s : State) : State := { s with chip.sr := sr }
def withArray (cells : List Host.Cell) (s : State) : State := { s with chip.array := cells }

/-- The chip alone, as in the vectors of section 2.9. -/
def spi (sr : Byte) : State := withSr sr (at_ .Spi .idle 0)
def opi (sr : Byte) : State := withSr sr (at_ .Opi .idle 0)

/-- A pair of tables that is not the default one: other opcodes, 7 dummy cycles, other register addresses. -/
def other : Config.OpTab := tableOf (fun l => spiOpcode l ^^^ 1) (fun l => opiOpcode l ^^^ 1) 7 0x10 0x20 0x30 0x40

/-- The state while `Ok` calls fail, delivered or lost. -/
def failing (d : CallDraw) (s : State) : State := { s with env.calls := ⟨[d], .ok⟩ }

/-! ### Wire commands: vectors CH1 to CH14 -/

theorem test_CH1 : got (·.chip.sr) (exec .writeEnableSpi (spi 0x00)) = some 0x02 := by decide
theorem test_CH2_sr : got (·.chip.sr) (exec (.pageProgramSpi 0x200 [0xA5, 0x3C]) (spi 0x02)) = some 0x03 := by decide
theorem test_CH2_array : got (·.chip.array) (exec (.pageProgramSpi 0x200 [0xA5, 0x3C]) (spi 0x02)) =
    some [(0x200, 0xA5), (0x201, 0x3C)] := by decide
theorem test_CH3 : (chipDone (spi 0x03)).chip.sr = 0x00 := by decide
theorem test_CH4 : got (·.chip) (exec (.pageProgramSpi 0x200 [0xA5]) (spi 0x00)) = some (spi 0x00).chip := by decide
theorem test_CH5 : got (·.chip.array)
    (exec (.pageProgramOpi 0x200 [0x3C]) (withArray [(0x200, 0xF0)] (opi 0x02))) = some [(0x200, 0x30)] := by decide
theorem test_CH6 : got (·.chip.array) (exec (.pageProgramSpi 0x2FE [1, 2, 3, 4]) (spi 0x02)) =
    some [(0x200, 3), (0x201, 4), (0x2FE, 1), (0x2FF, 2)] := by decide
theorem test_CH7 : got (·.chip) (exec .resetMemorySpi (spi 0x00)) = some (spi 0x00).chip := by decide
theorem test_CH8 : stops (exec .writeEnableSpi (spi 0x01)) = some .chipBusy := by decide
theorem test_CH9 : got (fun s => (s.env.rx, s.chip.sr)) (exec .readSrSpi (spi 0x01)) = some ([0x01], 0x01) := by decide
theorem test_CH10 : got (fun s => (s.chip.cr20, s.chip.sr, s.chip.emode)) (exec (.writeCr2Spi 0 0x01) (spi 0x02)) =
    some (0x01, 0x03, some .Opi) := by decide
theorem test_CH11 : got (·.env.rx) (exec .readSrOpi (opi 0x03)) = some [0x03] := by decide
theorem test_CH12 : stops (exec .readSrSpi (opi 0x00)) = some .wireModeMismatch := by decide
theorem test_CH13_latch : got (·.chip.rsten) (exec .resetEnableSpi (spi 0x02)) = some true := by decide
theorem test_CH14 : got (·.chip.array)
    (exec (.sectorEraseSpi 0x1ABC) (withArray [(0xFFF, 1), (0x1000, 2), (0x1FFF, 3), (0x2000, 4)] (spi 0x02))) =
    some [(0xFFF, 1), (0x2000, 4)] := by decide
theorem test_ER7 : got (·.chip.array)
    (exec (.blockErase64kOpi 0x18000) (withArray [(0xFFFF, 1), (0x10000, 2), (0x1FFFF, 3), (0x20000, 4)] (opi 0x02))) =
    some [(0xFFFF, 1), (0x20000, 4)] := by decide
theorem test_ER10 : got (·.chip.array) (exec .chipEraseSpi (withArray [(0, 1), (0x1FFFFFF, 2)] (spi 0x02))) = some [] := by
  decide
/-- MR1's write and the frame of R268: WIP and WEL are not writable. -/
theorem test_R268 : got (fun s => (s.chip.sr, s.chip.cr)) (exec (.writeSrCrSpi 0xFF 0x07) (spi 0x02)) = some (0xFF, 0x07) := by
  decide
theorem test_R268_low : got (·.chip.sr) (exec (.writeSrCrOpi 0x00 0x00) (opi 0x02)) = some 0x03 := by decide
theorem test_R267 : got (·.env.rx) (exec (.readCr2Opi 0) (opi 0x00)) = some [0x01] := by decide
theorem test_RD6 : got (·.env.rx) (exec (.readMemOpi 0x1FFFFFF 1) (withArray [(0x1FFFFFF, 0xDD)] (opi 0x00))) = some [0xDD] := by
  decide
theorem test_R274_range : stops (exec (.readMemSpi 0x1FFFFFF 2) (spi 0x00)) = some .chipOutsideArray := by decide
theorem test_U7 : stops (exec .readSrSpi { spi 0x00 with chip.cr20 := 0x02 }) = some .wireUndescribedMode := by decide

/-! ### Dispatch: vectors DS1 to DS24 -/

def ask (c : CState) (m : EMode) (mm : MMode) (op : Byte) : State :=
  { at_ m .idle op with ctrl := { (at_ m .idle op).ctrl with cstate := c, mmode := mm }, env.req := true }

theorem test_DS1 : got (·.ctrl.phase) (step (ask .unconstructed .Spi .Direct 0x00)) = some .s1 := by decide
theorem test_DS2 : got (·.x.st) (step (ask .unconstructed .Spi .Direct 0x03)) = some 0x05 := by decide
theorem test_DS4 : got (·.x.st) (step (ask .ready .Spi .Direct 0x00)) = some 0x05 := by decide
theorem test_DS5 : got (·.ctrl.phase) (step (ask .ready .Spi .Direct 0x01)) = some .o1 := by decide
theorem test_DS8 : got (·.x.st) (step (ask .ready .Opi .Direct 0x01)) = some 0x04 := by decide
theorem test_DS9 : got (·.x.st) (step (ask .ready .Spi .Direct 0x10)) = some 0x03 := by decide
theorem test_DS14 : got (·.x.st) (step (ask .ready .Spi .MemoryMapped 0x02)) = some 0x03 := by decide
theorem test_DS16 : got (·.x.st) (step (ask .ready .Spi .MemoryMapped 0x00)) = some 0x05 := by decide
theorem test_DS17 : got (·.x.st) (step (ask .ready .Spi .MemoryMapped 0x20)) = some 0x05 := by decide
theorem test_DS23 : got (fun s => (s.x.st, s.ctrl.cause))
    (step { ask .faulted .Spi .Direct 0xFF with ctrl.cause := 0x03 }) = some (0x03, 0x03) := by decide
/-- MR19, RD8, PS20. -/
theorem test_MR19 : bars (exec .writeConfigurationRegister2 { ask .ready .Spi .Direct 0x08 with x.v0 := 0x01 }) =
    some .modeBitsBehindController := by decide
theorem test_RD8 : bars (exec .readMemory { ask .ready .Spi .Direct 0x09 with x.n := 0 }) = some .zeroLength := by decide
theorem test_PS20 : bars (exec .writeMemory { ask .ready .Spi .Direct 0x0A with x.a := 0x1FFFF00, x.n := 257 }) =
    some .outsideArray := by decide

/-! ### A table word, placed and run as the first operation after reset (log entry 2) -/

theorem test_fetch_word_opi : got (fun s => (s.chip.sr, s.chip.emode)) (step (State.reset.withFetchWord 16 0x06F9)) =
    some (0x02, some .Opi) := by decide
theorem test_fetch_word_spi : got (fun s => (s.chip.rsten, s.chip.emode)) (step (State.reset.withFetchWord 8 0x66)) =
    some (true, some .Spi) := by decide
theorem test_fetch_word_host : got (·.ctrl.phase) (step (State.reset.withFetchWord 8 0x00)) = some .s1 := by decide

/-! ### Micro-steps -/

theorem test_MR2 : got (fun s => (s.chip.cr20, s.ctrl.phase))
    (exec .toOpi { withSr 0x02 (at_ .Spi .o3 0x01) with ctrl.tmp := 0xA4, chip.cr20 := 0xA4 }) = some (0xA5, .o4) := by decide
theorem test_MR5 : got (·.chip.cr20)
    (exec .toSpi { withSr 0x02 (at_ .Opi .x3 0x02) with ctrl.tmp := 0xA5, chip.cr20 := 0xA5 }) = some 0xA4 := by decide
theorem test_MR6 : got (fun s => (s.x.st, s.ctrl.emode, s.chip.emode))
    (exec .toOpi (failing .errDelivered (withSr 0x02 (at_ .Spi .o3 0x01)))) = some (0x02, .Spi, some .Opi) := by decide
theorem test_MR12 : got (fun s => (s.x.r0, s.trace))
    (exec .readConfigurationRegister { at_ .Opi .rc1 0x05 with chip.cr := 0x07 }) =
    some (0x07, [.call .read ⟨.eight, .bits16, some .eight, some .bits32, some .eight, 4, some 0x15EA, some 1, .read, none⟩
      (some [0x07]) true 0]) := by decide
/-- R11, R12, R119: the machine sends what its table says. -/
theorem test_other_table : got (fun s => (s.x.r0, s.trace))
    (exec .readConfigurationRegister { at_ .Opi .rc1 0x05 with chip.cr := 0x07, optab := other }) =
    some (0x07, [.call .read
      ⟨.eight, .bits16, some .eight, some .bits32, some .eight, 7, some 0x15EB, some 0x20, .read, none⟩
      (some [0x07]) true 0]) := by decide
theorem test_PR6_busy : got (fun s => (s.ctrl.phase, s.ctrl.tmp)) (exec .eraseSector (withSr 0x03 (at_ .Spi .w1 0x0C))) =
    some (.w1, 0x03) := by decide
theorem test_PR6_end : got (·.ctrl.phase) (exec .eraseSector (withSr 0xA0 (at_ .Spi .w1 0x0C))) = some .fin := by decide
theorem test_PR5 : got (fun s => (s.x.st, s.chip.rsten, s.ctrl.cstate))
    (exec .construct (failing .errLost { at_ .Spi .s3 0x00 with chip.rsten := true })) = some (0x02, true, .faulted) := by
  decide
theorem test_PS14_room : got (·.seq.maxChunk) (exec .writeMemory { at_ .Spi .p3 0x0A with seq.cursor := 0x64 }) = some 156 := by
  decide
theorem test_PS14_chunk : got (·.seq.chunk)
    (exec .writeMemory { at_ .Spi .p4 0x0A with seq.maxChunk := 256, seq.remaining := 76 }) = some 76 := by decide
theorem test_PS1 : got (·.ctrl.phase) (exec .writeMemory (at_ .Spi .p2 0x0A)) = some .p7 := by decide
theorem test_PG9 : got (·.ctrl.phase) (exec .pageProgram { at_ .Spi .g1 0x0B with x.a := 0x12345, x.n := 187 }) = some .m1 := by
  decide
theorem test_PG10 : got (fun s => (s.x.st, s.trace))
    (exec .pageProgram { at_ .Spi .g1 0x0B with x.a := 0x12345, x.n := 188 }) = some (0x01, []) := by decide
theorem test_PG8 : got (·.trace) (exec .pageProgram { withSr 0x02 (at_ .Spi .m2 0x0B) with x.a := 0x1F0 }) =
    some [.call .write ⟨.one, .bits8, some .one, some .bits32, some .one, 0, some 0x12, some 0x1F0, .write, none⟩
      (some [0x11, 0x22]) true 0] := by decide
theorem test_TG2 : got (·.xport.rdTpl) (exec .enableMemoryMapped (at_ .Opi .e2 0x0F)) =
    some (some ⟨.eight, .bits16, some .eight, some .bits32, some .eight, 20, some 0xEC13, none, .read, none⟩) := by decide
theorem test_TG3 : got (fun s => (s.ctrl.mmode, s.ctrl.emode))
    (exec .disableMemoryMapped { at_ .Opi .f2 0x10 with ctrl.mmode := .MemoryMapped }) = some (.Direct, .Opi) := by decide
theorem test_WL1 : littleEndian [0x10, 0x32, 0x54, 0x76] = 0x76543210 := by decide
theorem test_WL9 : bars (hostMove (.load 4 0) (at_ .Spi .idle 0)) = some .windowClosed := by decide

/-! ### Witnesses: for each statement with hypotheses, a state and operands that meet them

Each theorem is named for its statement. -/

theorem witness_DecodeEncodeAgree : OpTab.wf other = true ∧ Instr.wf (.pageProgramOpi 0xFFFFFFFF [0]) = true := by decide
theorem witness_EncodeDecodeAgree : decode defaultTab (.txn ⟨build defaultTab .Opi .readMem (some 0x1FFFFFF), .read 1⟩) =
    .ok (.readMemOpi 0x1FFFFFF 1) ∧ decode defaultTab (.request 0x10) = .ok .disableMemoryMapped := by decide
theorem witness_LinesFollowMode : (build defaultTab .Opi .readSr none).address ≠ none ∧
    (build defaultTab .Opi .readSr none).dir ≠ .commandOnly := by decide
theorem witness_TablesAndBuiltDescriptorsWellFormed : OpTab.wf other = true ∧ Lop.readMem.operandAddress = true ∧ some (0 : Addr) ≠ none ∧
    Lop.readSr.operandAddress = false := by decide

/-- A transaction on the bus of a busy chip whose completion is held back. -/
theorem witness_StepRunsDecodedOperation_bus :
    ((withSr 0x01 (at_ .Spi .idle 0)).chip.wip && (⟨[false], true⟩ : Feed Bool).head) = false ∧
    decodeTxn defaultTab ⟨build defaultTab .Spi .readSr none, .read 1⟩ = .ok .readSrSpi := by decide
theorem witness_StepRunsDecodedOperation_request :
    ((at_ .Opi .w1 0x0E).chip.wip && (at_ .Opi .w1 0x0E).env.done.head) = false ∧ (at_ .Opi .w1 0x0E).env.wire = none ∧
    (at_ .Opi .w1 0x0E).ctrl.phase ≠ .idle ∧ decodeRequest (at_ .Opi .w1 0x0E).x.op = .ok .eraseChip := by decide
theorem witness_CompletionAgentClearsWipAndWel : ({ spi 0x03 with env.done := ⟨[false], true⟩ }).env.done.head = false ∧
    (spi 0x03).chip.wip = true ∧ (spi 0x03).env.done.head = true ∧
    (spi 0x02).chip.wip = false := by decide
theorem witness_HostWritesOperands : (∀ h ∈ [HostAct.setA 0xFFFFFFFF, .setV0 1, .setV1 2, .request 0xFF, .setBuf [1, 2], .setN 3],
    let s := { at_ .Spi .idle 0 with env.script := [h] }
    s.ctrl.phase = .idle ∧ s.env.req = false ∧ s.env.wire = none ∧ s.env.script = h :: [] ∧
      (s.chip.wip && s.env.done.head) = false) ∧ [1, 2].length < 2 ^ 32 := by decide
theorem witness_HostBlockedDuringOperation : (at_ .Spi .x4 0x02).ctrl.phase ≠ .idle ∧
    step (at_ .Spi .x4 0x02) = .next (retag .Spi (at_ .Spi .x4 0x02)) := ⟨by decide, rfl⟩
theorem witness_DispatcherChecksInOrder : Instr.enableMemoryMapped.requestCode = some 0x0F ∧
    (ask .ready .Spi .Direct 0x0F).ctrl.phase = .idle := by decide
theorem witness_ReservedRequestAborts :
    (∀ c ∈ [CState.unconstructed, .ready, .faulted], (ask c .Spi .Direct 0x11).env.wire = none ∧
      (ask c .Spi .Direct 0x11).ctrl.phase = .idle ∧ (ask c .Spi .Direct 0x11).env.req = true ∧
      0x11 ≤ (ask c .Spi .Direct 0x11).x.op.toNat ∧
      ((ask c .Spi .Direct 0x11).chip.wip && (ask c .Spi .Direct 0x11).env.done.head) = false) := by decide
theorem witness_AbortEntryWritesFourRegisters : (at_ .Spi .i1 0x03).x.op ≠ 0x09 := by decide
theorem witness_FaultedIsSticky : (ask .faulted .Spi .Direct 0x03).ctrl.cstate = .faulted ∧
    (ask .faulted .Spi .Direct 0x03).ctrl.phase = .idle ∧
    (ask .faulted .Spi .Direct 0x03).env.script.head? ≠ some .powerCycle ∧
    got (·.x.st) (step (ask .faulted .Spi .Direct 0x03)) = some 0x00 := by decide

/-- A faulted controller about to lose power, its chip in the middle of a page program that wraps in its page. -/
def unplugged : State :=
  { withArray [(5, 6)] (withSr 0x03 (at_ .Spi .idle 0x09)) with
    ctrl.cstate := .faulted, env.script := [.powerCycle], env.done := ⟨[], false⟩, chip.pending := .program 0x2FF 2 }

theorem witness_PowerCycleRestoresLaunch : unplugged.ctrl.phase = .idle ∧ unplugged.env.req = false ∧
    unplugged.env.wire = none ∧ unplugged.chip.wip = true ∧ (unplugged.chip.wip && unplugged.env.done.head) = false ∧
    unplugged.env.script = [.powerCycle] ∧ unplugged.chip.memoryWf = true ∧ unplugged.chip.pending.slots = [0x2FF, 0x200] ∧
    (withSr 0 unplugged).chip.wip = false := by decide
/-- R340, R361: whatever the chip was doing. -/
theorem test_power_cycle : got (fun s => (s.ctrl.cstate, s.chip.sr)) (step unplugged) = some (.unconstructed, 0) := by decide

/-- `MM_BASE + CAPACITY <= 2^32` (R9), whatever the platform chose. -/
theorem mmBase_fits : Config.mmBase + 33554432 ≤ 2 ^ 32 := by
  have := Nat.mod_lt Config.mmBaseChoice (show 0 < (2 ^ 32 - Config.capacity) / 4 + 1 by decide)
  unfold Config.mmBase
  unfold Config.capacity at *
  omega

/-- A window that is open, in mode `m`. -/
def mapped (m : EMode) (script : List HostAct) : State :=
  { at_ m .idle 0x0F with
    ctrl.mmode := .MemoryMapped
    xport := { (at_ m .idle 0x0F).xport with
      passthrough := true, rdTpl := some (readTemplate defaultTab m), wrTpl := some (writeTemplate defaultTab m) }
    chip.rsten := false
    env.script := script }

/-- The first and the last address of the window (R248). -/
theorem witness_InputsNotAdmittedRefused : (mapped .Spi []).xport.passthrough = true ∧
    inWindow 1 (BitVec.ofNat 32 Config.mmBase) = true ∧ inWindow 1 (BitVec.ofNat 32 (Config.mmBase + 33554431)) = true ∧
    (at_ .Spi .idle 0).xport.passthrough = false := by
  have := mmBase_fits
  refine ⟨rfl, ?_, ?_, rfl⟩ <;>
    simp only [inWindow, Config.capacity, BitVec.toNat_ofNat, Bool.and_eq_true, decide_eq_true_eq] <;> omega

/-- The operands at the edges of each range. -/
theorem witness_InputsNotAdmittedRefused_edges :
    barOf .readMemory { at_ .Spi .idle 0 with x.a := 0x1FFFFFF, x.n := 1 } = none ∧
    barOf .readMemory { at_ .Spi .idle 0 with x.a := 0x1FFFFFF, x.n := 2 } = some .outsideArray ∧
    barOf .readMemory { at_ .Spi .idle 0 with x.n := 0 } = some .zeroLength ∧
    barOf .pageProgram { at_ .Spi .idle 0 with x.a := 0x2000000, x.n := 256 } = some .outsideArray ∧
    barOf .pageProgram { at_ .Spi .idle 0 with x.a := 0x2000000, x.n := 257 } = none ∧
    barOf .writeMemory { at_ .Spi .idle 0 with x.a := 0xFFFFFFFF, x.n := 0 } = none ∧
    barOf .eraseSector { at_ .Spi .idle 0 with x.a := 0x1FFFFFF } = none ∧
    barOf .eraseBlock64k { at_ .Spi .idle 0 with x.a := 0x2000000 } = some .outsideArray ∧
    barOf .writeConfigurationRegister2 { at_ .Opi .idle 0 with x.v0 := 0xFD } = none ∧
    barOf .writeConfigurationRegister2 { at_ .Opi .idle 0 with x.v0 := 0x02 } = some .modeBitsBehindController := by decide

/-! A run in the middle of an operation meets the invariant and the discipline. -/

/-- `erase_sector` polling a busy chip, in Opi. -/
def erasing : State :=
  { withSr 0x03 (at_ .Opi .w1 0x0C) with
    trace := [okEvent (at_ .Opi .m1 0x0C) .writeEnable none none, okEvent (at_ .Opi .m2 0x0C) .sectorErase (some 0) none]
    env.done := ⟨[false], true⟩ }

/-- The second chunk of a `write_memory` of 32 bytes at 0xF0, at its page check, in Spi (PS10). -/
def splitting : State :=
  { at_ .Spi .g1 0x0A with
    x := { (at_ .Spi .g1 0x0A).x with a := 0xF0, n := 32, buf := List.replicate 32 7 }
    seq := { cursor := 0x100, remaining := 16, produced := 16, maxChunk := 256, chunk := 16 } }

theorem witness_Inv_erasing : Inv erasing := by
  constructor
  case inOp => exact fun _ => ⟨.eraseSector, by decide⟩
  case code => exact fun h => by cases h
  case window => exact fun h => by cases h
  case operands => exact fun _ => show (0 : Nat) < Config.capacity by decide
  all_goals decide

theorem witness_Inv_splitting : Inv splitting := by
  constructor
  case inOp => exact fun _ => ⟨.writeMemory, by decide⟩
  case code => exact fun h => by cases h
  case window => exact fun h => by cases h
  case operands =>
    refine fun _ => ⟨?_, ?_, ?_, ?_, ?_, ?_⟩
    · exact .inr (by decide)
    · exact fun _ _ => ⟨by decide, by decide, by decide⟩
    · decide
    · decide
    · decide
    · exact fun _ => ⟨by decide, by decide⟩
  all_goals decide

theorem witness_EveryStepKeepsInvariant : Inv erasing ∧ got (·.ctrl.tmp) (step erasing) = some 0x03 :=
  ⟨witness_Inv_erasing, by decide⟩
theorem witness_EveryStepKeepsMemoryCanonical :
    (withArray [(0x1FFFFFF, 0xFE)] (withSr 0x02 (at_ .Spi .m2 0x0E))).chip.memoryWf = true ∧
    got (·.chip.array) (step (withArray [(0x1FFFFFF, 0xFE)] (withSr 0x02 (at_ .Spi .m2 0x0E)))) = some [] := by decide
theorem witness_InvariantExcludesFaults : Inv splitting := witness_Inv_splitting
theorem witness_EveryStepKeepsWriteEnableDiscipline : Inv erasing ∧ Discipline erasing ∧
    got (fun s => s.trace.length) (step erasing) = some 3 :=
  ⟨witness_Inv_erasing, by unfold Discipline; decide, by decide⟩
theorem witness_NoStepWritesTables : OpTab.wf erasing.optab = true ∧ got (·.optab) (step erasing) = some erasing.optab := by decide
theorem witness_ModeAgreementAtEveryCall : Inv erasing ∧ erasing.ctrl.phase ≠ .idle ∧
    decodeRequest erasing.x.op = .ok .eraseSector ∧ erasing.ctrl.phase ∈ calling .eraseSector ∧ erasing.chip.wip = true :=
  ⟨witness_Inv_erasing, by decide⟩
theorem witness_ChunksStayInPage : Inv splitting ∧ splitting.x.op = 0x0A ∧ splitting.ctrl.phase = .g1 :=
  ⟨witness_Inv_splitting, by decide⟩
theorem witness_ModeTagsFollowStateMachine : got (·.ctrl.emode) (step (at_ .Opi .x4 0x02)) = some .Spi ∧
    (at_ .Opi .x4 0x02).env.script.head? ≠ some .powerCycle := by decide
theorem witness_TraceGrowsByAtMostOneEvent : got (fun s => s.trace.length) (step (at_ .Spi .m1 0x0C)) = some 1 ∧
    (at_ .Spi .m1 0x0C).env.script.head? ≠ some .powerCycle := by decide

/-- An erase that changes the array, of the controller and of a transaction on the bus; a register write that is marked. -/
theorem witness_ArrayAndMarkChangeOnlyByTheirCommands : OpTab.wf State.reset.optab = true ∧
    got (·.env.undoc) (step { withSr 0x02 (at_ .Spi .m2 0x07) with x.v1 := 1 }) = some true ∧
    got (·.chip.array) (step (withArray [(0, 1)] (withSr 0x02 (at_ .Spi .m2 0x0C)))) = some [] ∧
    got (·.chip.array) (step { withArray [(0, 1)] (spi 0x02) with
      env.wire := some ⟨build defaultTab .Spi .chipErase none, .none⟩ }) = some [] := by decide

theorem witness_wire_idle : (spi 0x02).chip.wip = false ∧ (spi 0x02).chip.emode = some .Spi ∧ (opi 0x02).chip.wip = false ∧
    (opi 0x02).chip.emode = some .Opi ∧ (spi 0x02).chip.wel = true ∧ (opi 0x02).chip.wel = true ∧
    (spi 0x00).chip.wel = false ∧ (spi 0x02).chip.memoryWf = true := by decide
theorem witness_LatchCommandsSetLatches : (spi 0x02).chip.wip = false ∧ (spi 0x02).chip.emode = some .Spi ∧
    (opi 0x02).chip.wip = false ∧ (opi 0x02).chip.emode = some .Opi := by decide
theorem witness_ResetMemoryNeedsLatch : (opi 0x00).chip.wip = false ∧ (opi 0x00).chip.emode = some .Opi ∧
    (opi 0x00).chip.rsten = false ∧ { (spi 0x00).chip with rsten := true }.emode = some .Spi ∧
    { (spi 0x00).chip with rsten := true }.rsten = true := by decide
theorem witness_RegisterReadCommandsAnswer : (spi 0x01).chip.emode = some .Spi ∧ (spi 0x01).chip.wip = true ∧
    (opi 0x00).chip.emode = some .Opi ∧ (opi 0x00).chip.wip = false := by decide
theorem witness_ReadMemAnswersArray : (spi 0x00).chip.wip = false ∧ 1 ≤ 1 ∧ (0x1FFFFFF : Addr).toNat + 1 ≤ 33554432 ∧
    (0 : Addr).toNat + 33554432 ≤ 33554432 := by decide
theorem witness_WriteSrCrStoresBoth : (opi 0x02).chip.wip = false ∧ (opi 0x02).chip.wel = true ∧
    (opi 0x02).chip.emode = some .Opi := by decide
theorem witness_WriteCr2StoresAndSwitches : (spi 0x02).chip.memoryWf = true ∧ (spi 0x02).chip.wip = false ∧
    (spi 0x02).chip.wel = true ∧ (spi 0x02).chip.emode = some .Spi ∧ (0x300 : Addr) ≠ 0 := by decide
theorem witness_PageProgramAndsWithinPage : (spi 0x02).chip.memoryWf = true ∧ (spi 0x02).chip.wip = false ∧
    (spi 0x02).chip.wel = true ∧ (0x1FFFFFF : Addr).toNat < 33554432 ∧ 1 ≤ [(0 : Byte)].length ∧
    (List.replicate 256 (0 : Byte)).length ≤ 256 := by
  rw [List.length_replicate]; decide
theorem witness_EraseCommandsEraseUnit : (opi 0x02).chip.wip = false ∧ (opi 0x02).chip.wel = true ∧
    (opi 0x02).chip.emode = some .Opi ∧ (0x1FFFFFF : Addr).toNat < 33554432 ∧
    (0x1FFFFFF : Addr).toNat - (0x1FFFFFF : Addr).toNat % 65536 = 0x1FF0000 := by decide
theorem witness_MutatingCommandsIgnoredWithoutWel :
    (Instr.sectorEraseSpi 0x1FFFFFF).wireParts = some (.Spi, .sectorErase, some 0x1FFFFFF, .none) ∧
    (Instr.sectorEraseSpi 0x1FFFFFF).wf = true ∧ Lop.sectorErase.mutating = true ∧ (spi 0x00).chip.emode = some .Spi ∧
    (spi 0x00).chip.wip = false ∧ (spi 0x00).chip.wel = false ∧ (0x1FFFFFF : Addr).toNat < 33554432 := by decide
theorem witness_WireCommandsWithoutRuleStop :
    (Instr.sectorEraseSpi 0x2000000).wireParts = some (.Spi, .sectorErase, some 0x2000000, .none) ∧
    (Instr.readMemSpi 0x1FFFFFF 2).wireParts = some (.Spi, .readMem, some 0x1FFFFFF, .read 2) ∧
    (Instr.readMemSpi 0x1FFFFFF 2).wf = true ∧ (33554432 : Nat) ≤ (0x2000000 : Addr).toNat ∧
    33554432 < (0x1FFFFFF : Addr).toNat + 2 ∧ (spi 0x00).chip.emode = some .Spi ∧ (spi 0x00).chip.wip = false ∧
    (opi 0x00).chip.emode = some .Opi ∧ (spi 0x01).chip.wip = true ∧
    { (spi 0x00).chip with cr20 := 0x02 }.emode = none := by decide

/-! Labels of operations: an `Ok` call ahead, tag and chip agreed, the chip idle. -/

theorem default_wf : OpTab.wf defaultTab = true := by decide

theorem ready_at (m : EMode) (p : Phase) (op : Byte) (sr : Byte) (h : sr.getLsbD 0 = false) : Ready m (withSr sr (at_ m p op)) := by
  cases m <;>
    exact ⟨⟨default_wf, rfl, by simp [withSr, at_, State.reset, Chip.emode, Chip.cr2B1, Chip.opiEn], rfl, rfl, rfl⟩, h⟩

theorem connected_erasing : Connected .Opi erasing := ⟨by decide, rfl, by decide, rfl, rfl, rfl⟩

theorem witness_BusyWaitRound : afterWait .eraseSector = some .fin ∧ erasing.ctrl.phase = .w1 ∧ Connected .Opi erasing :=
  ⟨rfl, rfl, connected_erasing⟩
theorem witness_WriteEnableStep : Ready .Spi (withSr 0 (at_ .Spi .m1 0x0C)) ∧ (at_ .Spi .m1 0x0C).ctrl.phase = .m1 ∧
    Ready .Opi (withSr 0 (at_ .Opi .x2 0x02)) ∧ (at_ .Opi .x2 0x02).ctrl.phase = .x2 ∧
    Ready .Spi (withSr 0 (at_ .Spi .o2 0x01)) ∧ (at_ .Spi .o2 0x01).ctrl.phase = .o2 :=
  ⟨ready_at _ _ _ _ rfl, rfl, ready_at _ _ _ _ rfl, rfl, ready_at _ _ _ _ rfl, rfl⟩
theorem witness_RegisterWriteStep : Ready .Opi (withSr 2 (at_ .Opi .m2 0x07)) ∧
    (withSr 2 (at_ .Opi .m2 0x07)).chip.wel = true ∧ (at_ .Opi .m2 0x07).ctrl.phase = .m2 :=
  ⟨ready_at _ _ _ _ rfl, by decide, rfl⟩
theorem witness_ModeSwitchSteps : Ready .Spi (withSr 2 (at_ .Spi .o1 0x01)) ∧ Ready .Opi (withSr 2 (at_ .Opi .x1 0x02)) ∧
    Ready .Spi (withSr 2 (at_ .Spi .o3 0x01)) ∧ Ready .Opi (withSr 2 (at_ .Opi .x3 0x02)) ∧
    (withSr 2 (at_ .Opi .x3 0x02)).chip.wel = true ∧ (at_ .Spi .o4 0x01).ctrl.phase = .o4 ∧
    (at_ .Opi .x4 0x02).ctrl.phase = .x4 :=
  ⟨ready_at _ _ _ _ rfl, ready_at _ _ _ _ rfl, ready_at _ _ _ _ rfl, ready_at _ _ _ _ rfl, by decide, rfl, rfl⟩

/-- A page of data for the last page of the array. -/
def lastPage (p : Phase) (op : Byte) : State :=
  { withSr 2 (at_ .Spi p op) with x.a := 0x1FFFFFE, seq := ⟨0x1FFFFFE, 2, 0, 2, 2⟩ }

theorem witness_ProgramCommandStep : Ready .Spi (lastPage .m2 0x0A) ∧ (lastPage .m2 0x0A).chip.wel = true ∧
    (lastPage .m2 0x0A).chip.memoryWf = true ∧ (lastPage .m2 0x0A).ctrl.phase = .m2 ∧ 1 ≤ (lastPage .m2 0x0A).seq.chunk.toNat ∧
    (lastPage .m2 0x0A).seq.chunk.toNat + (lastPage .m2 0x0A).seq.cursor.toNat % 256 = 256 ∧
    (lastPage .m2 0x0A).seq.cursor.toNat < 33554432 ∧
    (lastPage .m2 0x0A).seq.produced.toNat + (lastPage .m2 0x0A).seq.chunk.toNat ≤ (lastPage .m2 0x0A).x.buf.length ∧
    (lastPage .m2 0x0B).x.n.toNat + (lastPage .m2 0x0B).x.a.toNat % 256 = 256 :=
  ⟨⟨⟨by decide, rfl, by decide, rfl, rfl, rfl⟩, by decide⟩, by decide⟩
theorem witness_EraseCommandStep : Ready .Spi (lastPage .m2 0x0D) ∧ (lastPage .m2 0x0D).chip.wel = true ∧
    (lastPage .m2 0x0D).ctrl.phase = .m2 ∧ (lastPage .m2 0x0D).x.a.toNat < 33554432 :=
  ⟨⟨⟨by decide, rfl, by decide, rfl, rfl, rfl⟩, by decide⟩, by decide⟩
theorem witness_ConstructSteps : (at_ .Spi .s1 0x00).ctrl.phase = .s1 ∧ Ready .Spi (withSr 0 (at_ .Spi .s2 0x00)) ∧
    Ready .Spi { at_ .Spi .s3 0x00 with chip.rsten := true } ∧ (at_ .Spi .s5 0x00).ctrl.phase = .s5 :=
  ⟨rfl, ready_at _ _ _ _ rfl, ⟨⟨by decide, rfl, by decide, rfl, rfl, rfl⟩, by decide⟩, rfl⟩
theorem witness_IdentityAndRegisterReadSteps : Ready .Opi (withSr 0 (at_ .Opi .i1 0x03)) ∧
    Ready .Opi (withSr 0 (at_ .Opi .rs1 0x04)) ∧ Ready .Spi (withSr 0 (at_ .Spi .rc1 0x05)) ∧
    Ready .Spi (withSr 0 (at_ .Spi .rq1 0x06)) ∧ { (at_ .Spi .i2 0x03).env with rx := [1, 2, 3] }.rx = [1, 2, 3] :=
  ⟨ready_at _ _ _ _ rfl, ready_at _ _ _ _ rfl, ready_at _ _ _ _ rfl, ready_at _ _ _ _ rfl, rfl⟩
theorem witness_ReadMemorySteps : Ready .Spi (lastPage .b1 0x09) ∧ (lastPage .b1 0x09).ctrl.phase = .b1 ∧
    1 ≤ (lastPage .b1 0x09).x.n.toNat ∧ (lastPage .b1 0x09).x.a.toNat + (lastPage .b1 0x09).x.n.toNat = 33554432 ∧
    (at_ .Spi .b2 0x09).ctrl.phase = .b2 :=
  ⟨⟨⟨by decide, rfl, by decide, rfl, rfl, rfl⟩, by decide⟩, by decide⟩
theorem witness_FailedCallAborts : callAt .pageProgram (lastPage .m2 0x0B) =
      some (.pageProgram, some 0x1FFFFFE, .write [0x11, 0x22]) ∧ (lastPage .m2 0x0B).ctrl.phase ∈ calling .pageProgram ∧
    (lastPage .m2 0x0B).xport.passthrough = false ∧
    got (·.chip.sr) (exec .pageProgram { lastPage .m2 0x0B with env.calls := ⟨[.ok], .ok⟩ }) = some 0x03 := by decide
theorem witness_PageCheckStep : (lastPage .g1 0x0B).ctrl.phase = .g1 ∧ (lastPage .g1 0x0A).ctrl.phase = .g1 ∧
    (lastPage .g1 0x0B).x.n.toNat + (lastPage .g1 0x0B).x.a.toNat % 256 = 256 ∧
    { (lastPage .g1 0x0B).x with n := 3 }.n.toNat + (lastPage .g1 0x0B).x.a.toNat % 256 = 257 := by decide
theorem witness_PageSplitSteps :
    (lastPage .p4 0x0A).ctrl.phase = .p4 ∧ (lastPage .p4 0x0A).seq.maxChunk.toNat ≤ 256 ∧
    (lastPage .p6 0x0A).seq.chunk.toNat ≤ (lastPage .p6 0x0A).seq.remaining.toNat ∧
    (lastPage .p6 0x0A).seq.cursor.toNat + (lastPage .p6 0x0A).seq.chunk.toNat < 2 ^ 32 ∧
    (lastPage .p6 0x0A).seq.produced.toNat + (lastPage .p6 0x0A).seq.chunk.toNat < 2 ^ 32 := by decide
theorem witness_ClosingStepReportsOk : closing .pageProgram = some .g3 ∧ (at_ .Opi .g3 0x0B).ctrl.phase = .g3 := by decide
theorem witness_MemoryMappedToggleSteps : (at_ .Opi .e1 0x0F).ctrl.phase = .e1 ∧ (at_ .Opi .e2 0x0F).ctrl.phase = .e2 ∧
    (at_ .Opi .e3 0x0F).ctrl.phase = .e3 ∧ (at_ .Opi .f1 0x10).ctrl.phase = .f1 ∧ (at_ .Opi .f2 0x10).ctrl.phase = .f2 := by
  decide

/-- A one-byte load of the last byte of the window. -/
theorem witness_WindowLoadReadsArray :
    let last : Addr := BitVec.ofNat 32 (Config.mmBase + 33554431)
    let s := mapped .Opi [.load 1 last]
    s.ctrl.phase = .idle ∧ s.env.req = false ∧ s.env.wire = none ∧ s.env.script = [.load 1 last] ∧
      s.xport.passthrough = true ∧ OpTab.wf s.optab = true ∧ s.xport.rdTpl = some (readTemplate s.optab .Opi) ∧ s.chip.emode = some .Opi ∧
      s.chip.wip = false ∧ Config.mmBase ≤ last.toNat ∧ last.toNat + 1 ≤ Config.mmBase + 33554432 ∧ last.toNat % 1 = 0 ∧
      1 ∈ [1, 2, 4] := by
  have := mmBase_fits
  refine ⟨rfl, rfl, rfl, rfl, rfl, by decide, rfl, by simp [mapped, at_, State.reset, Chip.emode, Chip.cr2B1, Chip.opiEn],
    by simp [mapped, at_, State.reset, Chip.wip, srWip], ?_, ?_, Nat.mod_one _, by decide⟩ <;>
    simp only [BitVec.toNat_ofNat] <;> generalize Config.mmBase = b at * <;> omega

/-! Whole operations: a request of a constructed, idle controller, and the launch. -/

/-- A request for the last two bytes of the array. -/
def asking_ (m : EMode) (op : Byte) (script : List HostAct) : State :=
  { at_ m .idle op with x.a := 0x1FFFFFE, env.req := true, env.script := script }

theorem requested (m : EMode) (op : Byte) (script : List HostAct) : Requested m op (asking_ m op script) := by
  cases m <;>
    exact ⟨⟨⟨default_wf, rfl, by simp [asking_, at_, State.reset, Chip.emode, Chip.cr2B1, Chip.opiEn], rfl, rfl, rfl⟩,
      by simp [asking_, at_, State.reset, Chip.wip, srWip]⟩, rfl, rfl, rfl, rfl, rfl,
      ⟨rfl, by simp [asking_, at_, State.reset]⟩⟩

theorem witness_ConstructRun : Launch { State.reset with env.req := true } ∧ OpTab.wf State.reset.optab = true ∧
    AllCallsOk { State.reset with env.req := true } ∧
    Prompt { State.reset with env.req := true } ∧ State.reset.env.wire = none ∧ State.reset.x.op = 0x00 :=
  ⟨by constructor <;> decide, by decide, ⟨rfl, by simp [State.reset]⟩, rfl, rfl, rfl⟩
theorem witness_ModeRoundTripRestoresState : Requested .Spi 0x01 (asking_ .Spi 0x01 [.request 0x02]) ∧
    Prompt (asking_ .Spi 0x01 [.request 0x02]) ∧ (asking_ .Spi 0x01 [.request 0x02]).chip.wel = false ∧
    (asking_ .Spi 0x01 [.request 0x02]).chip.rsten = false := ⟨requested _ _ _, rfl, by decide, rfl⟩
theorem witness_EraseRun : Requested .Opi 0x0C (asking_ .Opi 0x0C []) ∧ Prompt (asking_ .Opi 0x0C []) ∧
    (asking_ .Opi 0x0C []).x.a.toNat < 33554432 := ⟨requested _ _ _, rfl, by decide⟩
theorem witness_ReadMemoryRun : Requested .Spi 0x09 (asking_ .Spi 0x09 []) ∧ 1 ≤ (asking_ .Spi 0x09 []).x.n.toNat ∧
    (asking_ .Spi 0x09 []).x.a.toNat + (asking_ .Spi 0x09 []).x.n.toNat = 33554432 := ⟨requested _ _ _, by decide, by decide⟩
theorem witness_WriteMemoryFinalEffect : Requested .Opi 0x0A (asking_ .Opi 0x0A []) ∧ Fair (asking_ .Opi 0x0A []) ∧
    (asking_ .Opi 0x0A []).chip.memoryWf = true ∧ (asking_ .Opi 0x0A []).x.buf.length = (asking_ .Opi 0x0A []).x.n.toNat ∧
    (asking_ .Opi 0x0A []).x.a.toNat + (asking_ .Opi 0x0A []).x.n.toNat = 33554432 :=
  ⟨requested _ _ _, rfl, by decide, by decide, by decide⟩
theorem witness_WriteMemorySplitsAtPages : Requested .Spi 0x0A (asking_ .Spi 0x0A []) ∧ Prompt (asking_ .Spi 0x0A []) ∧
    (asking_ .Spi 0x0A []).chip.memoryWf = true ∧ (asking_ .Spi 0x0A []).x.buf.length = (asking_ .Spi 0x0A []).x.n.toNat ∧
    1 ≤ (asking_ .Spi 0x0A []).x.n.toNat ∧
    (asking_ .Spi 0x0A []).x.a.toNat + (asking_ .Spi 0x0A []).x.n.toNat = 33554432 :=
  ⟨requested _ _ _, rfl, by decide, by decide, by decide, by decide⟩
theorem witness_StalledChipHangs : decodeRequest erasing.x.op = .ok .eraseSector ∧ afterWait .eraseSector = some .fin ∧
    erasing.ctrl.phase = .w1 ∧ Connected .Opi { erasing with env.done := ⟨[], false⟩ } ∧
    AllCallsOk { erasing with env.done := ⟨[], false⟩ } ∧ erasing.chip.wip = true :=
  ⟨rfl, rfl, rfl, ⟨by decide, rfl, by decide, rfl, rfl, rfl⟩, ⟨rfl, by simp [erasing, withSr, at_, State.reset]⟩, by decide⟩
theorem witness_FairChipEndsBusyWait : decodeRequest erasing.x.op = .ok .eraseSector ∧ afterWait .eraseSector = some .fin ∧
    erasing.ctrl.phase = .w1 ∧ Connected .Opi erasing ∧ AllCallsOk erasing ∧ Fair erasing ∧ erasing.chip.wip = true :=
  ⟨rfl, rfl, rfl, connected_erasing, ⟨rfl, by simp [erasing, withSr, at_, State.reset]⟩, rfl, by decide⟩
theorem witness_MappedWindowShowsArray :
    Requested .Opi 0x0F (asking_ .Opi 0x0F [.load 1 (BitVec.ofNat 32 (Config.mmBase + 33554431))]) ∧ 33554431 < 33554432 :=
  ⟨requested _ _ _, by decide⟩

end Sys2Proof.Tests
end

section
/-! PROOFS. The host's moves on its registers (R30, R31): when the host moves, and what its move does to the buffer. -/

namespace Sys2Proof.Machine

/-! ### The buffer handed over by its length (R31, log entry 18) -/

@[simp] theorem length_freeBytes (k n : Nat) : (freeBytes k n).length = n := by simp [freeBytes]

@[simp] theorem length_resize (buf : List Byte) (n k : Nat) : (resize buf n k).length = n := by
  simp only [resize, List.length_append, List.length_take, length_freeBytes]
  omega

/-- The bytes the old buffer held, up to the new length, are kept. -/
theorem getElem?_resize_of_some {buf : List Byte} {n j : Nat} {b : Byte} (k : Nat) (hj : j < n)
    (hb : buf[j]? = some b) : (resize buf n k)[j]? = some b := by
  obtain ⟨hlen, -⟩ := List.getElem?_eq_some_iff.mp hb
  have hkept : j < (buf.take n).length := by
    rw [List.length_take]
    omega
  rw [resize, List.getElem?_append_left hkept, List.getElem?_take_of_lt hj, hb]

/-! ### The buffer handed over with its contents (R30, R31) -/

/-- A buffer whose length fits `x[N]` is handed over whole. -/
theorem setBuffer_of_fits {bytes : List Byte} (h : bytes.length < 2 ^ 32) (s : State) :
    setBuffer bytes s = { s with x.n := BitVec.ofNat 32 bytes.length, x.buf := bytes } := by
  simp only [setBuffer, BitVec.toNat_ofNat, Nat.mod_eq_of_lt h, List.take_length]

/-! ### The host's turn (R19, R26) -/

/-- Using up the schedule's answer, as an update of one field. -/
theorem asked_eq (s : State) :
    asked s = { s with env.done := if s.chip.wip then s.env.done.tail else s.env.done } := by
  unfold asked
  split <;> rfl

/-- The host moves when no other agent does: the completion agent stays, the bus is free, and the controller is idle with
no request pending. -/
theorem turn_host {s : State} (hphase : s.ctrl.phase = .idle) (hreq : s.env.req = false) (hwire : s.env.wire = none)
    (hdone : (s.chip.wip && s.env.done.head) = false) : turn s = .host := by
  simp [turn, hphase, hreq, hwire, hdone]

/-- The step is then the next move of the host's script. -/
theorem step_hostMove {s : State} {h : HostAct} {rest : List HostAct} (hphase : s.ctrl.phase = .idle)
    (hreq : s.env.req = false) (hwire : s.env.wire = none) (hdone : (s.chip.wip && s.env.done.head) = false)
    (hscript : s.env.script = h :: rest) :
    step s = hostMove h
      { s with env.script := rest, env.done := if s.chip.wip then s.env.done.tail else s.env.done } := by
  have hturn : step s = hostTurn (asked s) := by
    rw [step, turn_host hphase hreq hwire hdone]
  rw [hturn, hostTurn, asked_script, hscript, asked_eq]

/-- Settles O8: the step is the host's move, and each move on the registers is one clause of `hostMove`. -/
theorem hostWritesOperands : Obligations.HostWritesOperands := by
  intro s u h rest hphase hreq hwire hscript hdone hu
  have hstep : step s = hostMove h u := hu ▸ step_hostMove hphase hreq hwire hdone hscript
  have hbuf : u.x.buf = s.x.buf := by rw [hu]
  refine ⟨?setA, ?setV0, ?setV1, ?request, ?setBuf, ?setN⟩
  case setA => rintro v rfl; exact hstep
  case setV0 => rintro v rfl; exact hstep
  case setV1 => rintro v rfl; exact hstep
  case request => rintro op rfl; exact hstep
  case setBuf =>
    rintro bytes rfl hfits
    refine ⟨BitVec.ofNat 32 bytes.length, by rw [BitVec.toNat_ofNat, Nat.mod_eq_of_lt hfits], ?_⟩
    rw [hstep, hostMove, setBuffer_of_fits hfits]
  case setN =>
    rintro n rfl
    refine ⟨resize u.x.buf n.toNat u.env.draws, u.env.draws + n.toNat, length_resize .., fun j b hj hb => ?_, hstep⟩
    exact getElem?_resize_of_some _ hj (hbuf ▸ hb)

end Sys2Proof.Machine
end

section
/-! PROOFS. A step, inverted once: the moves that answer a next state, each with its premises and its next state. Every
statement about "every step" is a case analysis over these. -/

namespace Sys2Proof.Machine

/-! ### The dispatcher's verdict (R302) -/

/-- The verdict reports exactly when the controller is faulted (R301, R302 step 1). -/
theorem verdict_eq_report {op : Byte} {c : Ctrl} (h : verdict op c = .report) : c.cstate = .faulted := by
  unfold verdict at h
  split at h
  · assumption
  · repeat' split at h
    all_goals cases h

/-- What a request that runs has passed (R302). -/
theorem verdict_eq_run {op : Byte} {c : Ctrl} (h : verdict op c = .run) :
    op.toNat < 0x11 ∧ c.cstate = (if op = 0 then CState.unconstructed else CState.ready) ∧
      (op = 0x10#8 → c.mmode = .MemoryMapped) ∧ (op ≠ 0 → op ≠ 0x10#8 → c.mmode = .Direct) ∧
      (op = 0x01#8 → c.emode = .Spi) ∧ (op = 0x02#8 → c.emode = .Opi) := by
  have mapping : ∀ m : MMode, m ≠ .Direct ↔ m = .MemoryMapped := by intro m; cases m <;> simp
  have direct : ∀ m : MMode, m ≠ .MemoryMapped ↔ m = .Direct := by intro m; cases m <;> simp
  have spi : ∀ m : EMode, m ≠ .Opi ↔ m = .Spi := by intro m; cases m <;> simp
  have opi : ∀ m : EMode, m ≠ .Spi ↔ m = .Opi := by intro m; cases m <;> simp
  simp only [verdict] at h
  split at h
  · cases h
  rename_i faulted
  split at h
  · cases h
  rename_i reserved
  split at h
  · cases h
  rename_i life
  refine ⟨by omega, ?_, ?_⟩
  · cases hc : c.cstate <;> by_cases ho : op = 0#8 <;> simp_all
  · split at h
    · rename_i ho
      subst ho
      simp
    · rename_i ho
      repeat' split at h
      all_goals cases h
      rename_i mapped notMapped toOpi toSpi
      simp only [not_and, direct, mapping, spi, opi] at mapped notMapped toOpi toSpi
      exact ⟨mapped, fun _ => notMapped, toOpi, toSpi⟩

/-! ### The moves -/

/-- The moves that answer a next state, from the state `u` in which the schedule's answer has been used up (R19, R26). -/
inductive Moved (u : State) : State → Prop
  /-- The completion agent (R290). -/
  | completion (busy : u.chip.wip = true) : Moved u (chipDone u)
  /-- A transaction on the bus (R255, log entry 25). -/
  | bus {x : Txn} {i : Instr} {m : EMode} {l : Lop} {a : Option Addr} {p : Payload} {t : State}
      (wire : u.env.wire = some x) (txn : decodeTxn u.optab x = .ok i) (parts : i.wireParts = some (m, l, a, p))
      (taken : chipStep i u = .next t) : Moved u t
  /-- A request to a faulted controller, which reports its cause (R301). -/
  | reported (wire : u.env.wire = none) (idle : u.ctrl.phase = .idle) (faulted : u.ctrl.cstate = .faulted) :
      Moved u { accepted u with x.st := u.ctrl.cause }
  /-- A request that fails a guard (R302). -/
  | rejected (c : Cause) (wire : u.env.wire = none) (idle : u.ctrl.phase = .idle) : Moved u (abort c (accepted u))
  /-- A request that runs (R302 step 7). -/
  | started {i : Instr} (wire : u.env.wire = none) (idle : u.ctrl.phase = .idle) (code : decodeRequest u.x.op = .ok i)
      (run : verdict u.x.op u.ctrl = .run) (admitted : barOf i u = none) : Moved u (go (firstStep i) (accepted u))
  /-- A micro-step that makes a call (R150). -/
  | call {i : Instr} {k : Call} {c : Called} (wire : u.env.wire = none) (busy : u.ctrl.phase ≠ .idle)
      (code : decodeRequest u.x.op = .ok i) (micro : microCall i u = some k)
      (answer : transact ⟨build u.optab u.ctrl.emode k.lop k.addr, k.payload⟩ u = .next c) :
      Moved u (if c.ok then k.next c.s else abort .transportError c.s)
  /-- A micro-step that makes none. -/
  | silent {i : Instr} {t : State} (wire : u.env.wire = none) (busy : u.ctrl.phase ≠ .idle)
      (code : decodeRequest u.x.op = .ok i) (micro : microLocal i u = some t) : Moved u t
  /-- The host. -/
  | host {t : State} (wire : u.env.wire = none) (idle : u.ctrl.phase = .idle) (turn : hostTurn u = .next t) : Moved u t

/-- The meaning of a request is one of the dispatcher's outcomes at `IDLE`, else a micro-step. -/
theorem moved_of_exec {i : Instr} {u t : State} (wire : u.env.wire = none) (code : decodeRequest u.x.op = .ok i)
    (h : exec i u = .next t) : Moved u t := by
  have hcode := decodeRequest_code code
  by_cases hp : u.ctrl.phase = .idle
  · rw [exec_idle hcode hp] at h
    obtain ⟨hv, rfl⟩ | ⟨c, -, rfl⟩ | ⟨hv, hbar, rfl⟩ := dispatch_next.mp h
    · exact .reported wire hp (verdict_eq_report hv)
    · exact .rejected c wire hp
    · exact .started wire hp code hv hbar
  · obtain ⟨k, c, hk, hc, rfl⟩ | ⟨-, hl⟩ := exec_micro_next hcode hp h
    · exact .call wire hp code hk hc
    · exact .silent wire hp code hl

/-- A reserved request is reported or rejected (R132, R301). -/
theorem moved_of_dispatchReserved {u t : State} (wire : u.env.wire = none) (idle : u.ctrl.phase = .idle)
    (h : dispatchReserved u = .next t) : Moved u t := by
  unfold dispatchReserved at h
  cases hv : verdict u.x.op u.ctrl with
  | report => rw [hv] at h; cases h; exact .reported wire idle (verdict_eq_report hv)
  | abort c => rw [hv] at h; cases h; exact .rejected c wire idle
  | run => rw [hv] at h; cases h

/-- A step that answers a next state is one of the moves. -/
theorem step_moved {s t : State} (h : step s = .next t) : Moved (asked s) t := by
  obtain ⟨hw, -, rfl⟩ | ⟨x, i, ⟨m, l, a, p⟩, hx, hd, hq, hs⟩ | ⟨hx, -, i, hd, -, he⟩ | ⟨hx, hp, -, -, hr⟩ |
    ⟨hx, hp, -, ht⟩ := step_next h
  · exact .completion (by simpa using hw)
  · exact .bus (by simpa using hx) (by simpa using hd) hq hs
  · exact moved_of_exec (by simpa using hx) (by simpa using hd) he
  · exact moved_of_dispatchReserved (by simpa using hx) (by simpa using hp) hr
  · exact .host (by simpa using hx) (by simpa using hp) ht

end Sys2Proof.Machine
end

section
/-! PROOFS. What every step keeps, from any state: the command tables (R116), the canonical form of both memories (R36, R39),
the trace (R25, R148), the host's part while an operation is in progress (R26), the mode tags (R22, R23, R180), and what only
the program, erase and register-write commands change (R36, R235). -/

namespace Sys2Proof.Machine

/-! ### The canonical form of both memories -/

/-- A loss of power keeps the canonical form (R289). -/
theorem powerLoss_memoryWf {u : State} (h : u.chip.memoryWf = true) : (powerLoss u).chip.memoryWf = true := by
  unfold powerLoss
  split
  · exact Chip.torn_memoryWf _ _ h
  · exact h

/-- And so does power-on, which keeps the array and clears CR2. -/
theorem powerOn_memoryWf {u : State} (h : u.chip.memoryWf = true) : (powerOn u).chip.memoryWf = true := by
  simp only [Chip.memoryWf, Bool.and_eq_true] at h ⊢
  exact ⟨h.1, rfl⟩

theorem hostTurn_memoryWf {u t : State} (hm : u.chip.memoryWf = true) (h : hostTurn u = .next t) :
    t.chip.memoryWf = true := by
  obtain ⟨-, -, -, -, -, -, -, hchip, -⟩ | ⟨-, -, -, -, -, -, -, -, hchip, -⟩ | ⟨rest, -, rfl⟩ := hostTurn_next h
  · rw [hchip]; exact hm
  · rw [hchip]; exact hm
  · exact powerOn_memoryWf (powerLoss_memoryWf hm)

/-- A call keeps the canonical form: the chip has taken at most one command. -/
theorem transact_memoryWf {x : Txn} {u : State} {c : Called} (hm : u.chip.memoryWf = true) (h : transact x u = .next c) :
    c.s.chip.memoryWf = true := by
  obtain ⟨-, -, -, -, -, -, -, -, -, -, hchip | ⟨l, a, p, hreach, hchip⟩⟩ := transact_frame h
  · rw [hchip]; exact hm
  · rw [hchip]; exact response_memoryWf _ _ _ _ _ hreach hm

theorem moved_memoryWf {u t : State} (hm : u.chip.memoryWf = true) (h : Moved u t) : t.chip.memoryWf = true := by
  cases h with
  | completion => exact hm
  | bus _ _ parts taken =>
    obtain ⟨-, -, -, -, -, -, -, -, -, -, hreach, hchip, -⟩ := chipStep_frame parts taken
    rw [hchip]
    exact response_memoryWf _ _ _ _ _ hreach hm
  | reported => exact hm
  | rejected => exact hm
  | started => exact hm
  | call _ _ _ micro answer =>
    have hc := transact_memoryWf hm answer
    split
    · rw [(microCall_carried micro _).chip]; exact hc
    · exact hc
  | silent _ _ _ micro =>
    obtain ⟨-, hchip, -⟩ := microLocal_frame micro
    rw [hchip]; exact hm
  | host _ _ turn => exact hostTurn_memoryWf hm turn

/-- Settles O18: of the moves only the chip's commands and a power cycle touch the memories, and each keeps their form. -/
theorem everyStepKeepsMemoryCanonical : Obligations.EveryStepKeepsMemoryCanonical :=
  fun _ _ hm h => moved_memoryWf (by simpa using hm) (step_moved h)

/-! ### The command tables -/

theorem moved_optab {u t : State} (h : Moved u t) : t.optab = u.optab := by
  cases h with
  | completion => rfl
  | bus _ _ parts taken => exact (chipStep_frame parts taken).1
  | reported => rfl
  | rejected => rfl
  | started => rfl
  | call _ _ _ micro answer =>
    have hc := (transact_frame answer).1
    split
    · rw [(microCall_carried micro _).optab, hc]
    · exact hc
  | silent _ _ _ micro => exact (microLocal_frame micro).1
  | host _ _ turn =>
    obtain ⟨htab, -⟩ | ⟨htab, -⟩ | ⟨rest, -, rfl⟩ := hostTurn_next turn
    · exact htab
    · exact htab
    · simp

/-- Settles O19: no move writes `optab`; a power cycle carries it over (`powerOn`). -/
theorem noStepWritesTables : Obligations.NoStepWritesTables := by
  intro s t h
  have htab : t.optab = s.optab := by simpa using moved_optab (step_moved h)
  exact ⟨htab, fun hwf => htab ▸ hwf⟩

/-! ### The trace -/

theorem moved_trace {u t : State} (hpower : u.env.script.head? ≠ some .powerCycle) (h : Moved u t) :
    t.trace = u.trace ∨ ∃ e, t.trace = u.trace ++ [e] := by
  cases h with
  | completion => exact .inl rfl
  | bus _ _ parts taken =>
    obtain ⟨-, -, -, -, -, htrace, -⟩ := chipStep_frame parts taken
    exact .inl htrace
  | reported => exact .inl rfl
  | rejected => exact .inl rfl
  | started => exact .inl rfl
  | call _ _ _ micro answer =>
    obtain ⟨-, -, -, -, -, ⟨e, he⟩, -⟩ := transact_frame answer
    refine .inr ⟨e, ?_⟩
    split
    · rw [(microCall_carried micro _).trace, he]
    · exact he
  | silent _ _ _ micro => exact microLocal_trace micro
  | host _ _ turn =>
    obtain ⟨-, -, -, -, -, -, -, -, htrace, -⟩ | ⟨-, -, -, -, -, -, -, -, -, a, bytes, htrace⟩ | ⟨rest, hscript, -⟩ :=
      hostTurn_next turn
    · exact .inl htrace
    · exact .inr ⟨_, htrace⟩
    · exact absurd (by rw [hscript]; rfl) hpower

/-- Settles O24: a call, a passthrough call and a window access record one event each, the other moves none. -/
theorem traceGrowsByAtMostOneEvent : Obligations.TraceGrowsByAtMostOneEvent :=
  fun s _ h hpower => by simpa using moved_trace (by simpa using hpower) (step_moved h)

/-! ### The host's part while an operation is in progress -/

/-- The host's operand registers, its requests and its script are the same in both states (R26). -/
structure SameHost (u v : State) : Prop where
  op : v.x.op = u.x.op
  a : v.x.a = u.x.a
  n : v.x.n = u.x.n
  v0 : v.x.v0 = u.x.v0
  v1 : v.x.v1 = u.x.v1
  script : v.env.script = u.env.script
  req : v.env.req = u.env.req
  reqs : v.env.reqs = u.env.reqs

theorem SameHost.trans {u v w : State} (h : SameHost u v) (k : SameHost v w) : SameHost u w :=
  ⟨k.op.trans h.op, k.a.trans h.a, k.n.trans h.n, k.v0.trans h.v0, k.v1.trans h.v1, k.script.trans h.script,
    k.req.trans h.req, k.reqs.trans h.reqs⟩

theorem sameHost_abort (c : Cause) (u : State) : SameHost u (abort c u) := ⟨rfl, rfl, rfl, rfl, rfl, rfl, rfl, rfl⟩

theorem sameHost_asked (s : State) : SameHost s (asked s) := by constructor <;> simp

theorem Carried.sameHost {u v : State} (h : Carried u v) : SameHost u v :=
  ⟨h.op, h.a, h.n, h.v0, h.v1, by rw [h.env], by rw [h.env], by rw [h.env]⟩

theorem transact_sameHost {x : Txn} {u : State} {c : Called} (h : transact x u = .next c) : SameHost u c.s := by
  obtain ⟨-, -, -, hx, -, -, hscript, hreq, hreqs, -⟩ := transact_frame h
  exact ⟨by rw [hx], by rw [hx], by rw [hx], by rw [hx], by rw [hx], hscript, hreq, hreqs⟩

theorem moved_sameHost {u t : State} (hbusy : u.ctrl.phase ≠ .idle) (h : Moved u t) : SameHost u t := by
  cases h with
  | completion => exact ⟨rfl, rfl, rfl, rfl, rfl, rfl, rfl, rfl⟩
  | bus _ _ parts taken =>
    obtain ⟨-, -, -, hx, -, -, hscript, hreq, hreqs, -⟩ := chipStep_frame parts taken
    exact ⟨by rw [hx], by rw [hx], by rw [hx], by rw [hx], by rw [hx], hscript, hreq, hreqs⟩
  | reported _ idle => exact absurd idle hbusy
  | rejected _ _ idle => exact absurd idle hbusy
  | started _ idle => exact absurd idle hbusy
  | call _ _ _ micro answer =>
    have hc := transact_sameHost answer
    split
    · exact hc.trans (microCall_carried micro _).sameHost
    · exact hc.trans (sameHost_abort _ _)
  | silent _ _ _ micro =>
    obtain ⟨-, -, hop, ha, hn, hv0, hv1, hscript, hreq, hreqs, -⟩ := microLocal_frame micro
    exact ⟨hop, ha, hn, hv0, hv1, hscript, hreq, hreqs⟩
  | host _ idle => exact absurd idle hbusy

/-- Settles O9: the moves that touch the host's part are the dispatcher's and the host's own, and both need `IDLE`. -/
theorem hostBlockedDuringOperation : Obligations.HostBlockedDuringOperation := by
  intro s t hbusy h
  obtain ⟨hop, ha, hn, hv0, hv1, hscript, hreq, hreqs⟩ :=
    (sameHost_asked s).trans (moved_sameHost (by simpa using hbusy) (step_moved h))
  exact ⟨hop, ha, hn, hv0, hv1, hscript, hreq, hreqs⟩

/-! ### The mode tags -/

/-- A micro-step that makes no call changes a tag only at the labels of R180: S1, O4, X4, E3, F2. -/
theorem microLocal_tags {i : Instr} {u t : State} (h : microLocal i u = some t) :
    (t.ctrl.emode = u.ctrl.emode ∧ t.ctrl.mmode = u.ctrl.mmode) ∨
    (u.ctrl.phase = .s1 ∧ i = .construct ∧ t.ctrl.emode = .Spi ∧ t.ctrl.mmode = .Direct) ∨
    (u.ctrl.phase = .o4 ∧ i = .toOpi ∧ t.ctrl.emode = .Opi ∧ t.ctrl.mmode = u.ctrl.mmode) ∨
    (u.ctrl.phase = .x4 ∧ i = .toSpi ∧ t.ctrl.emode = .Spi ∧ t.ctrl.mmode = u.ctrl.mmode) ∨
    (u.ctrl.phase = .e3 ∧ i = .enableMemoryMapped ∧ t.ctrl.emode = u.ctrl.emode ∧ t.ctrl.mmode = .MemoryMapped) ∨
    (u.ctrl.phase = .f2 ∧ i = .disableMemoryMapped ∧ t.ctrl.emode = u.ctrl.emode ∧ t.ctrl.mmode = .Direct) := by
  cases i <;> simp only [microLocal] at h
  case construct =>
    split at h <;> cases h
    case h_1 hp => exact .inr (.inl ⟨hp, rfl, rfl, rfl⟩)
    case h_2 => exact .inl ⟨rfl, rfl⟩
  case toOpi =>
    split at h <;> cases h
    case h_1 hp => exact .inr (.inr (.inl ⟨hp, rfl, rfl, rfl⟩))
    case h_2 => exact .inl ⟨rfl, rfl⟩
  case toSpi =>
    split at h <;> cases h
    case h_1 hp => exact .inr (.inr (.inr (.inl ⟨hp, rfl, rfl, rfl⟩)))
    case h_2 => exact .inl ⟨rfl, rfl⟩
  case enableMemoryMapped =>
    split at h <;> cases h
    case h_3 hp => exact .inr (.inr (.inr (.inr (.inl ⟨hp, rfl, rfl, rfl⟩))))
    all_goals exact .inl ⟨rfl, rfl⟩
  case disableMemoryMapped =>
    split at h <;> cases h
    case h_1 => exact .inl ⟨rfl, rfl⟩
    case h_2 hp => exact .inr (.inr (.inr (.inr (.inr ⟨hp, rfl, rfl, rfl⟩))))
  case pageProgram =>
    split at h <;> cases h
    case h_1 => exact .inl ⟨afterCheck_emode .., afterCheck_mmode ..⟩
    case h_2 => exact .inl ⟨rfl, rfl⟩
  case writeMemory =>
    split at h <;> cases h
    case h_6 => exact .inl ⟨afterCheck_emode .., afterCheck_mmode ..⟩
    all_goals exact .inl ⟨rfl, rfl⟩
  all_goals first
    | cases h
    | (split at h <;> cases h; exact .inl ⟨rfl, rfl⟩)

/-- Of the moves, only the silent micro-steps and a power cycle change a tag. -/
theorem moved_tags {u t : State} (hpower : u.env.script.head? ≠ some .powerCycle) (h : Moved u t) :
    (t.ctrl.emode = u.ctrl.emode ∧ t.ctrl.mmode = u.ctrl.mmode) ∨
      ∃ i, decodeRequest u.x.op = .ok i ∧ microLocal i u = some t := by
  cases h with
  | completion => exact .inl ⟨rfl, rfl⟩
  | bus _ _ parts taken =>
    obtain ⟨-, hctrl, -⟩ := chipStep_frame parts taken
    exact .inl ⟨by rw [hctrl], by rw [hctrl]⟩
  | reported => exact .inl ⟨rfl, rfl⟩
  | rejected => exact .inl ⟨rfl, rfl⟩
  | started => exact .inl ⟨rfl, rfl⟩
  | call _ _ _ micro answer =>
    obtain ⟨-, hctrl, -⟩ := transact_frame answer
    left
    split
    · have hc := microCall_carried micro
      exact ⟨by rw [(hc _).emode, hctrl], by rw [(hc _).mmode, hctrl]⟩
    · exact ⟨by rw [abort_emode, hctrl], by rw [abort_mmode, hctrl]⟩
  | silent _ _ code micro => exact .inr ⟨_, code, micro⟩
  | host _ _ turn =>
    obtain ⟨-, hctrl, -⟩ | ⟨-, hctrl, -⟩ | ⟨rest, hscript, -⟩ := hostTurn_next turn
    · exact .inl ⟨by rw [hctrl], by rw [hctrl]⟩
    · exact .inl ⟨by rw [hctrl], by rw [hctrl]⟩
    · exact absurd (by rw [hscript]; rfl) hpower

/-- Settles O23: a tag changes only at a silent micro-step, and of these only at the labels of R180. -/
theorem modeTagsFollowStateMachine : Obligations.ModeTagsFollowStateMachine := by
  intro s t h hpower
  have hmoved := moved_tags (by simpa using hpower) (step_moved h)
  simp only [asked_ctrl, asked_x] at hmoved
  obtain hsame | ⟨i, hcode, hmicro⟩ := hmoved
  · exact .inl hsame
  · have htags := microLocal_tags hmicro
    simp only [asked_ctrl] at htags
    obtain hsame | ⟨hp, rfl, ht⟩ | ⟨hp, rfl, ht⟩ | ⟨hp, rfl, ht⟩ | ⟨hp, rfl, ht⟩ | ⟨hp, rfl, ht⟩ := htags
    · exact .inl hsame
    · exact .inr (.inl ⟨hp, hcode, ht⟩)
    · exact .inr (.inr (.inl ⟨hp, hcode, ht⟩))
    · exact .inr (.inr (.inr (.inl ⟨hp, hcode, ht⟩)))
    · exact .inr (.inr (.inr (.inr (.inl ⟨hp, hcode, ht⟩))))
    · exact .inr (.inr (.inr (.inr (.inr ⟨hp, hcode, ht⟩))))

end Sys2Proof.Machine
end

section
/-! PROOFS. The controller's invariant, read label by label. `Inv` states each clause for all labels at once; here the same
facts are grouped by the operation in progress, so that a micro-step is proved from what holds at its label to what holds at the
next. Each group is tied to `Inv` in both directions. -/

namespace Sys2Proof.Machine

/-! ### What holds at every label -/

/-- The clauses of `Inv` that speak of no label. -/
structure Standing (s : State) : Prop where
  table : OpTab.wf s.optab = true
  memory : s.chip.memoryWf = true
  bus : s.env.wire = none
  buf : s.x.buf.length = s.x.n.toNat

theorem Inv.standing {s : State} (h : Inv s) : Standing s := ⟨h.table, h.memory, h.bus, h.buf⟩

/-- What `Inv` says of an open window. -/
def WindowOk (s : State) : Prop :=
  s.xport.passthrough = true →
    s.chip.wip = false ∧ ∃ m, s.xport.rdTpl = some (readTemplate s.optab m) ∧ s.chip.emode = some m

theorem windowOk_of_closed {s : State} (h : s.xport.passthrough = false) : WindowOk s := by simp [WindowOk, h]

/-- Between two operations the clauses about labels are void. -/
theorem Inv.of_idle {t : State} (st : Standing t) (idle : t.ctrl.phase = .idle)
    (cause : t.ctrl.cstate ≠ .faulted → t.ctrl.cause = 0)
    (code : t.ctrl.cstate = .faulted → ∃ c : Cause, t.ctrl.cause = c.code)
    (fresh : t.ctrl.cstate = .unconstructed → t.chip.emode = some .Spi ∧ t.xport.passthrough = false)
    (agree : t.ctrl.cstate = .ready → t.chip.emode = some t.ctrl.emode)
    (busy : t.chip.wip = true → t.ctrl.cstate = .faulted)
    (passing : t.ctrl.cstate = .ready → t.xport.passthrough = decide (t.ctrl.mmode = .MemoryMapped))
    (window : WindowOk t) : Inv t where
  table := st.table
  memory := st.memory
  bus := st.bus
  buf := st.buf
  cause := cause
  code := code
  inOp h := absurd idle h
  taken h := absurd idle h
  life h := absurd idle h
  fresh := fresh
  agree hf _ hu := by
    cases hc : t.ctrl.cstate with
    | unconstructed => exact absurd ⟨hc, .inl idle⟩ hu
    | ready => exact agree hc
    | faulted => exact absurd hc hf
  toOpi h := by simp [idle] at h
  toSpi h := by simp [idle] at h
  fromSpi h := by simp [idle] at h
  fromOpi h := by simp [idle] at h
  readBack h := by simp [idle] at h
  latched h := by simp [idle] at h
  busy h := .inl (busy h)
  armed h := by simp [idle] at h
  command _ h := by simp [idle] at h
  starting _ h := by simp [idle] at h
  mapped _ h := by simp [idle] at h
  passing h := by simpa [idle] using passing h
  window := window
  received h := by simp [idle] at h
  operands h := absurd idle h

/-- An abort leaves the invariant, whatever the operation had reached (R310). -/
theorem inv_abort {c : Cause} {u : State} (st : Standing u) (window : WindowOk u) : Inv (abort c u) :=
  .of_idle ⟨st.table, st.memory, st.bus, by simpa using st.buf⟩ rfl (fun h => absurd rfl h) (fun _ => ⟨c, rfl⟩)
    (fun h => by cases h) (fun h => by cases h) (fun _ => rfl) (fun h => by cases h) window

/-- A constructed controller between two operations has neither a stale tag nor a busy chip. -/
theorem inv_of_ready {t : State} (st : Standing t) (idle : t.ctrl.phase = .idle) (ready : t.ctrl.cstate = .ready)
    (cause : t.ctrl.cause = 0) (agree : t.chip.emode = some t.ctrl.emode) (notBusy : t.chip.wip = false)
    (passing : t.xport.passthrough = decide (t.ctrl.mmode = .MemoryMapped)) (window : WindowOk t) : Inv t :=
  .of_idle st idle (fun _ => cause) (fun h => by rw [ready] at h; cases h) (fun h => by rw [ready] at h; cases h)
    (fun _ => agree) (fun h => by rw [notBusy] at h; cases h) (fun _ => passing) window

/-! ### An operation in progress -/

/-- `construct` is the request with code 0 (R130). -/
theorem op_eq_zero_iff {op : Byte} {i : Instr} (h : decodeRequest op = .ok i) : op = 0 ↔ i = .construct := by
  have hcode := decodeRequest_code h
  constructor
  · rintro rfl
    cases h
    rfl
  · rintro rfl
    cases hcode
    rfl

/-- Operation `i` is in progress: the clauses of `Inv` that every operation shares. -/
structure Running (i : Instr) (s : State) : Prop extends Standing s where
  code : decodeRequest s.x.op = .ok i
  label : s.ctrl.phase ∈ steps i
  taken : s.env.req = false
  life : s.ctrl.cstate = if s.x.op = 0 then CState.unconstructed else CState.ready
  cause : s.ctrl.cause = 0

section running
variable {i : Instr} {s : State}

theorem Running.ready (h : Running i s) (hi : i ≠ .construct) : s.ctrl.cstate = .ready := by
  rw [h.life, if_neg (mt (op_eq_zero_iff h.code).mp hi)]

theorem Running.unconstructed (h : Running .construct s) : s.ctrl.cstate = .unconstructed := by
  rw [h.life, if_pos ((op_eq_zero_iff h.code).mpr rfl)]

theorem Running.not_faulted (h : Running i s) : s.ctrl.cstate ≠ .faulted := by
  rw [h.life]
  split <;> simp

theorem Inv.running (h : Inv s) (busy : s.ctrl.phase ≠ .idle) (code : decodeRequest s.x.op = .ok i) : Running i s := by
  obtain ⟨j, hj, label⟩ := h.inOp busy
  cases code.symm.trans hj
  have life := h.life busy
  refine ⟨h.standing, code, label, h.taken busy, life, h.cause ?_⟩
  rw [life]
  split <;> simp

/-- A request that runs is in progress (R302). -/
theorem Running.of_started (h : Inv s) (code : decodeRequest s.x.op = .ok i)
    (run : verdict s.x.op s.ctrl = .run) (label : firstStep i ∈ steps i) : Running i (go (firstStep i) (accepted s)) := by
  obtain ⟨-, life, -⟩ := verdict_eq_run run
  refine ⟨⟨h.table, h.memory, h.bus, h.buf⟩, code, label, rfl, life, h.cause ?_⟩
  rw [life]
  split <;> simp

/-- A call taken by the chip leaves the operation in progress. -/
theorem Running.called {m : EMode} {l : Lop} {a : Option Addr} {p : Payload} {ok : Bool} {d : Nat} {w : Bool}
    (h : Running i s) (hreach : reaches l (Lop.uses l a) p) : Running i (afterCall s m l a p ok d w) :=
  { h with memory := response_memoryWf _ _ _ _ _ hreach h.memory, bus := rfl }

/-- The controller's own registers leave it in progress too, as long as the label is one of the operation. -/
theorem Running.carried {t : State} (h : Running i s) (hc : Carried s t) (label : t.ctrl.phase ∈ steps i)
    (req : t.env.req = s.env.req) : Running i t where
  table := by rw [hc.optab]; exact h.table
  memory := by rw [hc.chip]; exact h.memory
  bus := by rw [hc.env]; exact h.bus
  buf := by rw [hc.buf, hc.n]; exact h.buf
  code := by rw [hc.op]; exact h.code
  label := label
  taken := req.trans h.taken
  life := by rw [hc.cstate, hc.op]; exact h.life
  cause := by rw [hc.cause]; exact h.cause

end running

end Sys2Proof.Machine
end

section
/-! PROOFS. The four kinds of operation, each with what holds at its labels: `construct`, the two mode switches, the twelve
operations in command mode, the two memory-mapped toggles. Each is equivalent to `Inv` while the operation is in progress. -/

namespace Sys2Proof.Machine

/-! ### `construct` (R170) -/

/-- `construct` in progress. -/
structure Constructing (s : State) : Prop extends Running .construct s where
  spi : s.chip.emode = some .Spi
  closed : s.xport.passthrough = false
  tags : s.ctrl.phase ≠ .s1 → s.ctrl.emode = .Spi ∧ s.ctrl.mmode = .Direct
  busy : s.chip.wip = true → s.ctrl.phase = .w1
  armed : s.ctrl.phase = .s3 → s.chip.rsten = true

/-- The labels of `construct` are none of the labels `l`. -/
theorem Constructing.label_not_mem {s : State} (h : Constructing s) (l : List Phase)
    (disjoint : ∀ p ∈ steps .construct, p ∉ l := by decide) : s.ctrl.phase ∉ l := disjoint _ h.label

theorem Constructing.inv {s : State} (h : Constructing s) : Inv s where
  table := h.table
  memory := h.memory
  bus := h.bus
  buf := h.buf
  cause _ := h.cause
  code hf := absurd hf h.not_faulted
  inOp _ := ⟨_, h.code, h.label⟩
  taken _ := h.taken
  life _ := h.life
  fresh _ := ⟨h.spi, h.closed⟩
  agree _ _ hu := by
    rw [h.spi, (h.tags fun hp => hu ⟨h.unconstructed, .inr hp⟩).1]
  toOpi hp := absurd (by simp [hp]) (h.label_not_mem [.o4])
  toSpi hp := absurd (by simp [hp]) (h.label_not_mem [.x4])
  fromSpi hp := absurd hp (h.label_not_mem _)
  fromOpi hp := absurd hp (h.label_not_mem _)
  readBack hp := absurd hp (h.label_not_mem _)
  latched hp := absurd hp (h.label_not_mem _)
  busy hw := .inr (by simp [h.busy hw])
  armed := h.armed
  command hr := by rw [h.unconstructed] at hr; cases hr
  starting _ hp := (h.tags fun hs => by simp [hs] at hp).2
  mapped hr := by rw [h.unconstructed] at hr; cases hr
  passing hr := by rw [h.unconstructed] at hr; cases hr
  window := windowOk_of_closed h.closed
  received hp := absurd (by simp [hp]) (h.label_not_mem [.b2])
  operands _ := by simp only [admitted, h.code, admittedFor]

theorem Inv.constructing {s : State} (h : Inv s) (r : Running .construct s) : Constructing s := by
  obtain ⟨spi, closed⟩ := h.fresh r.unconstructed
  refine ⟨r, spi, closed, fun hp => ?tags, fun hw => ?busy, h.armed⟩
  case tags =>
    have label : s.ctrl.phase ∈ [.s2, .s3, .w1, .s5] := by simpa [steps, hp] using r.label
    have agree := h.agree r.not_faulted (by revert label; generalize s.ctrl.phase = p; revert p; decide)
      (by rintro ⟨-, hi | hi⟩ <;> simp [hi] at label)
    exact ⟨(Option.some.inj (spi.symm.trans agree)).symm, h.starting r.unconstructed label⟩
  case busy =>
    have label := r.label
    obtain hf | hp := h.busy hw
    · exact absurd hf r.not_faulted
    · revert label hp; generalize s.ctrl.phase = p; revert p; decide

/-! ### `to_opi` and `to_spi` (R181, R184) -/

/-- With the window closed in command mode, the transport is as every label but E3 and F2 asks (R83). -/
theorem passing_of_closed {s : State} (closed : s.xport.passthrough = false) (direct : s.ctrl.mmode = .Direct)
    (hp : s.ctrl.phase ∉ [.e3, .f2]) :
    s.xport.passthrough = (if s.ctrl.phase = .e3 then true else if s.ctrl.phase = .f2 then false
      else decide (s.ctrl.mmode = .MemoryMapped)) := by
  simp only [List.mem_cons, List.not_mem_nil, or_false, not_or] at hp
  rw [if_neg hp.1, if_neg hp.2, closed, direct]
  rfl

/-- A mode switch in progress. -/
structure Switching (i : Instr) (s : State) : Prop extends Running i s where
  which : i = .toOpi ∨ i = .toSpi
  closed : s.xport.passthrough = false
  direct : s.ctrl.mmode = .Direct
  agree : switching s.ctrl.phase = false → s.chip.emode = some s.ctrl.emode
  toOpi : s.ctrl.phase = .o4 → s.chip.emode = some .Opi
  toSpi : s.ctrl.phase = .x4 → s.chip.emode = some .Spi
  fromSpi : s.ctrl.phase ∈ [.o1, .o2, .o3, .o4] → s.ctrl.emode = .Spi
  fromOpi : s.ctrl.phase ∈ [.x1, .x2, .x3, .x4] → s.ctrl.emode = .Opi
  readBack : s.ctrl.phase ∈ [.o2, .o3, .x2, .x3] → s.ctrl.tmp = s.chip.cr20
  latched : s.ctrl.phase ∈ [.o3, .x3] → s.chip.wel = true
  busy : s.chip.wip = true → s.ctrl.phase ∈ [.w1, .o4, .x4]

/-- The labels of the two mode switches are none of the labels `l`. -/
theorem Switching.label_not_mem {i : Instr} {s : State} (h : Switching i s) (l : List Phase)
    (disjoint : ∀ p ∈ steps .toOpi ++ steps .toSpi, p ∉ l := by decide) : s.ctrl.phase ∉ l := by
  refine disjoint _ (List.mem_append.mpr ?_)
  obtain rfl | rfl := h.which
  · exact .inl h.label
  · exact .inr h.label

theorem Switching.ready {i : Instr} {s : State} (h : Switching i s) : s.ctrl.cstate = .ready := by
  obtain rfl | rfl := h.which <;> exact h.toRunning.ready (by simp)

theorem Switching.inv {i : Instr} {s : State} (h : Switching i s) : Inv s where
  table := h.table
  memory := h.memory
  bus := h.bus
  buf := h.buf
  cause _ := h.cause
  code hf := absurd hf h.not_faulted
  inOp _ := ⟨_, h.code, h.label⟩
  taken _ := h.taken
  life _ := h.life
  fresh hu := by rw [h.ready] at hu; cases hu
  agree _ hs _ := h.agree hs
  toOpi := h.toOpi
  toSpi := h.toSpi
  fromSpi := h.fromSpi
  fromOpi := h.fromOpi
  readBack := h.readBack
  latched hp := h.latched (by
    have := h.label_not_mem [.m2]
    revert this hp; generalize s.ctrl.phase = p; revert p; decide)
  busy hw := .inr (h.busy hw)
  armed hp := absurd (by simp [hp]) (h.label_not_mem [.s3])
  command _ _ := h.direct
  starting hu := by rw [h.ready] at hu; cases hu
  mapped _ hp := absurd hp (h.label_not_mem _)
  passing _ := passing_of_closed h.closed h.direct (h.label_not_mem _)
  window := windowOk_of_closed h.closed
  received hp := absurd (by simp [hp]) (h.label_not_mem [.b2])
  operands _ := by obtain rfl | rfl := h.which <;> simp only [admitted, h.code, admittedFor]

/-- A constructed controller runs every operation but the toggles in command mode (R353). -/
theorem Inv.closed {s : State} (h : Inv s) (ready : s.ctrl.cstate = .ready)
    (hp : s.ctrl.phase ∉ [.idle, .e3, .f1, .f2]) : s.xport.passthrough = false ∧ s.ctrl.mmode = .Direct := by
  have direct := h.command ready fun hm => hp (by revert hm; generalize s.ctrl.phase = p; revert p; decide)
  have passing := h.passing ready
  simp only [List.mem_cons, List.not_mem_nil, or_false, not_or] at hp
  obtain ⟨-, he, -, hf⟩ := hp
  rw [if_neg he, if_neg hf, direct] at passing
  exact ⟨passing, direct⟩

theorem Inv.switching {i : Instr} {s : State} (h : Inv s) (r : Running i s) (which : i = .toOpi ∨ i = .toSpi) :
    Switching i s := by
  have ready : s.ctrl.cstate = .ready := by obtain rfl | rfl := which <;> exact r.ready (by simp)
  have label : s.ctrl.phase ∉ [.idle, .e3, .f1, .f2] := by
    have := r.label
    obtain rfl | rfl := which <;> (revert this; generalize s.ctrl.phase = p; revert p; decide)
  obtain ⟨closed, direct⟩ := h.closed ready label
  refine ⟨r, which, closed, direct, fun hs => h.agree r.not_faulted hs ?_, h.toOpi, h.toSpi, h.fromSpi, h.fromOpi,
    h.readBack, fun hp => h.latched (List.mem_cons_of_mem _ hp), fun hw => (h.busy hw).resolve_left r.not_faulted⟩
  rintro ⟨hu, -⟩
  rw [ready] at hu
  cases hu

/-! ### The twelve operations of command mode -/

/-- The operations that neither construct, switch the mode nor toggle the window. -/
def commands (i : Instr) : Prop := i ∉ [.construct, .toOpi, .toSpi, .enableMemoryMapped, .disableMemoryMapped]

/-- Their labels. -/
def commandLabels : List Phase :=
  [.i1, .i2, .rs1, .rc1, .rq1, .b1, .b2, .m1, .m2, .w1, .fin, .p1, .p2, .p3, .p4, .p5, .p6, .p7, .g1, .g3]

theorem steps_command {i : Instr} (h : commands i) {p : Phase} (hp : p ∈ steps i) : p ∈ commandLabels := by
  revert p
  cases i <;> first
    | decide
    | (intro p hp; cases hp; done)
    | exact (h (by decide)).elim

/-- An operation of command mode in progress. -/
structure Commanding (i : Instr) (s : State) : Prop extends Running i s where
  which : commands i
  closed : s.xport.passthrough = false
  direct : s.ctrl.mmode = .Direct
  agree : s.chip.emode = some s.ctrl.emode
  latched : s.ctrl.phase = .m2 → s.chip.wel = true
  busy : s.chip.wip = true → s.ctrl.phase = .w1
  received : s.ctrl.phase = .b2 → s.env.rx.length = s.x.n.toNat
  operands : admittedFor i s

/-- The labels of these operations are none of the labels `l`. -/
theorem Commanding.label_not_mem {i : Instr} {s : State} (h : Commanding i s) (l : List Phase)
    (disjoint : ∀ p ∈ commandLabels, p ∉ l := by decide) : s.ctrl.phase ∉ l :=
  disjoint _ (steps_command h.which h.label)

theorem Commanding.ready {i : Instr} {s : State} (h : Commanding i s) : s.ctrl.cstate = .ready :=
  h.toRunning.ready fun hi => h.which (by simp [hi])

theorem Commanding.inv {i : Instr} {s : State} (h : Commanding i s) : Inv s where
  table := h.table
  memory := h.memory
  bus := h.bus
  buf := h.buf
  cause _ := h.cause
  code hf := absurd hf h.not_faulted
  inOp _ := ⟨_, h.code, h.label⟩
  taken _ := h.taken
  life _ := h.life
  fresh hu := by rw [h.ready] at hu; cases hu
  agree _ _ _ := h.agree
  toOpi hp := absurd (by simp [hp]) (h.label_not_mem [.o4])
  toSpi hp := absurd (by simp [hp]) (h.label_not_mem [.x4])
  fromSpi hp := absurd hp (h.label_not_mem _)
  fromOpi hp := absurd hp (h.label_not_mem _)
  readBack hp := absurd hp (h.label_not_mem _)
  latched hp := h.latched (by
    have := h.label_not_mem [.o3, .x3]
    revert this hp; generalize s.ctrl.phase = p; revert p; decide)
  busy hw := .inr (by simp [h.busy hw])
  armed hp := absurd (by simp [hp]) (h.label_not_mem [.s3])
  command _ _ := h.direct
  starting hu := by rw [h.ready] at hu; cases hu
  mapped _ hp := absurd hp (h.label_not_mem _)
  passing _ := passing_of_closed h.closed h.direct (h.label_not_mem _)
  window := windowOk_of_closed h.closed
  received := h.received
  operands _ := by simp only [admitted, h.code]; exact h.operands

theorem Inv.commanding {i : Instr} {s : State} (h : Inv s) (r : Running i s) (which : commands i) : Commanding i s := by
  have ready : s.ctrl.cstate = .ready := r.ready fun hi => which (by simp [hi])
  have mem := steps_command which r.label
  have label : s.ctrl.phase ∉ [.idle, .e3, .f1, .f2] := by
    revert mem; generalize s.ctrl.phase = p; revert p; decide
  obtain ⟨closed, direct⟩ := h.closed ready label
  refine ⟨r, which, closed, direct, h.agree r.not_faulted ?_ ?_, fun hp => h.latched (by simp [hp]), fun hw => ?_,
    h.received, ?_⟩
  · revert mem; generalize s.ctrl.phase = p; revert p; decide
  · rintro ⟨hu, -⟩
    rw [ready] at hu
    cases hu
  · have hp := (h.busy hw).resolve_left r.not_faulted
    revert mem hp; generalize s.ctrl.phase = p; revert p; decide
  · have adm := h.operands fun hi => label (by simp [hi])
    simpa only [admitted, r.code] using adm

/-! ### The memory-mapped toggles (R240, R244) -/

/-- A toggle in progress. -/
structure Toggling (i : Instr) (s : State) : Prop extends Running i s where
  which : i = .enableMemoryMapped ∨ i = .disableMemoryMapped
  agree : s.chip.emode = some s.ctrl.emode
  notBusy : s.chip.wip = false
  mapping : s.ctrl.mmode = if s.ctrl.phase ∈ [.f1, .f2] then MMode.MemoryMapped else .Direct
  passing : s.xport.passthrough = decide (s.ctrl.phase ∈ [.e3, .f1])
  window : WindowOk s

/-- The labels of the two toggles are none of the labels `l`. -/
theorem Toggling.label_not_mem {i : Instr} {s : State} (h : Toggling i s) (l : List Phase)
    (disjoint : ∀ p ∈ steps .enableMemoryMapped ++ steps .disableMemoryMapped, p ∉ l := by decide) : s.ctrl.phase ∉ l := by
  refine disjoint _ (List.mem_append.mpr ?_)
  obtain rfl | rfl := h.which
  · exact .inl h.label
  · exact .inr h.label

theorem Toggling.ready {i : Instr} {s : State} (h : Toggling i s) : s.ctrl.cstate = .ready := by
  obtain rfl | rfl := h.which <;> exact h.toRunning.ready (by simp)

theorem Toggling.inv {i : Instr} {s : State} (h : Toggling i s) : Inv s where
  table := h.table
  memory := h.memory
  bus := h.bus
  buf := h.buf
  cause _ := h.cause
  code hf := absurd hf h.not_faulted
  inOp _ := ⟨_, h.code, h.label⟩
  taken _ := h.taken
  life _ := h.life
  fresh hu := by rw [h.ready] at hu; cases hu
  agree _ _ _ := h.agree
  toOpi hp := absurd (by simp [hp]) (h.label_not_mem [.o4])
  toSpi hp := absurd (by simp [hp]) (h.label_not_mem [.x4])
  fromSpi hp := absurd hp (h.label_not_mem _)
  fromOpi hp := absurd hp (h.label_not_mem _)
  readBack hp := absurd hp (h.label_not_mem _)
  latched hp := absurd hp (h.label_not_mem _)
  busy hw := by rw [h.notBusy] at hw; cases hw
  armed hp := absurd (by simp [hp]) (h.label_not_mem [.s3])
  command _ hp := by
    rw [h.mapping, if_neg fun hf => hp (List.mem_cons_of_mem _ hf)]
  starting hu := by rw [h.ready] at hu; cases hu
  mapped _ hp := by rw [h.mapping, if_pos hp]
  passing _ := by
    have label := h.label_not_mem [.idle]
    rw [h.passing, h.mapping]
    revert label; generalize s.ctrl.phase = p
    cases p <;> decide
  window := h.window
  received hp := absurd (by simp [hp]) (h.label_not_mem [.b2])
  operands _ := by obtain rfl | rfl := h.which <;> simp only [admitted, h.code, admittedFor]

theorem Inv.toggling {i : Instr} {s : State} (h : Inv s) (r : Running i s)
    (which : i = .enableMemoryMapped ∨ i = .disableMemoryMapped) : Toggling i s := by
  have ready : s.ctrl.cstate = .ready := by obtain rfl | rfl := which <;> exact r.ready (by simp)
  have mem : s.ctrl.phase ∈ [.e1, .e2, .e3, .f1, .f2] := by
    have := r.label
    obtain rfl | rfl := which <;> (revert this; generalize s.ctrl.phase = p; revert p; decide)
  have mapping : s.ctrl.mmode = if s.ctrl.phase ∈ [.f1, .f2] then MMode.MemoryMapped else .Direct := by
    split
    · rename_i hf
      exact h.mapped ready hf
    · rename_i hf
      exact h.command ready (by revert mem hf; generalize s.ctrl.phase = p; revert p; decide)
  have passing := h.passing ready
  refine ⟨r, which, h.agree r.not_faulted ?_ ?_, ?_, mapping, ?_, h.window⟩
  · revert mem; generalize s.ctrl.phase = p; revert p; decide
  · rintro ⟨hu, -⟩
    rw [ready] at hu
    cases hu
  · by_contra hw
    have hp := (h.busy (by simpa using hw)).resolve_left r.not_faulted
    revert mem hp; generalize s.ctrl.phase = p; revert p; decide
  · rw [passing, mapping]
    revert mem; generalize s.ctrl.phase = p
    cases p <;> decide

end Sys2Proof.Machine
end

section
/-! PROOFS. Every move keeps the controller's invariant (R25, R31, R83, R172, R181, R184, R185, R221, R301, R353): the moves
outside an operation, then the micro-steps of each kind of operation, label by label. -/

namespace Sys2Proof.Machine

/-! ### The chip's flags after the commands of a well-behaved controller -/

/-- The mode is read from the two low bits of CR2 at address 0 (R40). -/
theorem Chip.emode_congr {c c' : Chip} (h0 : c'.opiEn = c.opiEn) (h1 : c'.cr2B1 = c.cr2B1) : c'.emode = c.emode := by
  simp only [Chip.emode, h0, h1]

/-- No mutating command but a CR2 write touches CR2 at address 0 (R268 to R280). -/
theorem effectOf_cr20 {l : Lop} (hl : l ≠ .writeCr2) (a : Option Addr) (p : Payload) (c : Chip) :
    (effectOf l a p c).cr20 = c.cr20 := by
  cases l
  case writeCr2 => exact absurd rfl hl
  case writeSrCr => simp only [effectOf, srCrEffect]; split <;> rfl
  case pageProgram => simp only [effectOf, programEffect]; split <;> rfl
  case sectorErase => simp only [effectOf, eraseEffect]; split <;> rfl
  case blockErase64k => simp only [effectOf, eraseEffect]; split <;> rfl
  all_goals rfl

/-- A mutating command that finds WEL set (R288). -/
theorem response_of_wel {l : Lop} (hl : l.mutating = true) {a : Option Addr} {p : Payload} {k : Nat} {c : Chip}
    (hw : c.wel = true) : response l a p k c = c.mutated (effectOf l a p) := by
  cases l
  case writeSrCr => exact if_pos hw
  case writeCr2 => exact if_pos hw
  case pageProgram => exact if_pos hw
  case sectorErase => exact if_pos hw
  case blockErase64k => exact if_pos hw
  case chipErase => exact if_pos hw
  all_goals cases hl

/-- A CR2 write at address 0 stores its byte there (R270). -/
theorem mutated_writeCr2_zero (v : Byte) (c : Chip) :
    (c.mutated (effectOf .writeCr2 (some 0) (.write [v]))).cr20 = v := rfl

/-- And one at another address leaves it. -/
theorem mutated_writeCr2_other {a : Addr} (ha : a ≠ 0) (v : Byte) (c : Chip) :
    (c.mutated (effectOf .writeCr2 (some a) (.write [v]))).cr20 = c.cr20 := by
  simp only [Chip.mutated, raiseWip_cr20, effectOf, cr2Effect, Chip.setCr2, if_neg ha, asked_cr20]

/-! ### The moves outside an operation -/

/-- The schedule's answer is no part of the invariant. -/
theorem Inv.asked {s : State} (h : Inv s) : Inv (asked s) := by
  rw [asked_eq]
  exact { h with }

/-- Completion clears WIP and WEL; no label that needs the latch is reached while the chip is busy (R290, R351). -/
theorem inv_chipDone {u : State} (h : Inv u) (hw : u.chip.wip = true) : Inv (chipDone u) :=
  { h with
    latched := fun hp => by
      have notFaulted : u.ctrl.cstate ≠ .faulted := by
        rw [h.life fun hi => by rw [chipDone_ctrl, hi] at hp; simp at hp]
        split <;> simp
      have busy := (h.busy hw).resolve_left notFaulted
      rw [chipDone_ctrl] at hp
      exfalso
      revert busy hp; generalize u.ctrl.phase = p; revert p; decide
    busy := fun hw' => by simp at hw'
    window := fun ht => ⟨by simp, (h.window ht).2⟩ }

/-- What the host's registers hold is checked when a request is taken, not before (R30, R31). -/
theorem inv_hostWrite {u t : State} (h : Inv u) (idle : u.ctrl.phase = .idle) (htab : t.optab = u.optab)
    (hctrl : t.ctrl = u.ctrl) (hxport : t.xport = u.xport) (hwire : t.env.wire = none)
    (hchip : t.chip = u.chip ∨ t.chip = u.chip.asked) (hbuf : t.x.buf.length = t.x.n.toNat) : Inv t := by
  have hmem : t.chip.memoryWf = true := by obtain hc | hc := hchip <;> rw [hc] <;> exact h.memory
  have hmode : t.chip.emode = u.chip.emode := by obtain hc | hc := hchip <;> rw [hc]; rfl
  have hwip : t.chip.wip = u.chip.wip := by obtain hc | hc := hchip <;> rw [hc]; rfl
  refine .of_idle ⟨htab ▸ h.table, hmem, hwire, hbuf⟩ (by rw [hctrl, idle]) ?_ ?_ ?_ ?_ ?_ ?_ ?_
  · rw [hctrl]; exact h.cause
  · rw [hctrl]; exact h.code
  · rw [hctrl, hmode, hxport]; exact h.fresh
  · rw [hctrl, hmode]
    exact fun hr => h.agree (by simp [hr]) (by simp [idle, Sys2Proof.Machine.switching]) (by simp [hr])
  · rw [hctrl, hwip]
    exact fun hw => (h.busy hw).resolve_right (by simp [idle])
  · rw [hctrl, hxport]
    intro hr
    simpa [idle] using h.passing hr
  · rw [WindowOk, hxport, hwip, htab, hmode]
    exact h.window

/-- Power-on leaves the chip idle and in Spi (R46, R47). -/
theorem powerOn_wip (u : State) : (powerOn u).chip.wip = false := by simp [Chip.wip, srWip]

theorem powerOn_emode (u : State) : (powerOn u).chip.emode = some .Spi := by simp [emode_spi]

/-- Power-on restores the launch, with the array canonical (R36, R46, R47). -/
theorem inv_powerOn {u : State} (htab : OpTab.wf u.optab = true) (hmem : u.chip.memoryWf = true) : Inv (powerOn u) :=
  .of_idle ⟨htab, powerOn_memoryWf hmem, rfl, rfl⟩ rfl (fun _ => rfl) (fun h => by cases h)
    (fun _ => ⟨powerOn_emode u, rfl⟩) (fun h => by cases h) (fun h => by rw [powerOn_wip] at h; cases h)
    (fun h => by cases h) (windowOk_of_closed rfl)

theorem inv_hostTurn {u t : State} (h : Inv u) (idle : u.ctrl.phase = .idle) (turn : hostTurn u = .next t) : Inv t := by
  obtain ⟨htab, hctrl, -, hxport, hwire, -, -, hchip, -, hbuf⟩ | ⟨htab, hctrl, -, hxport, hwire, -, -, hx, hchip, -⟩ |
    ⟨rest, -, rfl⟩ := hostTurn_next turn
  · exact inv_hostWrite h idle htab hctrl hxport (hwire.trans h.bus) (.inl hchip) (hbuf h.buf)
  · exact inv_hostWrite h idle htab hctrl hxport hwire (.inr hchip) (by rw [hx]; exact h.buf)
  · exact inv_powerOn (by simpa using h.table) (powerLoss_memoryWf h.memory)

/-- A request to a faulted controller changes the status and the strobe (R301). -/
theorem inv_reported {u : State} (h : Inv u) (idle : u.ctrl.phase = .idle) :
    Inv { accepted u with x.st := u.ctrl.cause } :=
  inv_hostWrite h idle rfl rfl rfl h.bus (.inl rfl) h.buf

/-! ### Calls -/

/-- A micro-step's call: an `Err` aborts and leaves the invariant, so only what follows an `Ok` is open (R147, R150). -/
theorem inv_call {i : Instr} {u : State} {k : Call} {c : Called} (r : Running i u) (closed : u.xport.passthrough = false)
    (answer : transact ⟨build u.optab u.ctrl.emode k.lop k.addr, k.payload⟩ u = .next c)
    (next : ∀ d w, (u.chip.wip = true → k.lop = .readSr) → reaches k.lop (Lop.uses k.lop k.addr) k.payload →
      Inv (k.next (afterCall u u.ctrl.emode k.lop k.addr k.payload true d w))) :
    Inv (if c.ok then k.next c.s else abort .transportError c.s) := by
  obtain ⟨-, ⟨-, rfl⟩ | ⟨-, -, hbusy, hreach, d, w, hc, -, -⟩⟩ := transact_build_next r.table answer
  · exact inv_abort ⟨r.table, r.memory, r.bus, r.buf⟩ (windowOk_of_closed closed)
  · rw [hc]
    cases c.ok
    · exact inv_abort (r.called hreach).toStanding (windowOk_of_closed closed)
    · exact next d w hbusy hreach

/-! ### `construct` -/

/-- At launch the chip is idle, in Spi, with no window (R48). -/
theorem constructing_of_started {u : State} (h : Inv u) (idle : u.ctrl.phase = .idle)
    (code : decodeRequest u.x.op = .ok .construct) (run : verdict u.x.op u.ctrl = .run) :
    Constructing (go .s1 (accepted u)) := by
  have r := Running.of_started h code run (by decide)
  obtain ⟨spi, closed⟩ := h.fresh r.unconstructed
  refine ⟨r, spi, closed, fun hp => absurd rfl hp, fun hw => ?_, fun hp => by cases hp⟩
  obtain hf | hp := h.busy hw
  · exact absurd hf r.not_faulted
  · simp [idle] at hp

theorem Constructing.call {u : State} {k : Call} (h : Constructing u) (micro : microCall .construct u = some k)
    {d : Nat} {w : Bool} (hreach : reaches k.lop (Lop.uses k.lop k.addr) k.payload) :
    Inv (k.next (afterCall u u.ctrl.emode k.lop k.addr k.payload true d w)) := by
  have r := h.toRunning.called (m := u.ctrl.emode) (ok := true) (d := d) (w := w) hreach
  have carried := microCall_carried micro (afterCall u u.ctrl.emode k.lop k.addr k.payload true d w)
  refine Constructing.inv ?_
  simp only [microCall] at micro
  split at micro <;> cases micro
  case h_1 hp =>
    have tags := h.tags (by simp [hp])
    exact ⟨r.carried carried (by simp [steps]) rfl, h.spi, h.closed, fun _ => tags,
      fun hw => by have := h.busy hw; simp [hp] at this, fun _ => rfl⟩
  case h_2 hp =>
    have tags := h.tags (by simp [hp])
    have reset : response .resetMemory (Lop.uses .resetMemory none) .none u.env.draws u.chip =
        resetRegisters u.env.draws u.chip := if_pos (h.armed hp)
    obtain ⟨-, -, spi⟩ := resetRegisters_flags u.env.draws u.chip
    exact ⟨r.carried carried (by simp [steps]) rfl, by rw [carried.chip, afterCall_chip, reset]; exact spi, h.closed,
      fun _ => tags, fun _ => rfl, fun hp => by cases hp⟩
  case h_3 hp =>
    have tags := h.tags (by simp [hp])
    have label : (afterPoll .s5 (afterCall u u.ctrl.emode .readSr none (.read 1) true d w)).ctrl.phase =
        if u.chip.wip then .w1 else .s5 := rfl
    refine ⟨r.carried carried ?_ rfl, h.spi, h.closed, fun _ => tags, fun hw => ?_, fun hp => ?_⟩
    · dsimp only [pollCall]
      rw [label]
      split <;> simp [steps]
    · exact if_pos hw
    · dsimp only [pollCall] at hp
      rw [label] at hp
      split at hp <;> cases hp

theorem Constructing.silent {u t : State} (h : Constructing u) (micro : microLocal .construct u = some t) : Inv t := by
  simp only [microLocal] at micro
  split at micro <;> cases micro
  case h_1 hp =>
    refine Constructing.inv ⟨{ h with label := by simp [constructTags, steps] }, h.spi, h.closed, fun _ => ⟨rfl, rfl⟩,
      fun hw => ?_, fun hp => by cases hp⟩
    have := h.busy hw
    simp [hp] at this
  case h_2 hp =>
    obtain ⟨spi, direct⟩ := h.tags (by simp [hp])
    refine inv_of_ready ⟨h.table, h.memory, h.bus, h.buf⟩ rfl rfl h.cause ?_ ?_ ?_ (windowOk_of_closed h.closed)
    · exact h.spi.trans (congrArg some spi.symm)
    · show u.chip.wip = false
      by_contra hw
      have := h.busy (by simpa using hw)
      simp [hp] at this
    · show u.xport.passthrough = decide (u.ctrl.mmode = .MemoryMapped)
      rw [h.closed, direct]
      rfl

end Sys2Proof.Machine
end

section
/-! PROOFS. Every move keeps the controller's invariant, continued: the two mode switches (R181, R184, R185), the two
memory-mapped toggles (R240, R244), the twelve operations of command mode (R158, R190 to R232), and the statement. -/

namespace Sys2Proof.Machine

/-- A constructed controller between two operations: tag and chip agree, the chip is idle, the transport is in passthrough
exactly in memory-mapped mode (R83, R185). -/
theorem Inv.ready_idle {u : State} (h : Inv u) (idle : u.ctrl.phase = .idle) (ready : u.ctrl.cstate = .ready) :
    u.chip.emode = some u.ctrl.emode ∧ u.chip.wip = false ∧
      u.xport.passthrough = decide (u.ctrl.mmode = .MemoryMapped) := by
  refine ⟨h.agree (by simp [ready]) (by simp [idle, Machine.switching]) (by simp [ready]), ?_, ?_⟩
  · by_contra hw
    obtain hf | hp := h.busy (by simpa using hw)
    · simp [ready] at hf
    · simp [idle] at hp
  · simpa [idle] using h.passing ready

/-- The label after a poll (R156). -/
theorem afterPoll_phase (u : State) (m : EMode) (q : Phase) (d : Nat) (w : Bool) :
    (afterPoll q (afterCall u m .readSr none (.read 1) true d w)).ctrl.phase = if u.chip.wip then .w1 else q := rfl

/-- O1 and X1 keep the register they read (R181, R184). -/
theorem keepMode_tmp (u : State) (m : EMode) (q : Phase) (d : Nat) (w : Bool) :
    (keepMode q (afterCall u m .readCr2 (some 0) (.read 1) true d w)).ctrl.tmp = u.chip.cr20 :=
  show u.chip.cr2At 0 = u.chip.cr20 from if_pos rfl

/-! ### The mode switches -/

section switching
variable {i : Instr} {t u : State}

/-- At the labels before the register write. -/
theorem Switching.before (r : Running i t) (which : i = .toOpi ∨ i = .toSpi) (closed : t.xport.passthrough = false)
    (direct : t.ctrl.mmode = .Direct) (agree : t.chip.emode = some t.ctrl.emode) (notBusy : t.chip.wip = false)
    (label : t.ctrl.phase ∈ [.o1, .o2, .o3, .x1, .x2, .x3])
    (fromSpi : t.ctrl.phase ∈ [.o1, .o2, .o3, .o4] → t.ctrl.emode = .Spi)
    (fromOpi : t.ctrl.phase ∈ [.x1, .x2, .x3, .x4] → t.ctrl.emode = .Opi)
    (readBack : t.ctrl.phase ∈ [.o2, .o3, .x2, .x3] → t.ctrl.tmp = t.chip.cr20)
    (latched : t.ctrl.phase ∈ [.o3, .x3] → t.chip.wel = true) : Switching i t :=
  { r with
    which, closed, direct, fromSpi, fromOpi, readBack, latched
    agree := fun _ => agree
    toOpi := fun hp => by simp [hp] at label
    toSpi := fun hp => by simp [hp] at label
    busy := fun hw => by simp [notBusy] at hw }

/-- At the labels after the tag has followed. -/
theorem Switching.after (r : Running i t) (which : i = .toOpi ∨ i = .toSpi) (closed : t.xport.passthrough = false)
    (direct : t.ctrl.mmode = .Direct) (agree : t.chip.emode = some t.ctrl.emode)
    (label : t.ctrl.phase ∈ [.w1, .o6, .x6]) (busy : t.chip.wip = true → t.ctrl.phase = .w1) : Switching i t := by
  have apart : ∀ l : List Phase, (∀ p ∈ [Phase.w1, .o6, .x6], p ∉ l) → t.ctrl.phase ∉ l := fun l hl => hl _ label
  exact
    { r with
      which, closed, direct
      agree := fun _ => agree
      toOpi := fun hp => absurd (by simp [hp]) (apart [.o4] (by decide))
      toSpi := fun hp => absurd (by simp [hp]) (apart [.x4] (by decide))
      fromSpi := fun hp => absurd hp (apart _ (by decide))
      fromOpi := fun hp => absurd hp (apart _ (by decide))
      readBack := fun hp => absurd hp (apart _ (by decide))
      latched := fun hp => absurd hp (apart _ (by decide))
      busy := fun hw => by simp [busy hw] }

theorem switching_of_started (h : Inv u) (idle : u.ctrl.phase = .idle) (code : decodeRequest u.x.op = .ok i)
    (run : verdict u.x.op u.ctrl = .run) (which : i = .toOpi ∨ i = .toSpi) :
    Switching i (go (firstStep i) (accepted u)) := by
  obtain ⟨-, -, -, direct, toOpi, toSpi⟩ := verdict_eq_run run
  have hcode := decodeRequest_code code
  have r := Running.of_started h code run (by obtain rfl | rfl := which <;> decide)
  have ready : u.ctrl.cstate = .ready := r.ready (by obtain rfl | rfl := which <;> simp)
  obtain ⟨agree, notBusy, passing⟩ := h.ready_idle idle ready
  obtain rfl | rfl := which
  · obtain hop : 0x01#8 = u.x.op := Option.some.inj hcode
    have direct := direct (by simp [← hop]) (by simp [← hop])
    exact .before r (.inl rfl) (by simpa [direct] using passing) direct agree notBusy (by simp [firstStep])
      (fun _ => toOpi hop.symm) (by simp [firstStep]) (by simp [firstStep]) (by simp [firstStep])
  · obtain hop : 0x02#8 = u.x.op := Option.some.inj hcode
    have direct := direct (by simp [← hop]) (by simp [← hop])
    exact .before r (.inr rfl) (by simpa [direct] using passing) direct agree notBusy (by simp [firstStep])
      (by simp [firstStep]) (fun _ => toSpi hop.symm) (by simp [firstStep]) (by simp [firstStep])

/-- Between two labels of a switch but `o4` and `x4`, an idle chip agrees with the tag. -/
theorem Switching.quiet (h : Switching i u) (label : u.ctrl.phase ∉ [.w1, .o4, .x4]) :
    u.chip.emode = some u.ctrl.emode ∧ u.chip.wip = false := by
  refine ⟨h.agree ?_, ?_⟩
  · revert label; generalize u.ctrl.phase = p; cases p <;> decide
  · by_contra hw
    exact label (h.busy (by simpa using hw))

/-- The poll of W1 keeps a switch where its wait is (R156). -/
theorem Switching.poll (h : Switching i u) (hp : u.ctrl.phase = .w1) {q : Phase} (hq : q ∈ [.o6, .x6]) (label : q ∈ steps i)
    {d : Nat} {w : Bool} : Switching i (afterPoll q (afterCall u u.ctrl.emode .readSr none (.read 1) true d w)) := by
  have r := h.toRunning.called (m := u.ctrl.emode) (l := .readSr) (a := none) (p := .read 1) (ok := true) (d := d) (w := w)
    trivial
  refine .after (r.carried (carried_afterPoll _ _) ?_ rfl) h.which h.closed h.direct
    (h.agree (by simp [hp, Machine.switching])) ?_ fun hw => if_pos hw
  · rw [afterPoll_phase]
    split
    · exact hp ▸ h.label
    · exact label
  · rw [afterPoll_phase]
    split
    · simp
    · exact List.mem_cons_of_mem _ hq

/-- The tag that goes with a label before the register write. -/
def TagAt (m : EMode) (p : Phase) : Prop :=
  (p ∈ [.o1, .o2, .o3, .o4] → m = .Spi) ∧ (p ∈ [.x1, .x2, .x3, .x4] → m = .Opi)

/-- O1 and X1: the register read is kept (R181, R184). -/
theorem Switching.read (h : Switching i u) (hp : u.ctrl.phase ∈ [.o1, .x1]) {q : Phase} (hq : q ∈ [.o2, .x2])
    (label : q ∈ steps i) (tag : TagAt u.ctrl.emode q) {d : Nat} {w : Bool} :
    Switching i (keepMode q (afterCall u u.ctrl.emode .readCr2 (some 0) (.read 1) true d w)) := by
  have r := h.toRunning.called (m := u.ctrl.emode) (l := .readCr2) (a := some 0) (p := .read 1) (ok := true) (d := d)
    (w := w) trivial
  obtain ⟨agree, notBusy⟩ := h.quiet (by revert hp; generalize u.ctrl.phase = p; cases p <;> decide)
  have early : q ∈ [.o1, .o2, .o3, .x1, .x2, .x3] ∧ q ∉ [.o3, .x3] := by revert hq; cases q <;> decide
  exact .before (r.carried (carried_keepMode _ _) label rfl) h.which h.closed h.direct agree notBusy early.1 tag.1 tag.2
    (fun _ => keepMode_tmp ..) (fun hl => absurd hl early.2)

/-- O2 and X2: WRITE_ENABLE sets the latch (R181, R184). -/
theorem Switching.enable (h : Switching i u) (hp : u.ctrl.phase ∈ [.o2, .x2]) {q : Phase} (hq : q ∈ [.o3, .x3])
    (label : q ∈ steps i) (tag : TagAt u.ctrl.emode q) {d : Nat} {w : Bool} :
    Switching i (go q (afterCall u u.ctrl.emode .writeEnable none .none true d w)) := by
  have r := h.toRunning.called (m := u.ctrl.emode) (l := .writeEnable) (a := none) (p := .none) (ok := true) (d := d)
    (w := w) trivial
  obtain ⟨agree, notBusy⟩ := h.quiet (by revert hp; generalize u.ctrl.phase = p; cases p <;> decide)
  have tmp := h.readBack (by revert hp; generalize u.ctrl.phase = p; cases p <;> decide)
  have early : q ∈ [.o1, .o2, .o3, .x1, .x2, .x3] := by revert hq; cases q <;> decide
  exact .before (r.carried (carried_go _ _) label rfl) h.which h.closed h.direct agree ((setWel_wip u.chip).trans notBusy)
    early tag.1 tag.2 (fun _ => tmp) (fun _ => setWel_wel u.chip)

/-- O3 and X3: the chip switches, the tag not yet (R181, R184). -/
theorem Switching.write (h : Switching i u) (hp : u.ctrl.phase ∈ [.o3, .x3]) {q : Phase} (hq : q ∈ [.o4, .x4])
    (label : q ∈ steps i) (tag : TagAt u.ctrl.emode q) {v : Byte} {d : Nat} {w : Bool}
    (toOpi : q = .o4 → v.getLsbD 0 = true ∧ v.getLsbD 1 = false)
    (toSpi : q = .x4 → v.getLsbD 0 = false ∧ v.getLsbD 1 = false) :
    Switching i (go q (afterCall u u.ctrl.emode .writeCr2 (some 0) (.write [v]) true d w)) := by
  have r := h.toRunning.called (m := u.ctrl.emode) (l := .writeCr2) (a := some 0) (p := .write [v]) (ok := true) (d := d)
    (w := w) trivial
  have chip : response .writeCr2 (some 0) (.write [v]) u.env.draws u.chip =
      u.chip.mutated (effectOf .writeCr2 (some 0) (.write [v])) := response_of_wel rfl (h.latched hp)
  have cr20 := mutated_writeCr2_zero v u.chip
  rw [← chip] at cr20
  have late : switching q = true ∧ q ∉ [.o2, .o3, .x2, .x3] ∧ q ∉ [.o3, .x3] ∧ q ∈ [.w1, .o4, .x4] := by
    revert hq; cases q <;> decide
  obtain ⟨switched, notRead, notLatched, waiting⟩ := late
  exact
    { r.carried (carried_go _ _) label rfl with
      which := h.which, closed := h.closed, direct := h.direct
      agree := fun hs => absurd (switched.symm.trans hs) (by simp)
      toOpi := fun hl => (emode_opi _).mpr (cr20.symm ▸ toOpi hl)
      toSpi := fun hl => (emode_spi _).mpr (cr20.symm ▸ toSpi hl)
      fromSpi := tag.1
      fromOpi := tag.2
      readBack := fun hl => absurd hl notRead
      latched := fun hl => absurd hl notLatched
      busy := fun _ => waiting }

/-- The calls of `to_opi`: the tag says Spi until the register is written, with bit 0 set (R181). -/
theorem Switching.call_toOpi (h : Switching .toOpi u) {k : Call} (micro : microCall .toOpi u = some k) {d : Nat}
    {w : Bool} : Inv (k.next (afterCall u u.ctrl.emode k.lop k.addr k.payload true d w)) := by
  have tag : u.ctrl.phase ∈ [.o1, .o2, .o3, .o4] → ∀ q, q ∉ [.x1, .x2, .x3, .x4] → TagAt u.ctrl.emode q :=
    fun hp q hq => ⟨fun _ => h.fromSpi hp, fun hx => absurd hx hq⟩
  refine Switching.inv (i := .toOpi) ?_
  simp only [microCall] at micro
  split at micro <;> cases micro
  case h_1 hp => exact h.read (by simp [hp]) (by simp) (by simp [steps]) (tag (by simp [hp]) _ (by decide))
  case h_2 hp => exact h.enable (by simp [hp]) (by simp) (by simp [steps]) (tag (by simp [hp]) _ (by decide))
  case h_3 hp =>
    have spi := h.fromSpi (by simp [hp])
    have b1 := ((emode_spi _).mp (spi ▸ (h.quiet (by simp [hp])).1)).2
    refine h.write (by simp [hp]) (by simp) (by simp [steps]) (tag (by simp [hp]) _ (by decide)) (fun _ => ?_)
      (fun hx => by cases hx)
    rw [(opiValue_bits _).1, (opiValue_bits _).2, h.readBack (by simp [hp])]
    exact ⟨rfl, b1⟩
  case h_4 hp => exact h.poll hp (by simp) (by simp [steps])

/-- The calls of `to_spi`: the tag says Opi until the register is written, with bits 1:0 clear (R184). -/
theorem Switching.call_toSpi (h : Switching .toSpi u) {k : Call} (micro : microCall .toSpi u = some k) {d : Nat}
    {w : Bool} : Inv (k.next (afterCall u u.ctrl.emode k.lop k.addr k.payload true d w)) := by
  have tag : u.ctrl.phase ∈ [.x1, .x2, .x3, .x4] → ∀ q, q ∉ [.o1, .o2, .o3, .o4] → TagAt u.ctrl.emode q :=
    fun hp q hq => ⟨fun ho => absurd ho hq, fun _ => h.fromOpi hp⟩
  refine Switching.inv (i := .toSpi) ?_
  simp only [microCall] at micro
  split at micro <;> cases micro
  case h_1 hp => exact h.read (by simp [hp]) (by simp) (by simp [steps]) (tag (by simp [hp]) _ (by decide))
  case h_2 hp => exact h.enable (by simp [hp]) (by simp) (by simp [steps]) (tag (by simp [hp]) _ (by decide))
  case h_3 hp =>
    exact h.write (by simp [hp]) (by simp) (by simp [steps]) (tag (by simp [hp]) _ (by decide)) (fun ho => by cases ho)
      (fun _ => spiValue_bits _)
  case h_4 hp => exact h.poll hp (by simp) (by simp [steps])

/-- The last label of a switch: the chip is idle and agrees with the new tag. -/
theorem Switching.finish (h : Switching i u) (label : u.ctrl.phase ∉ [.w1, .o4, .x4]) : Inv (finish u) := by
  obtain ⟨agree, notBusy⟩ := h.quiet label
  exact inv_of_ready ⟨h.table, h.memory, h.bus, h.buf⟩ rfl h.ready h.cause agree notBusy
    (by simp [h.closed, h.direct]) (windowOk_of_closed h.closed)

/-- O4 and X4: the tag follows the chip (R181, R184). -/
theorem Switching.retag (h : Switching i u) {m : EMode} (chip : u.chip.emode = some m) : Inv (retag m u) :=
  Switching.inv (i := i) <| .after
    { h.toRunning with label := by obtain rfl | rfl := h.which <;> simp [Machine.retag, steps] }
    h.which h.closed h.direct chip (by simp [Machine.retag]) fun _ => rfl

theorem Switching.silent (h : Switching i u) (micro : microLocal i u = some t) : Inv t := by
  obtain rfl | rfl := h.which
  · simp only [microLocal] at micro
    split at micro <;> cases micro
    case h_1 hp => exact h.retag (h.toOpi hp)
    case h_2 hp => exact h.finish (by simp [hp])
  · simp only [microLocal] at micro
    split at micro <;> cases micro
    case h_1 hp => exact h.retag (h.toSpi hp)
    case h_2 hp => exact h.finish (by simp [hp])

end switching

/-! ### The memory-mapped toggles -/

section toggling
variable {i : Instr} {t u : State}

theorem toggling_of_started (h : Inv u) (idle : u.ctrl.phase = .idle) (code : decodeRequest u.x.op = .ok i)
    (run : verdict u.x.op u.ctrl = .run) (which : i = .enableMemoryMapped ∨ i = .disableMemoryMapped) :
    Toggling i (go (firstStep i) (accepted u)) := by
  obtain ⟨-, -, mapped, direct, -, -⟩ := verdict_eq_run run
  have hcode := decodeRequest_code code
  have r := Running.of_started h code run (by obtain rfl | rfl := which <;> decide)
  have ready : u.ctrl.cstate = .ready := r.ready (by obtain rfl | rfl := which <;> simp)
  obtain ⟨agree, notBusy, passing⟩ := h.ready_idle idle ready
  refine ⟨r, which, agree, notBusy, ?_, ?_, h.window⟩
  · obtain rfl | rfl := which
    · obtain hop : 0x0F#8 = u.x.op := Option.some.inj hcode
      exact direct (by simp [← hop]) (by simp [← hop])
    · obtain hop : 0x10#8 = u.x.op := Option.some.inj hcode
      exact mapped hop.symm
  · obtain rfl | rfl := which
    · obtain hop : 0x0F#8 = u.x.op := Option.some.inj hcode
      exact passing.trans (by rw [direct (by simp [← hop]) (by simp [← hop])]; rfl)
    · obtain hop : 0x10#8 = u.x.op := Option.some.inj hcode
      exact passing.trans (by rw [mapped hop.symm]; rfl)

theorem Toggling.silent (h : Toggling i u) (micro : microLocal i u = some t) : Inv t := by
  have st : Standing u := h.toStanding
  have mapping := h.mapping
  have passing := h.passing
  obtain rfl | rfl := h.which
  · simp only [microLocal] at micro
    split at micro <;> cases micro
    case h_1 hp =>
      rw [hp] at mapping passing
      exact Toggling.inv (i := .enableMemoryMapped)
        { h with label := by simp [steps], mapping := mapping, passing := passing }
    case h_2 hp =>
      rw [hp] at mapping
      exact Toggling.inv (i := .enableMemoryMapped)
        { h with label := by simp [steps], mapping := mapping, passing := rfl
                 window := fun _ => ⟨h.notBusy, _, rfl, h.agree⟩ }
    case h_3 hp =>
      rw [hp] at passing
      exact inv_of_ready ⟨st.table, st.memory, st.bus, st.buf⟩ rfl h.ready h.cause h.agree h.notBusy passing h.window
  · simp only [microLocal] at micro
    split at micro <;> cases micro
    case h_1 hp =>
      rw [hp] at mapping
      exact Toggling.inv (i := .disableMemoryMapped)
        { h with label := by simp [steps], mapping := mapping, passing := rfl, window := windowOk_of_closed rfl }
    case h_2 hp =>
      rw [hp] at passing
      exact inv_of_ready ⟨st.table, st.memory, st.bus, st.buf⟩ rfl h.ready h.cause h.agree h.notBusy passing h.window

end toggling

end Sys2Proof.Machine
end

section
/-! PROOFS. Every move keeps the controller's invariant, concluded: the twelve operations of command mode (R158, R190 to R232),
and the statement. -/

namespace Sys2Proof.Machine

/-! ### Operands: from the dispatcher's refusals to the labels (R62, R187, R211, R216, R220, R226) -/

theorem one_le_toNat {n : Len} (h : n ≠ 0) : 1 ≤ n.toNat := by bv_omega

theorem rangeBar_eq_none {u : State} : rangeBar u = none ↔ u.x.a.toNat + u.x.n.toNat ≤ Config.capacity := by
  unfold rangeBar
  split <;> simp_all

theorem eraseBar_eq_none {u : State} : eraseBar u = none ↔ u.x.a.toNat < Config.capacity := by
  unfold eraseBar
  split <;> simp_all

/-- A request that is not refused has admitted operands at its first label (R302). -/
theorem admittedFor_of_barOf {i : Instr} {u : State} (h : barOf i u = none) :
    admittedFor i (go (firstStep i) (accepted u)) := by
  cases i
  case readMemory =>
    simp only [barOf, readBar] at h
    split at h
    · cases h
    · rename_i hn
      exact ⟨one_le_toNat hn, rangeBar_eq_none.mp h⟩
  case pageProgram =>
    simp only [barOf, pageBar] at h
    split at h
    · cases h
    · rename_i hn
      refine ⟨one_le_toNat hn, fun hfits => ?_, fun hp => absurd rfl hp⟩
      have hfits : fitsPage u.x.a.toNat u.x.n.toNat = true := hfits
      rw [if_pos hfits] at h
      exact rangeBar_eq_none.mp h
  case writeMemory =>
    refine ⟨?_, fun hp => (by simp [firstStep] at hp), fun _ => ⟨by simp [firstStep], fun hp => (by cases hp)⟩,
      fun hp => (by cases hp), fun hp => (by cases hp), fun hp => (by simp [firstStep] at hp)⟩
    simp only [barOf, writeBar] at h
    split at h
    · rename_i hn
      exact .inl hn
    · exact .inr (rangeBar_eq_none.mp h)
  case eraseSector => exact eraseBar_eq_none.mp h
  case eraseBlock64k => exact eraseBar_eq_none.mp h
  case writeConfigurationRegister2 =>
    intro ha
    simp only [barOf, modeBitsBar] at h
    split at h
    · cases h
    · rename_i hbits
      have ha : u.x.a = 0 := ha
      simp only [ha, true_and, not_not] at hbits
      exact (and_three_eq _ _).mp hbits
  all_goals trivial

/-- From M1 on, the operands of a mutating operation stay admitted while registers, sequencer and mode bits stay (R158). -/
theorem admittedFor_mutating {i : Instr} {u v : State} (h : admittedFor i u) (hu : u.ctrl.phase ∈ [.m1, .m2, .w1])
    (hv : v.ctrl.phase ∈ [.m2, .w1, .fin, .g3, .p6]) (hx : v.x = u.x) (hseq : v.seq = u.seq)
    (hopi : v.chip.opiEn = u.chip.opiEn) (hb1 : v.chip.cr2B1 = u.chip.cr2B1) : admittedFor i v := by
  have apart : ∀ p : Phase, p ∉ [.m2, .w1, .fin, .g3, .p6] → v.ctrl.phase ≠ p := by
    rintro p hp rfl
    exact hp hv
  cases i
  case readMemory => simpa only [admittedFor, hx] using h
  case eraseSector => simpa only [admittedFor, hx] using h
  case eraseBlock64k => simpa only [admittedFor, hx] using h
  case writeConfigurationRegister2 => simpa only [admittedFor, hx, hopi, hb1] using h
  case pageProgram =>
    obtain ⟨hn, hrange, hfits⟩ := h
    simp only [admittedFor, hx]
    exact ⟨hn, hrange, fun _ => hfits fun hg => by simp [hg] at hu⟩
  case writeMemory =>
    obtain ⟨hrange, hsplit, hzero, -, -, hchunk⟩ := h
    have hn : u.x.n ≠ 0 := fun hn => by
      have hp := (hzero hn).1
      revert hu hp; generalize u.ctrl.phase = p; cases p <;> decide
    have hin : u.ctrl.phase ∈ [.p2, .p3, .p4, .p5, .g1, .m1, .m2, .w1, .p6] := by
      revert hu; generalize u.ctrl.phase = p; cases p <;> decide
    have hin' : u.ctrl.phase ∈ [.p5, .g1, .m1, .m2, .w1, .p6] := by
      revert hu; generalize u.ctrl.phase = p; cases p <;> decide
    simp only [admittedFor, splitOk, chunkOk, hx, hseq]
    exact ⟨hrange, fun _ _ => hsplit hin hn, fun h0 => absurd h0 hn, fun hp => absurd hp (apart _ (by decide)),
      fun hp => absurd hp (apart _ (by decide)), fun _ => hchunk hin'⟩
  all_goals trivial

/-! ### Labels of one operation in command mode -/

section commanding
variable {i : Instr} {t u : State}

theorem commanding_of_started (h : Inv u) (idle : u.ctrl.phase = .idle) (code : decodeRequest u.x.op = .ok i)
    (run : verdict u.x.op u.ctrl = .run) (bar : barOf i u = none) (which : commands i) :
    Commanding i (go (firstStep i) (accepted u)) := by
  obtain ⟨-, -, -, direct, -, -⟩ := verdict_eq_run run
  have hcode := decodeRequest_code code
  have label : firstStep i ∈ steps i := by
    cases i <;> first
      | decide
      | cases hcode
  have r := Running.of_started h code run label
  have ready : u.ctrl.cstate = .ready := r.ready fun hi => which (by simp [hi])
  obtain ⟨agree, notBusy, passing⟩ := h.ready_idle idle ready
  have direct := direct (fun h0 => which (by rw [h0] at code; cases code; decide))
    (fun h0 => which (by rw [h0] at code; cases code; decide))
  have first : firstStep i ≠ .m2 ∧ firstStep i ≠ .b2 := by
    cases i <;> first
      | decide
      | cases hcode
  exact
    { r with
      which, direct, agree
      closed := by simpa [direct] using passing
      latched := fun hp => absurd hp first.1
      busy := fun hw => by rw [go_chip, accepted_chip, notBusy] at hw; cases hw
      received := fun hp => absurd hp first.2
      operands := admittedFor_of_barOf bar }

/-- Away from the poll the chip is idle (R351). -/
theorem Commanding.notBusy (h : Commanding i u) (hp : u.ctrl.phase ≠ .w1) : u.chip.wip = false := by
  by_contra hw
  exact hp (h.busy (by simpa using hw))

/-- An operation that only completes leaves the invariant (R130). -/
theorem Commanding.finish (h : Commanding i u) (hp : u.ctrl.phase ≠ .w1) : Inv (finish u) :=
  inv_of_ready ⟨h.table, h.memory, h.bus, h.buf⟩ rfl h.ready h.cause h.agree (h.notBusy hp)
    (by simp [h.closed, h.direct]) (windowOk_of_closed h.closed)

/-- A register read completes with its call (R192 to R194). -/
theorem Commanding.completeRead {m : EMode} {l : Lop} {a : Option Addr} {p : Payload} {d : Nat} {w : Bool}
    (h : Commanding i u) (hp : u.ctrl.phase ≠ .w1) (read : l.dir = .read) : Inv (keepByte (afterCall u m l a p true d w)) := by
  have chip : (keepByte (afterCall u m l a p true d w)).chip = u.chip.asked := response_read read
  refine inv_of_ready ⟨h.table, ?_, rfl, h.buf⟩ rfl h.ready h.cause ?_ ?_ ?_ (windowOk_of_closed h.closed)
  · rw [chip]; exact h.memory
  · rw [chip]; exact h.agree
  · rw [chip]; exact h.notBusy hp
  · show u.xport.passthrough = decide (u.ctrl.mmode = .MemoryMapped)
    rw [h.closed, h.direct]
    rfl

/-- The poll of W1: the operation stays there exactly while WIP is set (R156). -/
theorem Commanding.poll {p : Phase} {d : Nat} {w : Bool} (h : Commanding i u) (hu : u.ctrl.phase = .w1)
    (hp : p ∈ [.fin, .g3, .p6]) (hpi : p ∈ steps i) :
    Commanding i (afterPoll p (afterCall u u.ctrl.emode .readSr none (.read 1) true d w)) := by
  have r := h.toRunning.called (m := u.ctrl.emode) (l := .readSr) (a := none) (p := .read 1) (ok := true) (d := d) (w := w)
    trivial
  have next : (afterPoll p (afterCall u u.ctrl.emode .readSr none (.read 1) true d w)).ctrl.phase ∈ [.w1, p] := by
    rw [afterPoll_phase]
    split <;> simp
  have later : ∀ q ∈ [Phase.w1, p], q ∈ steps i ∧ q ≠ .m2 ∧ q ≠ .b2 ∧ q ∈ [Phase.m2, .w1, .fin, .g3, .p6] := by
    intro q hq
    obtain rfl | rfl := List.mem_pair.mp hq
    · exact ⟨hu ▸ h.label, by decide⟩
    · refine ⟨hpi, ?_⟩
      revert hp; cases q <;> decide
  obtain ⟨label, notM2, notB2, mutating⟩ := later _ next
  exact
    { r.carried (carried_afterPoll _ _) label rfl with
      which := h.which, closed := h.closed, direct := h.direct, agree := h.agree
      latched := fun hq => absurd hq notM2
      busy := fun hw => if_pos hw
      received := fun hq => absurd hq notB2
      operands := admittedFor_mutating h.operands (by simp [hu]) mutating rfl rfl rfl rfl }

/-- The calls of `mutate` (R158): WEL is set at M2, the mode bits stay, the poll waits for WIP. -/
theorem Commanding.mutate {l : Lop} {a : Option Addr} {q : Payload} {p : Phase} {k : Call} {d : Nat} {w : Bool}
    (h : Commanding i u) (micro : mutateCall l a q p u = some k) (mutating : l.mutating = true)
    (hp : p ∈ [.fin, .g3, .p6]) (labels : .m2 ∈ steps i ∧ .w1 ∈ steps i ∧ p ∈ steps i)
    (mode : (u.chip.mutated (effectOf l (Lop.uses l a) q)).opiEn = u.chip.opiEn ∧
      (u.chip.mutated (effectOf l (Lop.uses l a) q)).cr2B1 = u.chip.cr2B1)
    (hreach : reaches k.lop (Lop.uses k.lop k.addr) k.payload) :
    Inv (k.next (afterCall u u.ctrl.emode k.lop k.addr k.payload true d w)) := by
  obtain ⟨hm2, hw1, hpi⟩ := labels
  have r := h.toRunning.called (m := u.ctrl.emode) (ok := true) (d := d) (w := w) hreach
  have carried := mutateCall_carried micro (afterCall u u.ctrl.emode k.lop k.addr k.payload true d w)
  refine Commanding.inv (i := i) ?_
  unfold mutateCall at micro
  split at micro <;> cases micro
  case h_1 hu =>
    exact
      { r.carried carried hm2 rfl with
        which := h.which, closed := h.closed, direct := h.direct, agree := h.agree
        latched := fun _ => setWel_wel u.chip
        busy := fun hw => by
          have := (setWel_wip u.chip).symm.trans hw
          simp [h.notBusy (by simp [hu])] at this
        received := fun hp => by cases hp
        operands := admittedFor_mutating h.operands (by simp [hu]) (by simp) rfl rfl rfl rfl }
  case h_2 hu =>
    have chip : response l (Lop.uses l a) q u.env.draws u.chip = u.chip.mutated (effectOf l (Lop.uses l a) q) :=
      response_of_wel mutating (h.latched hu)
    exact
      { r.carried carried hw1 rfl with
        which := h.which, closed := h.closed, direct := h.direct
        agree := by
          rw [go_chip, afterCall_chip, chip, Chip.emode_congr mode.1 mode.2]
          exact h.agree
        latched := fun hp => by cases hp
        busy := fun _ => rfl
        received := fun hp => by cases hp
        operands := admittedFor_mutating h.operands (by simp [hu]) (by simp) rfl rfl
          (by rw [go_chip, afterCall_chip, chip, mode.1]) (by rw [go_chip, afterCall_chip, chip, mode.2]) }
  case h_3 hu => exact h.poll hu hp hpi

/-- The mode bits a mutating command other than a CR2 write leaves. -/
theorem mutated_mode {l : Lop} (hl : l ≠ .writeCr2) (a : Option Addr) (q : Payload) (c : Chip) :
    (c.mutated (effectOf l a q)).opiEn = c.opiEn ∧ (c.mutated (effectOf l a q)).cr2B1 = c.cr2B1 := by
  have hcr20 : (c.mutated (effectOf l a q)).cr20 = c.cr20 := effectOf_cr20 hl a q c.asked
  simp only [Chip.opiEn, Chip.cr2B1, hcr20, and_self]

/-- An admitted CR2 write leaves the mode bits too: at address 0 its value carries them (R187, U8). -/
theorem writeCr2_mode (h : admittedFor .writeConfigurationRegister2 u) :
    (u.chip.mutated (effectOf .writeCr2 (some u.x.a) (.write [u.x.v0]))).opiEn = u.chip.opiEn ∧
      (u.chip.mutated (effectOf .writeCr2 (some u.x.a) (.write [u.x.v0]))).cr2B1 = u.chip.cr2B1 := by
  by_cases ha : u.x.a = 0
  · obtain ⟨h0, h1⟩ := h ha
    rw [ha]
    exact ⟨h0, h1⟩
  · simp only [Chip.opiEn, Chip.cr2B1, mutated_writeCr2_other ha, and_self]

/-- The calls of the twelve operations. -/
theorem Commanding.call (h : Commanding i u) {k : Call} (micro : microCall i u = some k) {d : Nat} {w : Bool}
    (hreach : reaches k.lop (Lop.uses k.lop k.addr) k.payload) :
    Inv (k.next (afterCall u u.ctrl.emode k.lop k.addr k.payload true d w)) := by
  have r := h.toRunning.called (m := u.ctrl.emode) (ok := true) (d := d) (w := w) hreach
  have carried := microCall_carried micro (afterCall u u.ctrl.emode k.lop k.addr k.payload true d w)
  cases i
  case readId =>
    refine Commanding.inv (i := .readId) ?_
    simp only [microCall] at micro
    split at micro <;> cases micro
    rename_i hu
    exact
      { r.carried carried (by simp [steps]) rfl with
        which := h.which, closed := h.closed, direct := h.direct, agree := h.agree
        latched := fun hp => by cases hp
        busy := fun hw => by
          have hw : u.chip.wip = true := hw
          simp [h.notBusy (by simp [hu])] at hw
        received := fun hp => by cases hp
        operands := trivial }
  case readMemory =>
    refine Commanding.inv (i := .readMemory) ?_
    simp only [microCall] at micro
    split at micro <;> cases micro
    rename_i hu
    exact
      { r.carried carried (by simp [steps]) rfl with
        which := h.which, closed := h.closed, direct := h.direct, agree := h.agree
        latched := fun hp => by cases hp
        busy := fun hw => by
          have hw : u.chip.wip = true := hw
          simp [h.notBusy (by simp [hu])] at hw
        received := fun _ => by
          show (u.chip.bytes u.x.a.toNat u.x.n.toNat).length = u.x.n.toNat
          simp [Chip.bytes, Memory.readList]
        operands := h.operands }
  case readStatusRegister =>
    simp only [microCall] at micro
    split at micro <;> cases micro
    rename_i hu
    exact h.completeRead (by simp [hu]) rfl
  case readConfigurationRegister =>
    simp only [microCall] at micro
    split at micro <;> cases micro
    rename_i hu
    exact h.completeRead (by simp [hu]) rfl
  case readConfigurationRegister2 =>
    simp only [microCall] at micro
    split at micro <;> cases micro
    rename_i hu
    exact h.completeRead (by simp [hu]) rfl
  case writeStatusAndConfigurationRegister =>
    exact h.mutate micro rfl (by simp) (by simp [steps]) (mutated_mode (by simp) _ _ _) hreach
  case writeConfigurationRegister2 =>
    exact h.mutate micro rfl (by simp) (by simp [steps]) (writeCr2_mode h.operands) hreach
  case writeMemory => exact h.mutate micro rfl (by simp) (by simp [steps]) (mutated_mode (by simp) _ _ _) hreach
  case pageProgram => exact h.mutate micro rfl (by simp) (by simp [steps]) (mutated_mode (by simp) _ _ _) hreach
  case eraseSector => exact h.mutate micro rfl (by simp) (by simp [steps]) (mutated_mode (by simp) _ _ _) hreach
  case eraseBlock64k => exact h.mutate micro rfl (by simp) (by simp [steps]) (mutated_mode (by simp) _ _ _) hreach
  case eraseChip => exact h.mutate micro rfl (by simp) (by simp [steps]) (mutated_mode (by simp) _ _ _) hreach
  all_goals first
    | cases micro
    | exact (h.which (by decide)).elim

/-! ### The silent micro-steps of command mode -/

/-- G1, of both operations that program: within the page the operation goes on, else it aborts (R216). -/
theorem Commanding.check (h : Commanding i u) (hu : u.ctrl.phase = .g1) {a n : Nat} (label : .m1 ∈ steps i)
    (operands : fitsPage a n = true → admittedFor i (go .m1 u)) : Inv (afterCheck a n u) := by
  unfold afterCheck
  split
  · rename_i hfits
    exact Commanding.inv (i := i)
      { h with
        label := label
        latched := fun hp => by cases hp
        busy := fun hw => by simp [h.notBusy (by simp [hu])] at hw
        received := fun hp => by cases hp
        operands := operands hfits }
  · exact inv_abort ⟨h.table, h.memory, h.bus, h.buf⟩ (windowOk_of_closed h.closed)

/-- The page-split sequencer moves to a label that makes no call and polls nothing. -/
theorem Commanding.split (h : Commanding .writeMemory u) (hu : u.ctrl.phase ≠ .w1) {p : Phase} {q : Seq}
    (hp : p ∈ [.p2, .p3, .p4, .p5, .p7, .g1])
    (operands : admittedFor .writeMemory { u with seq := q, ctrl.phase := p }) :
    Inv { u with seq := q, ctrl.phase := p } :=
  Commanding.inv (i := .writeMemory)
    { h with
      label := by
        show p ∈ steps .writeMemory
        revert hp; cases p <;> decide
      latched := fun hm => by simp only at hm; simp [hm] at hp
      busy := fun hw => by
        have hw : u.chip.wip = true := hw
        simp [h.notBusy hu] at hw
      received := fun hm => by simp only at hm; simp [hm] at hp
      operands := operands }

/-- Inside the page-split loop the range is not empty and the counters add up (R220, R222). -/
theorem splitOk_of_admittedFor (h : admittedFor .writeMemory u)
    (hp : u.ctrl.phase ∈ [.p3, .p4, .p5, .g1, .m1, .m2, .w1, .p6]) : splitOk u ∧ u.x.n ≠ 0 := by
  obtain ⟨-, hsplit, hzero, -⟩ := h
  have hn : u.x.n ≠ 0 := fun hn => by
    have hout := (hzero hn).1
    revert hp hout; generalize u.ctrl.phase = p; cases p <;> decide
  refine ⟨hsplit ?_ hn, hn⟩
  revert hp; generalize u.ctrl.phase = p; cases p <;> decide

/-- And from these facts the operands are admitted at the loop's next label. -/
theorem admittedFor_of_splitOk (hsplit : splitOk u) (hn : u.x.n ≠ 0)
    (room : u.ctrl.phase = .p3 → 1 ≤ u.seq.remaining.toNat)
    (bound : u.ctrl.phase = .p4 → 1 ≤ u.seq.remaining.toNat ∧ u.seq.maxChunk.toNat = pageRoom u.seq.cursor.toNat)
    (chunk : u.ctrl.phase ∈ [.p5, .g1, .m1, .m2, .w1, .p6] → chunkOk u) : admittedFor .writeMemory u :=
  ⟨.inr hsplit.1, fun _ _ => hsplit, fun h0 => absurd h0 hn, room, bound, chunk⟩

/-- What is left of a page is at most a page, so it fits the nine bits of `maxChunk` and `chunk` (R29, R220). -/
theorem pageRoom_le (a : Nat) : pageRoom a ≤ 256 := by
  unfold pageRoom Config.pageSize
  omega

/-- P1 (R220). -/
theorem admittedFor_splitStart (h : admittedFor .writeMemory u) : admittedFor .writeMemory (splitStart u) := by
  obtain ⟨range, -⟩ := h
  refine ⟨range, fun _ hn => ⟨range.resolve_left hn, by simp [splitStart], by simp [splitStart]⟩,
    fun h0 => ⟨by simp [splitStart], fun _ => h0⟩, fun hp => (by cases hp), fun hp => (by cases hp),
    fun hp => (by simp [splitStart] at hp)⟩

/-- P2: the loop goes on exactly while bytes remain (R220). -/
theorem admittedFor_splitTest (h : admittedFor .writeMemory u) (hu : u.ctrl.phase = .p2) :
    admittedFor .writeMemory (splitTest u) := by
  obtain ⟨range, hsplit, hzero, -⟩ := h
  by_cases hr : u.seq.remaining = 0
  · simp only [splitTest, if_pos hr]
    exact ⟨range, fun hp => (by simp at hp), fun _ => ⟨by simp, fun hp => (by cases hp)⟩, fun hp => (by cases hp),
      fun hp => (by cases hp), fun hp => (by simp at hp)⟩
  · have hn : u.x.n ≠ 0 := fun hn => hr ((hzero hn).2 hu)
    simp only [splitTest, if_neg hr]
    exact admittedFor_of_splitOk (hsplit (by simp [hu]) hn) hn (fun _ => one_le_toNat hr) (fun hp => (by cases hp))
      (fun hp => (by simp at hp))

/-- P3 (R220). -/
theorem admittedFor_splitRoom (h : admittedFor .writeMemory u) (hu : u.ctrl.phase = .p3) :
    admittedFor .writeMemory (splitRoom u) := by
  obtain ⟨hsplit, hn⟩ := splitOk_of_admittedFor h (by simp [hu])
  obtain ⟨-, -, -, room, -⟩ := h
  refine admittedFor_of_splitOk hsplit hn (fun hp => (by cases hp)) (fun _ => ⟨room hu, ?_⟩)
    (fun hp => (by simp [splitRoom] at hp))
  have := pageRoom_le u.seq.cursor.toNat
  exact BitVec.toNat_ofNat _ _ |>.trans (Nat.mod_eq_of_lt (by omega))

/-- P4 (R220, R221). -/
theorem admittedFor_splitChunk (h : admittedFor .writeMemory u) (hu : u.ctrl.phase = .p4) :
    admittedFor .writeMemory (splitChunk u) := by
  obtain ⟨hsplit, hn⟩ := splitOk_of_admittedFor h (by simp [hu])
  obtain ⟨-, -, -, -, bound, -⟩ := h
  obtain ⟨left, hmax⟩ := bound hu
  refine admittedFor_of_splitOk hsplit hn (fun hp => (by cases hp)) (fun hp => (by cases hp)) (fun _ => ⟨?_, left⟩)
  have := pageRoom_le u.seq.cursor.toNat
  show (BitVec.ofNat 9 (min u.seq.maxChunk.toNat u.seq.remaining.toNat)).toNat = _
  rw [hmax, BitVec.toNat_ofNat, Nat.mod_eq_of_lt (by omega)]
  rfl

/-- P5 and G1: the same counters at the next label (R215, R220). -/
theorem admittedFor_go_chunk (h : admittedFor .writeMemory u) (hu : u.ctrl.phase ∈ [.p5, .g1]) {p : Phase}
    (hp : p ∈ [.g1, .m1]) : admittedFor .writeMemory (go p u) := by
  have later : u.ctrl.phase ∈ [.p3, .p4, .p5, .g1, .m1, .m2, .w1, .p6] ∧
      u.ctrl.phase ∈ [.p5, .g1, .m1, .m2, .w1, .p6] := by
    revert hu; generalize u.ctrl.phase = q; cases q <;> decide
  obtain ⟨hsplit, hn⟩ := splitOk_of_admittedFor h later.1
  obtain ⟨-, -, -, -, -, chunk⟩ := h
  refine admittedFor_of_splitOk hsplit hn (fun hq => ?_) (fun hq => ?_) (fun _ => chunk later.2)
  · rw [go_phase] at hq
    simp [hq] at hp
  · rw [go_phase] at hq
    simp [hq] at hp

/-- P6: the chunk moves from `remaining` to `produced`, and no sum wraps inside the array (R220, R225). -/
theorem admittedFor_splitAdvance (h : admittedFor .writeMemory u) (hu : u.ctrl.phase = .p6) :
    admittedFor .writeMemory (splitAdvance u) := by
  obtain ⟨⟨range, cursor, counters⟩, hn⟩ := splitOk_of_admittedFor h (by simp [hu])
  obtain ⟨-, -, -, -, -, chunk⟩ := h
  obtain ⟨hchunk, -⟩ := chunk (by simp [hu])
  have hle : u.seq.chunk.toNat ≤ u.seq.remaining.toNat := by omega
  have fits : u.x.a.toNat + u.x.n.toNat ≤ 33554432 := range
  have hcursor : (splitAdvance u).seq.cursor.toNat = u.seq.cursor.toNat + u.seq.chunk.toNat :=
    (BitVec.toNat_ofNat _ _).trans (Nat.mod_eq_of_lt (by omega))
  have hremaining : (splitAdvance u).seq.remaining.toNat = u.seq.remaining.toNat - u.seq.chunk.toNat :=
    (BitVec.toNat_ofNat _ _).trans (Nat.mod_eq_of_lt (by omega))
  have hproduced : (splitAdvance u).seq.produced.toNat = u.seq.produced.toNat + u.seq.chunk.toNat :=
    (BitVec.toNat_ofNat _ _).trans (Nat.mod_eq_of_lt (by omega))
  refine admittedFor_of_splitOk ⟨range, ?_, ?_⟩ hn (fun hp => (by cases hp))
    (fun hp => (by cases hp)) (fun hp => (by simp [splitAdvance] at hp))
  · rw [hcursor, hproduced, cursor, Nat.add_assoc]
    rfl
  · rw [hproduced, hremaining]
    show _ = u.x.n.toNat
    omega

/-- The page-split sequencer's own labels (R220). -/
theorem Commanding.silent_writeMemory (h : Commanding .writeMemory u) (micro : microLocal .writeMemory u = some t) :
    Inv t := by
  have adm := h.operands
  simp only [microLocal] at micro
  split at micro <;> cases micro
  case h_1 hu => exact h.split (by simp [hu]) (by simp) (admittedFor_splitStart adm)
  case h_2 hu =>
    have next := admittedFor_splitTest adm hu
    unfold splitTest at next ⊢
    refine h.split (q := u.seq) (by simp [hu]) ?_ next
    split <;> simp
  case h_3 hu => exact h.split (by simp [hu]) (by simp) (admittedFor_splitRoom adm hu)
  case h_4 hu => exact h.split (by simp [hu]) (by simp) (admittedFor_splitChunk adm hu)
  case h_5 hu =>
    exact h.split (q := u.seq) (by simp [hu]) (by simp) (admittedFor_go_chunk adm (by simp [hu]) (by simp))
  case h_6 hu =>
    exact h.check hu (by simp [steps]) fun _ => admittedFor_go_chunk adm (by simp [hu]) (by simp)
  case h_7 hu => exact h.split (by simp [hu]) (by simp) (admittedFor_splitAdvance adm hu)
  case h_8 hu => exact h.finish (by simp [hu])

/-- The micro-steps of command mode that make no call. -/
theorem Commanding.silent (h : Commanding i u) (micro : microLocal i u = some t) : Inv t := by
  have passing : u.xport.passthrough = decide (u.ctrl.mmode = .MemoryMapped) := by rw [h.closed, h.direct]; rfl
  have last : ∀ {p : Phase}, p ≠ .w1 → (if u.ctrl.phase = p then some (Machine.finish u) else none) = some t → Inv t := by
    intro p hp micro
    split at micro <;> cases micro
    rename_i hu
    exact h.finish (hu ▸ hp)
  cases i
  case readId =>
    simp only [microLocal] at micro
    split at micro <;> cases micro
    rename_i hu
    exact inv_of_ready ⟨h.table, h.memory, h.bus, h.buf⟩ rfl h.ready h.cause h.agree (h.notBusy (by simp [hu])) passing
      (windowOk_of_closed h.closed)
  case readMemory =>
    simp only [microLocal] at micro
    split at micro <;> cases micro
    rename_i hu
    exact inv_of_ready ⟨h.table, h.memory, h.bus, h.received hu⟩ rfl h.ready h.cause h.agree (h.notBusy (by simp [hu]))
      passing (windowOk_of_closed h.closed)
  case pageProgram =>
    simp only [microLocal] at micro
    split at micro <;> cases micro
    case h_1 hu =>
      obtain ⟨hn, range, -⟩ := h.operands
      exact h.check hu (by simp [steps]) fun hfits => ⟨hn, range, fun _ => hfits⟩
    case h_2 hu => exact h.finish (by simp [hu])
  case writeMemory => exact h.silent_writeMemory micro
  case writeStatusAndConfigurationRegister => exact last (by decide) micro
  case writeConfigurationRegister2 => exact last (by decide) micro
  case eraseSector => exact last (by decide) micro
  case eraseBlock64k => exact last (by decide) micro
  case eraseChip => exact last (by decide) micro
  all_goals first
    | cases micro
    | exact (h.which (by decide)).elim

end commanding

/-! ### Every move -/

/-- Which kind of operation a request starts. -/
theorem kind_of (i : Instr) :
    i = .construct ∨ (i = .toOpi ∨ i = .toSpi) ∨ (i = .enableMemoryMapped ∨ i = .disableMemoryMapped) ∨ commands i := by
  by_cases h : commands i
  · exact .inr (.inr (.inr h))
  · simp only [commands, not_not, List.mem_cons, List.not_mem_nil, or_false] at h
    obtain h | h | h | h | h := h
    · exact .inl h
    · exact .inr (.inl (.inl h))
    · exact .inr (.inl (.inr h))
    · exact .inr (.inr (.inl (.inl h)))
    · exact .inr (.inr (.inl (.inr h)))

theorem inv_started {i : Instr} {u : State} (h : Inv u) (idle : u.ctrl.phase = .idle)
    (code : decodeRequest u.x.op = .ok i) (run : verdict u.x.op u.ctrl = .run) (bar : barOf i u = none) :
    Inv (go (firstStep i) (accepted u)) := by
  obtain rfl | which | which | which := kind_of i
  · exact (constructing_of_started h idle code run).inv
  · exact (switching_of_started h idle code run which).inv
  · exact (toggling_of_started h idle code run which).inv
  · exact (commanding_of_started h idle code run bar which).inv

theorem inv_microCall {i : Instr} {u : State} {k : Call} {c : Called} (h : Inv u) (busy : u.ctrl.phase ≠ .idle)
    (code : decodeRequest u.x.op = .ok i) (micro : microCall i u = some k)
    (answer : transact ⟨build u.optab u.ctrl.emode k.lop k.addr, k.payload⟩ u = .next c) :
    Inv (if c.ok then k.next c.s else abort .transportError c.s) := by
  have r := h.running busy code
  obtain rfl | which | (rfl | rfl) | which := kind_of i
  · have hc := h.constructing r
    exact inv_call r hc.closed answer fun _ _ _ hreach => hc.call micro hreach
  · have hs := h.switching r which
    refine inv_call r hs.closed answer fun _ _ _ _ => ?_
    obtain rfl | rfl := which
    · exact hs.call_toOpi micro
    · exact hs.call_toSpi micro
  · cases micro
  · cases micro
  · have hc := h.commanding r which
    exact inv_call r hc.closed answer fun _ _ _ hreach => hc.call micro hreach

theorem inv_microLocal {i : Instr} {u t : State} (h : Inv u) (busy : u.ctrl.phase ≠ .idle)
    (code : decodeRequest u.x.op = .ok i) (micro : microLocal i u = some t) : Inv t := by
  have r := h.running busy code
  obtain rfl | which | which | which := kind_of i
  · exact (h.constructing r).silent micro
  · exact (h.switching r which).silent micro
  · exact (h.toggling r which).silent micro
  · exact (h.commanding r which).silent micro

theorem inv_moved {u t : State} (h : Inv u) (moved : Moved u t) : Inv t := by
  cases moved with
  | completion busy => exact inv_chipDone h busy
  | bus wire => rw [h.bus] at wire; cases wire
  | reported _ idle => exact inv_reported h idle
  | rejected => exact inv_abort ⟨h.table, h.memory, h.bus, h.buf⟩ h.window
  | started _ idle code run bar => exact inv_started h idle code run bar
  | call _ busy code micro answer => exact inv_microCall h busy code micro answer
  | silent _ busy code micro => exact inv_microLocal h busy code micro
  | host _ idle turn => exact inv_hostTurn h idle turn

/-- Settles O17: each move keeps the invariant; for an operation's micro-steps, from what holds at its label to what holds at
the next. -/
theorem everyStepKeepsInvariant : Obligations.EveryStepKeepsInvariant :=
  fun _ _ h hstep => inv_moved h.asked (step_moved hstep)

end Sys2Proof.Machine
end

section
/-! PROOFS. Single steps: a decoded operation's (R25, R255), the reset state (R46 to R48), a power cycle (R312, R340), and two
wire commands' rules: WRITE_CR2 (R270) and the cases without a rule (R257, R259). -/

namespace Sys2Proof.Machine

/-! ### The step of a decoded operation -/

/-- A transaction that decodes moves before the controller (log entry 25). -/
theorem turn_bus {s : State} {x : Txn} {i : Instr} (hdone : (s.chip.wip && s.env.done.head) = false)
    (wire : s.env.wire = some x) (txn : decodeTxn s.optab x = .ok i) : turn s = .instr i := by
  simp [turn, hdone, wire, txn]

/-- Else a controller that is not idle, or has a request, runs what `x[OP]` decodes to (R26, R301). -/
theorem turn_request {s : State} {i : Instr} (hdone : (s.chip.wip && s.env.done.head) = false)
    (wire : s.env.wire = none) (active : s.ctrl.phase ≠ .idle ∨ s.env.req = true)
    (code : decodeRequest s.x.op = .ok i) : turn s = .instr i := by
  have hnot : (decide (s.ctrl.phase = .idle) && !s.env.req) = false := by
    obtain hp | hr := active
    · simp [hp]
    · simp [hr]
  simp only [turn, hdone, wire, hnot, ctrlTurn, code, Bool.false_eq_true, if_false]

theorem step_instr {s : State} {i : Instr} (h : turn s = .instr i) : step s = exec i (asked s) := by
  simp only [step, h]

/-- Settles O6: both cases are the turn of the decoded operation, and its step runs it once the schedule's answer is used. -/
theorem stepRunsDecodedOperation : Obligations.StepRunsDecodedOperation := by
  intro s i hdone hop
  rw [← asked_eq]
  obtain ⟨x, wire, txn⟩ | ⟨wire, active, code⟩ := hop
  · exact step_instr (turn_bus hdone wire txn)
  · exact step_instr (turn_request hdone wire active code)

/-! ### The reset state -/

theorem launch_reset : Launch State.reset := by constructor <;> decide

theorem inv_reset : Inv State.reset :=
  .of_idle ⟨by decide, rfl, rfl, rfl⟩ rfl (fun _ => rfl) (fun h => by cases h) (fun _ => by decide) (fun h => by cases h)
    (fun h => absurd h (by decide)) (fun h => by cases h) (windowOk_of_closed rfl)

/-- Settles O16: the trace is empty and the controller idle, so most clauses are void. -/
theorem resetMeetsInvariant : Obligations.ResetMeetsInvariant :=
  ⟨launch_reset, rfl, rfl, inv_reset, rfl⟩

/-! ### A power cycle -/

/-- Power-on restores the launch premises of R48 from any state. -/
theorem launch_powerOn (u : State) : Launch (powerOn u) where
  unconstructed := rfl
  phase := rfl
  command := rfl
  idle := powerOn_wip u
  spi := by simp [Chip.opiEn]
  b1 := by simp [Chip.cr2B1]
  rsten := rfl
  trace := rfl
  cause := rfl

/-- A loss of power leaves every byte but those the command in progress was changing (R36, R289). -/
theorem powerLoss_byte {u : State} (hm : u.chip.memoryWf = true) {x : Nat} (hx : x ∉ u.chip.pending.slots) :
    (powerLoss u).chip.byte x = u.chip.byte x := by
  cases hw : u.chip.wip with
  | false => rw [powerLoss_of_idle _ hw]
  | true =>
    rw [powerLoss_of_busy _ hw]
    exact (Chip.byte_torn _ _ hm x).trans (if_neg hx)

/-- Settles O14: the host's move is a loss of power and a power-on, each by its own lemma. -/
theorem powerCycleRestoresLaunch : Obligations.PowerCycleRestoresLaunch := by
  intro s rest hphase hreq hwire hdone hscript
  refine ⟨_, step_hostMove hphase hreq hwire hdone hscript, launch_powerOn _, rfl, rfl, ?script, ?optab, ?idle, ?busy⟩
  case script => exact powerLoss_script _
  case optab => rw [powerOn_optab, powerLoss_optab]
  case idle =>
    exact fun hw => congrArg (·.chip.array) (powerLoss_of_idle { s with env.script := rest, env.done := _ } hw)
  case busy => exact fun hm x hx => powerLoss_byte (u := { s with env.script := rest, env.done := _ }) hm hx

/-! ### WRITE_CR2 (R270) -/

/-- A CR2 write touches the register space and the mark of log entry 21. -/
theorem setCr2_frame (c : Chip) (a : Addr) (v : Byte) :
    (c.setCr2 a v).sr = c.sr ∧ (c.setCr2 a v).cr = c.cr ∧ (c.setCr2 a v).array = c.array ∧
      (c.setCr2 a v).rsten = c.rsten ∧ (c.setCr2 a v).pending = .nothing := by
  unfold Chip.setCr2
  split <;> exact ⟨rfl, rfl, rfl, rfl, rfl⟩

/-- At address 0 it is the register the chip's mode is read from; at another address it is not (R39, R40). -/
theorem setCr2_cr20 (c : Chip) (a : Addr) (v : Byte) : (c.setCr2 a v).cr20 = if a = 0 then v else c.cr20 := by
  unfold Chip.setCr2
  split <;> rfl

theorem cr2WriteUndoc_iff (a : Addr) (v : Byte) (c : Chip) :
    cr2WriteUndoc a v c = true ↔ if a = 0 then v &&& 0xFC ≠ c.cr20 &&& 0xFC else v ≠ c.cr2At a := by
  unfold cr2WriteUndoc
  split
  · exact decide_eq_true_iff
  · exact decide_eq_true_iff

/-- With WEL set and an idle chip in its format, WRITE_CR2 is accepted. -/
theorem chipWriteCr2_accepted {m : EMode} {a : Addr} {v : Byte} {s : State} (hm : s.chip.emode = some m)
    (hwip : s.chip.wip = false) (hwel : s.chip.wel = true) :
    chipWriteCr2 m a v s = .next (altered s (fun c => c.setCr2 a v) (cr2WriteUndoc a v s.chip)) :=
  chipMutate_next.mpr ⟨hm, hwip, by rw [if_pos hwel]; rfl⟩

/-- Settles O31: the accepted command is `setCr2` on the chip with the latch cleared, then WIP. -/
theorem writeCr2StoresAndSwitches : Obligations.WriteCr2StoresAndSwitches := by
  intro s a v hmem hwip hwel
  obtain ⟨hsr, hcr, harray, hrsten, hpending⟩ := setCr2_frame s.chip.asked a v
  have hcr20 := setCr2_cr20 s.chip.asked a v
  refine ⟨altered s (fun c => c.setCr2 a v) (cr2WriteUndoc a v s.chip), fun hm => chipWriteCr2_accepted hm hwip hwel,
    fun hm => chipWriteCr2_accepted hm hwip hwel, fun b => ?stored, fun ha => ?switched, fun ha => ?sameMode, ?sr, hcr,
    harray, hrsten, hpending, ?undoc, rfl, rfl, rfl, rfl, rfl⟩
  case stored => exact Chip.cr2At_setCr2 s.chip.asked a b v hmem
  case switched =>
    rw [if_pos ha] at hcr20
    show Chip.emode (s.chip.asked.setCr2 a v) = _
    simp only [Chip.emode, Chip.cr2B1, Chip.opiEn, hcr20]
  case sameMode =>
    rw [if_neg ha] at hcr20
    exact Chip.emode_congr (congrArg (·.getLsbD 0) hcr20) (congrArg (·.getLsbD 1) hcr20)
  case sr =>
    show setBit (s.chip.asked.setCr2 a v).sr 0 true = _
    rw [hsr, setBit_true_0]
    rfl
  case undoc =>
    rw [← cr2WriteUndoc_iff, ← Bool.or_eq_true]
    rfl

/-! ### Wire commands without a rule -/

section accept
variable {m : EMode} {b : Bool} {s : State} {k : State → Out}

/-- A chip in a mode the spec does not describe (R40, U7). -/
theorem chipAccept_undescribed (h : s.chip.emode = none) : chipAccept m b s k = .fault .wireUndescribedMode := by
  simp only [chipAccept, h]

/-- A chip in the other mode (R257, U6). -/
theorem chipAccept_mismatch {e : EMode} (h : s.chip.emode = some e) (hne : e ≠ m) :
    chipAccept m b s k = .fault .wireModeMismatch := by
  simp only [chipAccept, h, if_neg hne]

/-- A busy chip (R259, U4). -/
theorem chipAccept_busy (h : s.chip.emode = some m) (hw : s.chip.wip = true) (hb : b = false) :
    chipAccept m b s k = .fault .chipBusy := by
  simp only [chipAccept, h, if_true, hw, hb, Bool.not_false, Bool.and_self]

/-- An idle chip takes the transaction off the bus and goes on. -/
theorem chipAccept_idle (h : s.chip.emode = some m) (hw : s.chip.wip = false) :
    chipAccept m b s k = k { s with env.wire := none } := by
  simp only [chipAccept, h, if_true, hw, Bool.false_and, Bool.false_eq_true, if_false]

end accept

/-- A well-formed command whose address or range lies outside the array (R274 to R279). -/
def outside (l : Lop) (p : Payload) (b : Addr) : Prop :=
  l ∈ [.pageProgram, .sectorErase, .blockErase64k] ∧ 33554432 ≤ b.toNat ∨
    ∃ n, l = .readMem ∧ p = .read n ∧ 33554432 < b.toNat + n

/-- Only the four commands with a range can lie outside the array. -/
theorem not_outside {l : Lop} (hl : l ∉ [.pageProgram, .sectorErase, .blockErase64k, .readMem]) (p : Payload) (b : Addr) :
    ¬ outside l p b := by
  rintro (⟨hout, -⟩ | ⟨n, rfl, -⟩)
  · exact hl (by revert hout; cases l <;> decide)
  · exact hl (by simp)

/-- A command first asks whether the chip takes it, READ_SR alone of a busy one; then an address or range outside the array
stops it. -/
def Accepts (o : Out) (m : EMode) (l : Lop) (a : Option Addr) (p : Payload) (s : State) : Prop :=
  ∃ k, o = chipAccept m (decide (l = .readSr)) s k ∧
    ∀ b, a = some b → outside l p b → ∀ u, k u = .fault .chipOutsideArray

section accepts
variable {m : EMode} {b : Bool} {l : Lop} {a : Option Addr} {p : Payload} {s : State}

theorem accepts_of_chipAccept {k : State → Out} (hl : l ∉ [.pageProgram, .sectorErase, .blockErase64k, .readMem])
    (hb : b = decide (l = .readSr)) : Accepts (chipAccept m b s k) m l a p s :=
  ⟨k, by rw [hb], fun c _ hout => absurd hout (not_outside hl p c)⟩

theorem accepts_of_chipAnswer {f : Chip → List Byte} (hl : l ∉ [.pageProgram, .sectorErase, .blockErase64k, .readMem])
    (hb : b = decide (l = .readSr)) : Accepts (chipAnswer m b f s) m l a p s :=
  accepts_of_chipAccept hl hb

theorem accepts_of_chipMutate {f : Chip → Bool} {g : Chip → Chip}
    (hl : l ∉ [.pageProgram, .sectorErase, .blockErase64k, .readMem]) (hb : false = decide (l = .readSr)) :
    Accepts (chipMutate m f g s) m l a p s :=
  accepts_of_chipAccept hl hb

/-- A command with a range stops outside it before its own effect (R274 to R279). -/
theorem accepts_of_chipInArray {ok : Bool} {k : State → Out} (hb : false = decide (l = .readSr))
    (hok : ∀ b, a = some b → outside l p b → ok = false) : Accepts (chipInArray m ok s k) m l a p s := by
  refine ⟨_, congrArg (fun x => chipAccept m x s fun _ => if ok then k s else .fault .chipOutsideArray) hb, ?_⟩
  intro b ha hout u
  simp only [hok b ha hout, Bool.false_eq_true, if_false]

end accepts

/-! Each wire command in turn. -/

section commands
variable (m : EMode) (s : State)

theorem resetEnable_accepts : Accepts (chipResetEnable m s) m .resetEnable none .none s :=
  accepts_of_chipAccept (by simp) rfl

theorem resetMemory_accepts : Accepts (chipResetMemory m s) m .resetMemory none .none s :=
  accepts_of_chipAccept (by simp) rfl

theorem writeEnable_accepts : Accepts (chipWriteEnable m s) m .writeEnable none .none s :=
  accepts_of_chipAccept (by simp) rfl

theorem readSr_accepts : Accepts (chipReadSr m s) m .readSr none (.read 1) s :=
  accepts_of_chipAnswer (by simp) rfl

theorem readCr_accepts : Accepts (chipReadCr m s) m .readCr none (.read 1) s :=
  accepts_of_chipAnswer (by simp) rfl

theorem readId_accepts : Accepts (chipReadId m s) m .readId none (.read 3) s :=
  accepts_of_chipAnswer (by simp) rfl

theorem readCr2_accepts (a : Addr) : Accepts (chipReadCr2 m a s) m .readCr2 (some a) (.read 1) s :=
  accepts_of_chipAnswer (by simp) rfl

theorem writeSrCr_accepts (sr cr : Byte) : Accepts (chipWriteSrCr m sr cr s) m .writeSrCr none (.write [sr, cr]) s :=
  accepts_of_chipMutate (by simp) rfl

theorem writeCr2_accepts (a : Addr) (v : Byte) : Accepts (chipWriteCr2 m a v s) m .writeCr2 (some a) (.write [v]) s :=
  accepts_of_chipMutate (by simp) rfl

theorem chipErase_accepts : Accepts (chipEraseAll m s) m .chipErase none .none s :=
  accepts_of_chipMutate (by simp) rfl

end commands

theorem readMem_accepts {m : EMode} {a : Addr} {n : Nat} (hn : 1 ≤ n) (s : State) :
    Accepts (chipReadMem m a n s) m .readMem (some a) (.read n) s := by
  simp only [chipReadMem, if_pos hn]
  refine accepts_of_chipInArray rfl ?_
  rintro b hb (⟨hl, -⟩ | ⟨j, -, hj, hout⟩)
  · simp at hl
  · cases hb
    cases hj
    exact decide_eq_false (Nat.not_le.mpr hout)

theorem pageProgram_accepts {m : EMode} {a : Addr} {data : List Byte}
    (hd : 1 ≤ data.length ∧ data.length ≤ Config.pageSize) (s : State) :
    Accepts (chipPageProgram m a data s) m .pageProgram (some a) (.write data) s := by
  simp only [chipPageProgram, if_pos hd]
  refine accepts_of_chipInArray rfl ?_
  rintro b hb (⟨-, hout⟩ | ⟨n, hl, -⟩)
  · cases hb
    exact decide_eq_false (Nat.not_lt.mpr hout)
  · cases hl

theorem eraseUnit_accepts {m : EMode} {unit : Nat} {l : Lop} {a : Addr} (hl : l ∈ [.sectorErase, .blockErase64k])
    (s : State) : Accepts (chipEraseUnit m unit a s) m l (some a) .none s := by
  have notRead : l ≠ .readSr ∧ l ≠ .readMem := by revert hl; cases l <;> decide
  refine accepts_of_chipInArray (decide_eq_false notRead.1).symm ?_
  rintro b hb (⟨-, hout⟩ | ⟨n, hr, -⟩)
  · cases hb
    exact decide_eq_false (Nat.not_lt.mpr hout)
  · exact absurd hr notRead.2

/-- Every well-formed wire command is of that form. -/
theorem exec_accepts {i : Instr} {m : EMode} {l : Lop} {a : Option Addr} {p : Payload}
    (hi : i.wireParts = some (m, l, a, p)) (hw : i.wf = true) (s : State) : Accepts (exec i s) m l a p s := by
  cases i
  case resetEnableSpi => cases hi; exact resetEnable_accepts .Spi s
  case resetEnableOpi => cases hi; exact resetEnable_accepts .Opi s
  case resetMemorySpi => cases hi; exact resetMemory_accepts .Spi s
  case resetMemoryOpi => cases hi; exact resetMemory_accepts .Opi s
  case writeEnableSpi => cases hi; exact writeEnable_accepts .Spi s
  case writeEnableOpi => cases hi; exact writeEnable_accepts .Opi s
  case readSrSpi => cases hi; exact readSr_accepts .Spi s
  case readSrOpi => cases hi; exact readSr_accepts .Opi s
  case readCrSpi => cases hi; exact readCr_accepts .Spi s
  case readCrOpi => cases hi; exact readCr_accepts .Opi s
  case readIdSpi => cases hi; exact readId_accepts .Spi s
  case readIdOpi => cases hi; exact readId_accepts .Opi s
  case readCr2Spi => cases hi; exact readCr2_accepts .Spi s _
  case readCr2Opi => cases hi; exact readCr2_accepts .Opi s _
  case writeSrCrSpi => cases hi; exact writeSrCr_accepts .Spi s _ _
  case writeSrCrOpi => cases hi; exact writeSrCr_accepts .Opi s _ _
  case writeCr2Spi => cases hi; exact writeCr2_accepts .Spi s _ _
  case writeCr2Opi => cases hi; exact writeCr2_accepts .Opi s _ _
  case chipEraseSpi => cases hi; exact chipErase_accepts .Spi s
  case chipEraseOpi => cases hi; exact chipErase_accepts .Opi s
  case readMemSpi => cases hi; exact readMem_accepts (of_decide_eq_true hw).1 s
  case readMemOpi => cases hi; exact readMem_accepts (of_decide_eq_true hw).1 s
  case pageProgramSpi => cases hi; exact pageProgram_accepts (of_decide_eq_true hw) s
  case pageProgramOpi => cases hi; exact pageProgram_accepts (of_decide_eq_true hw) s
  case sectorEraseSpi => cases hi; exact eraseUnit_accepts (by simp) s
  case sectorEraseOpi => cases hi; exact eraseUnit_accepts (by simp) s
  case blockErase64kSpi => cases hi; exact eraseUnit_accepts (by simp) s
  case blockErase64kOpi => cases hi; exact eraseUnit_accepts (by simp) s
  all_goals cases hi

/-- Settles O35: the four stops are the branches of `chipAccept` and of the range check behind it. -/
theorem wireCommandsWithoutRuleStop : Obligations.WireCommandsWithoutRuleStop := by
  intro s i m l a p hi hw
  obtain ⟨k, hexec, hout⟩ := exec_accepts hi hw s
  rw [hexec]
  refine ⟨chipAccept_undescribed, fun e => chipAccept_mismatch, fun hm hbusy hl => ?_, fun hm hidle b ha hb => ?_⟩
  · exact chipAccept_busy hm hbusy (decide_eq_false hl)
  · rw [chipAccept_idle hm hidle]
    exact hout b ha hb _

end Sys2Proof.Machine
end

section
/-! PROOFS. What changes the array, and what marks an undescribed register bit (R36, R235, log entry 9): a program or erase
command, and a register write, each at the labels that issue it. -/

namespace Sys2Proof.Machine

/-- The commands that change the array (R276 to R280). -/
def arrayLops : List Lop := [.pageProgram, .sectorErase, .blockErase64k, .chipErase]

/-- The commands that write a register (R268, R270). -/
def registerLops : List Lop := [.writeSrCr, .writeCr2]

/-- The host operations that issue the first kind. -/
def arrayOps : List Instr := [.writeMemory, .pageProgram, .eraseSector, .eraseBlock64k, .eraseChip]

/-- Where the controller issues the second kind: M2 of the two register operations, O3 and X3 of the mode switches. -/
def RegisterWriteLabel (i : Instr) (p : Phase) : Prop :=
  p = .m2 ∧ i ∈ [.writeStatusAndConfigurationRegister, .writeConfigurationRegister2] ∨
    p = .o3 ∧ i = .toOpi ∨ p = .x3 ∧ i = .toSpi

/-- A mutating call of `mutate` is its own command, at M2 (R158). -/
theorem mutateCall_mutating {l : Lop} {a : Option Addr} {q : Payload} {p : Phase} {s : State} {k : Call}
    (h : mutateCall l a q p s = some k) (hk : k.lop.mutating = true) : s.ctrl.phase = .m2 ∧ k.lop = l := by
  unfold mutateCall at h
  split at h <;> cases h
  · cases hk
  · exact ⟨‹_›, rfl⟩
  · cases hk

/-- Where the controller issues a mutating command, and which (R235, R181, R184). -/
theorem microCall_mutating {i : Instr} {s : State} {k : Call} (h : microCall i s = some k) (hk : k.lop.mutating = true) :
    s.ctrl.phase = .m2 ∧ i ∈ arrayOps ∧ k.lop ∈ arrayLops ∨
      RegisterWriteLabel i s.ctrl.phase ∧ k.lop ∈ registerLops := by
  have program : ∀ {l : Lop} {a : Option Addr} {q : Payload} {p : Phase}, l ∈ arrayLops → i ∈ arrayOps →
      mutateCall l a q p s = some k → s.ctrl.phase = .m2 ∧ i ∈ arrayOps ∧ k.lop ∈ arrayLops := by
    intro l a q p hl hi h
    obtain ⟨hp, rfl⟩ := mutateCall_mutating h hk
    exact ⟨hp, hi, hl⟩
  have register : ∀ {l : Lop} {a : Option Addr} {q : Payload} {p : Phase}, l ∈ registerLops →
      i ∈ [.writeStatusAndConfigurationRegister, .writeConfigurationRegister2] →
      mutateCall l a q p s = some k → RegisterWriteLabel i s.ctrl.phase ∧ k.lop ∈ registerLops := by
    intro l a q p hl hi h
    obtain ⟨hp, rfl⟩ := mutateCall_mutating h hk
    exact ⟨.inl ⟨hp, hi⟩, hl⟩
  cases i
  case construct => simp only [microCall] at h; split at h <;> cases h <;> cases hk
  case toOpi =>
    simp only [microCall] at h
    split at h <;> cases h
    case h_3 hp => exact .inr ⟨.inr (.inl ⟨hp, rfl⟩), by simp [registerLops]⟩
    all_goals cases hk
  case toSpi =>
    simp only [microCall] at h
    split at h <;> cases h
    case h_3 hp => exact .inr ⟨.inr (.inr ⟨hp, rfl⟩), by simp [registerLops]⟩
    all_goals cases hk
  case readId => simp only [microCall] at h; split at h <;> cases h; cases hk
  case readMemory => simp only [microCall] at h; split at h <;> cases h; cases hk
  case readStatusRegister => simp only [microCall] at h; split at h <;> cases h; cases hk
  case readConfigurationRegister => simp only [microCall] at h; split at h <;> cases h; cases hk
  case readConfigurationRegister2 => simp only [microCall] at h; split at h <;> cases h; cases hk
  case writeStatusAndConfigurationRegister => exact .inr (register (by decide) (by decide) h)
  case writeConfigurationRegister2 => exact .inr (register (by decide) (by decide) h)
  case writeMemory => exact .inl (program (by decide) (by decide) h)
  case pageProgram => exact .inl (program (by decide) (by decide) h)
  case eraseSector => exact .inl (program (by decide) (by decide) h)
  case eraseBlock64k => exact .inl (program (by decide) (by decide) h)
  case eraseChip => exact .inl (program (by decide) (by decide) h)
  all_goals cases h

/-- A mutating command of one kind is issued at that kind's labels. -/
theorem microCall_arrayLop {i : Instr} {s : State} {k : Call} (h : microCall i s = some k) (hk : k.lop ∈ arrayLops) :
    s.ctrl.phase = .m2 ∧ i ∈ arrayOps := by
  have kinds : k.lop.mutating = true ∧ k.lop ∉ registerLops := by revert hk; cases k.lop <;> decide
  obtain ⟨hp, hi, -⟩ | ⟨-, hr⟩ := microCall_mutating h kinds.1
  · exact ⟨hp, hi⟩
  · exact absurd hr kinds.2

theorem microCall_registerLop {i : Instr} {s : State} {k : Call} (h : microCall i s = some k)
    (hk : k.lop ∈ registerLops) : RegisterWriteLabel i s.ctrl.phase := by
  have kinds : k.lop.mutating = true ∧ k.lop ∉ arrayLops := by revert hk; cases k.lop <;> decide
  obtain ⟨-, -, ha⟩ | ⟨hl, -⟩ := microCall_mutating h kinds.1
  · exact absurd ha kinds.2
  · exact hl

/-- A host's turn without a power cycle leaves the array and the mark. -/
theorem hostTurn_array {u t : State} (hpower : u.env.script.head? ≠ some .powerCycle) (h : hostTurn u = .next t) :
    t.chip.array = u.chip.array ∧ t.env.undoc = u.env.undoc := by
  obtain ⟨-, -, -, -, -, -, hundoc, hchip, -⟩ | ⟨-, -, -, -, -, -, hundoc, -, hchip, -⟩ | ⟨rest, hscript, -⟩ :=
    hostTurn_next h
  · exact ⟨by rw [hchip], hundoc⟩
  · exact ⟨by rw [hchip, asked_array], hundoc⟩
  · exact absurd (by rw [hscript]; rfl) hpower

/-- A mark is set only by a register write, and then it is set. -/
theorem undoc_changed {u v : Bool} {l : Lop} {a : Option Addr} {p : Payload} {c : Chip} (h : v = (u || marks l a p c))
    (hne : v ≠ u) : v = true ∧ l ∈ registerLops := by
  by_cases hl : l ∈ registerLops
  · refine ⟨?_, hl⟩
    cases u <;> cases hm : marks l a p c <;> simp_all
  · rw [marks_eq_false hl, Bool.or_false] at h
    exact absurd h hne

/-- Of the moves, only the chip's commands change the array or the mark: those of the bus and those of the controller's
calls. -/
theorem moved_changes {u t : State} (htab : OpTab.wf u.optab = true) (hpower : u.env.script.head? ≠ some .powerCycle)
    (h : Moved u t) :
    (t.chip.array ≠ u.chip.array →
      (u.env.wire = none ∧ u.ctrl.phase = .m2 ∧ ∃ i ∈ arrayOps, decodeRequest u.x.op = .ok i) ∨
      (∃ x i m l a p, u.env.wire = some x ∧ decodeTxn u.optab x = .ok i ∧ i.wireParts = some (m, l, a, p) ∧
        l ∈ arrayLops)) ∧
    (t.env.undoc ≠ u.env.undoc →
      t.env.undoc = true ∧
      ((u.env.wire = none ∧ ∃ i, decodeRequest u.x.op = .ok i ∧ RegisterWriteLabel i u.ctrl.phase) ∨
        (∃ x i m l a p, u.env.wire = some x ∧ decodeTxn u.optab x = .ok i ∧ i.wireParts = some (m, l, a, p) ∧
          l ∈ registerLops))) := by
  cases h with
  | completion => exact ⟨fun hne => absurd rfl hne, fun hne => absurd rfl hne⟩
  | @bus x i m l a p _ wire txn parts taken =>
    obtain ⟨-, -, -, -, -, -, -, -, -, -, -, hchip, hundoc⟩ := chipStep_frame parts taken
    refine ⟨fun hne => .inr ⟨x, i, m, l, a, p, wire, txn, parts, ?_⟩, fun hne => ?_⟩
    · by_contra hl
      rw [hchip] at hne
      exact hne (response_array _ _ _ _ _ hl)
    · obtain ⟨hset, hl⟩ := undoc_changed hundoc hne
      exact ⟨hset, .inr ⟨x, i, m, l, a, p, wire, txn, parts, hl⟩⟩
  | reported => exact ⟨fun hne => absurd rfl hne, fun hne => absurd rfl hne⟩
  | rejected => exact ⟨fun hne => absurd rfl hne, fun hne => absurd rfl hne⟩
  | started => exact ⟨fun hne => absurd rfl hne, fun hne => absurd rfl hne⟩
  | @call i k c wire _ code micro answer =>
    obtain ⟨hchip, hundoc⟩ := transact_build_chip htab answer
    have carried := microCall_carried micro c.s
    have tchip : (if c.ok then k.next c.s else abort .transportError c.s).chip = c.s.chip := by
      split
      · exact carried.chip
      · rfl
    have tundoc : (if c.ok then k.next c.s else abort .transportError c.s).env.undoc = c.s.env.undoc := by
      split
      · rw [carried.env]
      · rfl
    rw [tchip, tundoc]
    refine ⟨fun hne => .inl ?_, fun hne => ?_⟩
    · have hl : k.lop ∈ arrayLops := by
        by_contra hl
        obtain hc | ⟨-, hc⟩ := hchip
        · exact hne (by rw [hc])
        · rw [hc] at hne
          exact hne (response_array _ _ _ _ _ hl)
      obtain ⟨hp, hi⟩ := microCall_arrayLop micro hl
      exact ⟨wire, hp, i, hi, code⟩
    · obtain ⟨hset, hl⟩ := undoc_changed (hundoc.resolve_left hne) hne
      exact ⟨hset, .inl ⟨wire, i, code, microCall_registerLop micro hl⟩⟩
  | silent _ _ _ micro =>
    obtain ⟨-, hchip, -, -, -, -, -, -, -, -, -, hundoc⟩ := microLocal_frame micro
    exact ⟨fun hne => absurd (by rw [hchip]) hne, fun hne => absurd hundoc hne⟩
  | host _ _ turn =>
    obtain ⟨harray, hundoc⟩ := hostTurn_array hpower turn
    exact ⟨fun hne => absurd harray hne, fun hne => absurd hundoc hne⟩

/-- Settles O25: the commands that change the array or the mark, and the labels that issue them. -/
theorem arrayAndMarkChangeOnlyByTheirCommands : Obligations.ArrayAndMarkChangeOnlyByTheirCommands := by
  intro s t htab h hpower
  have changes := moved_changes (by simpa using htab) (by simpa using hpower) (step_moved h)
  simp only [asked_optab, asked_ctrl, asked_x, asked_chip, asked_wire, asked_undoc] at changes
  exact changes

end Sys2Proof.Machine
end

section
/-! PROOFS. `construct`, whole, at a prompt chip (R170): one lemma for each of its seven steps. -/

namespace Sys2Proof.Machine

/-! ### Runs and schedules -/

/-- A run goes on from the next state of its first step. -/
theorem run_succ {s t : State} (h : step s = .next t) (k : Nat) : run (k + 1) s = run k t := by
  simp only [run, Host.Core.run, show Sys2Proof.core.step s = .next t from h]
  rfl

/-- When every call returns `Ok`, the next one does, and so do those after it (R146). -/
theorem AllCallsOk.head {s : State} (h : AllCallsOk s) : s.env.calls.head = .ok := by
  obtain ⟨hrest, hpre⟩ := h
  unfold Feed.head
  cases hl : s.env.calls.pre with
  | nil => exact hrest
  | cons d ds => exact hpre d (by simp [hl])

theorem AllCallsOk.of_tail {s t : State} (h : AllCallsOk s) (ht : t.env.calls = s.env.calls.tail) : AllCallsOk t := by
  obtain ⟨hrest, hpre⟩ := h
  rw [AllCallsOk, ht]
  exact ⟨hrest, fun d hd => hpre d (List.mem_of_mem_tail hd)⟩

/-! ### The labels of `construct` -/

/-- `construct`, requested in the launch state `s`, has reached label `p` with the events `es` (R170). -/
structure Building (s : State) (p : Phase) (es : List Event) (u : State) : Prop extends Connected .Spi u where
  phase : u.ctrl.phase = p
  op : u.x.op = 0x00
  calls : AllCallsOk u
  prompt : Prompt u
  optab : u.optab = s.optab
  reqs : u.env.reqs = s.env.reqs + 1
  trace : u.trace = es
  array : u.chip.array = s.chip.array
  cfg : u.ctrl.cfg = Config.busCfg
  xcfg : u.xport.cfg = Config.busCfg
  mapping : u.ctrl.mmode = .Direct
  cause : u.ctrl.cause = 0x00

section building
variable {s u : State} {p : Phase} {es : List Event}

/-- The event of its next call (R148). -/
theorem Building.okEvent (b : Building s p es u) (l : Lop) (a : Option Addr) (data : Option (List Byte)) :
    okEvent u l a data = .call (callKind l.dir) (build s.optab .Spi l a) data true (s.env.reqs + 1) := by
  simp only [Machine.okEvent, b.optab, b.tag, b.reqs]

/-- While the chip is idle the controller takes the next micro-step. -/
theorem Building.step (b : Building s p es u) (hp : p ≠ .idle) (hw : u.chip.wip = false) :
    step u = exec .construct u := by
  have hturn : turn u = .instr .construct :=
    turn_request (by simp [hw]) b.bus (.inl (b.phase ▸ hp)) (by rw [b.op]; rfl)
  rw [step_instr hturn, asked_of_idle _ hw]

/-- What an `Ok` call and a move to the label `q` leave. -/
theorem Building.called (b : Building s p es u) {q : Phase} {e : Event} {c : Chip} {rx : List Byte} {v : State}
    (chip : c.emode = some .Spi) (array : c.array = u.chip.array) {d : Nat} {w : Bool}
    (hv : Carried { called u e c rx with env.draws := d, env.undoc := w } v) (hq : v.ctrl.phase = q)
    (hcfg : v.ctrl.cfg = u.ctrl.cfg) : Building s q (es ++ [e]) v := by
  have calls : AllCallsOk v := b.calls.of_tail (by rw [hv.env]; rfl)
  exact
    { table := by rw [hv.optab]; exact b.table
      tag := by rw [hv.emode]; exact b.tag
      chip := by rw [hv.chip]; exact chip
      direct := by rw [hv.xport]; exact b.direct
      mapping := by rw [hv.mmode]; exact b.mapping
      bus := by rw [hv.env]; exact b.bus
      ok := calls.head
      phase := hq
      op := by rw [hv.op]; exact b.op
      calls
      prompt := by rw [Prompt, hv.env]; exact b.prompt
      optab := by rw [hv.optab]; exact b.optab
      reqs := by rw [hv.env]; exact b.reqs
      trace := by rw [hv.trace, called_trace, b.trace]
      array := by rw [hv.chip]; exact array.trans b.array
      cfg := by rw [hcfg]; exact b.cfg
      xcfg := by rw [hv.xport]; exact b.xcfg
      cause := by rw [hv.cause]; exact b.cause }

/-- The dispatch and S1: the configuration and both tags are set (R46, R302, R170). -/
theorem construct_starts (launch : Launch s) (htab : OpTab.wf s.optab = true) (calls : AllCallsOk s) (prompt : Prompt s)
    (wire : s.env.wire = none) (req : s.env.req = true) (op : s.x.op = 0x00) :
    ∃ u v, Machine.step s = .next u ∧ Machine.step u = .next v ∧ Building s .s2 [] v ∧ v.chip.wip = false := by
  have code : decodeRequest s.x.op = .ok .construct := by rw [op]; rfl
  have hverdict : verdict 0x00#8 s.ctrl = .run := by simp [verdict, launch.unconstructed]
  have dispatched : Machine.step s = .next (go .s1 (accepted s)) := by
    rw [step_instr (turn_request (by simp [launch.idle]) wire (.inr req) code), asked_of_idle _ launch.idle,
      exec_idle (by rfl) launch.phase, dispatch_next]
    exact .inr (.inr ⟨hverdict, rfl, rfl⟩)
  have tagged : Machine.step (go .s1 (accepted s)) = .next (constructTags (go .s1 (accepted s))) := by
    rw [step_instr (s := go .s1 (accepted s)) (turn_request (by simp [launch.idle]) wire (.inl (by simp)) code),
      asked_of_idle (go .s1 (accepted s)) launch.idle]
    rfl
  refine ⟨_, _, dispatched, tagged, ?_, launch.idle⟩
  exact
    { table := htab, tag := rfl, chip := (emode_spi s.chip).mpr ⟨launch.spi, launch.b1⟩, direct := launch.command
      bus := wire, ok := calls.head, phase := rfl, op := op, calls := calls, prompt := prompt, optab := rfl, reqs := rfl
      trace := launch.trace, array := rfl, cfg := rfl, xcfg := rfl, mapping := rfl, cause := launch.cause }

/-- S2: RESET_ENABLE sets the latch (R170, R260). -/
theorem Building.resetEnable (b : Building s .s2 es u) (hw : u.chip.wip = false) :
    ∃ v, Machine.step u = .next v ∧ v.chip.rsten = true ∧ v.chip.wip = false ∧
      Building s .s3 (es ++ [.call .execute (build s.optab .Spi .resetEnable none) none true (s.env.reqs + 1)]) v := by
  have hexec : exec .construct u = Call.outcome ⟨.resetEnable, none, .none, go .s3⟩ u := by
    simp only [exec, execConstruct, b.phase]
    exact command_outcome ..
  rw [b.step (by simp) hw, hexec,
    outcome_ok_plain (k := ⟨.resetEnable, none, .none, go .s3⟩) b.toConnected (bare_self _) rfl (by simp [hw]) trivial
      (by simp), b.okEvent]
  exact ⟨_, rfl, rfl, hw, b.called (c := { u.chip with rsten := true }) b.chip rfl (carried_go _ _) rfl rfl⟩

/-- S3: RESET_MEMORY finds the latch and raises WIP (R170, R172, R261). -/
theorem Building.resetMemory (b : Building s .s3 es u) (hw : u.chip.wip = false) (hr : u.chip.rsten = true) :
    ∃ v, Machine.step u = .next v ∧ v.chip.rsten = false ∧ v.chip.wip = true ∧
      Building s .w1 (es ++ [.call .execute (build s.optab .Spi .resetMemory none) none true (s.env.reqs + 1)]) v := by
  have hexec : exec .construct u = Call.outcome ⟨.resetMemory, none, .none, go .w1⟩ u := by
    simp only [exec, execConstruct, b.phase]
    exact command_outcome ..
  have reset : response .resetMemory (Lop.uses .resetMemory none) .none u.env.draws u.chip =
      resetRegisters u.env.draws u.chip := if_pos hr
  obtain ⟨busy, -, spi⟩ := resetRegisters_flags u.env.draws u.chip
  obtain ⟨d, w, hcall, -⟩ := outcome_ok (k := ⟨.resetMemory, none, .none, go .w1⟩) b.toConnected (bare_self _) rfl
    (by simp [hw]) trivial
  rw [b.step (by simp) hw, hexec, hcall, reset, b.okEvent]
  exact ⟨_, rfl, rfl, busy, b.called (d := d) (w := w) spi rfl (carried_go _ _) rfl rfl⟩

/-- The completion agent of a prompt chip moves before the first poll (R156, R290). -/
theorem Building.completes (b : Building s p es u) (hw : u.chip.wip = true) :
    ∃ v, Machine.step u = .next v ∧ v.chip = u.chip.complete ∧ Building s p es v := by
  have hdone : u.env.done = ⟨[], true⟩ := b.prompt
  have hstep : Machine.step u = .next (chipDone (asked u)) := by
    simp [Machine.step, turn, hw, hdone, Feed.head]
  rw [asked_eq, if_pos hw, hdone] at hstep
  exact ⟨_, hstep, rfl, { b with prompt := rfl }⟩

/-- S4: the poll sees WIP clear (R156, R170). -/
theorem Building.polls (b : Building s .w1 es u) (hw : u.chip.wip = false) :
    ∃ v, Machine.step u = .next v ∧ v.chip = u.chip.asked ∧ v.ctrl.tmp = u.chip.sr ∧
      Building s .s5 (es ++ [.call .read (build s.optab .Spi .readSr none) (some [u.chip.sr]) true (s.env.reqs + 1)]) v := by
  have hexec : exec .construct u = (pollCall .s5).outcome u := by
    simp only [exec, execConstruct, b.phase]
    exact pollWip_outcome ..
  have hlabel : (if srWip u.chip.sr then Phase.w1 else .s5) = .s5 := if_neg (by simpa [Chip.wip] using hw)
  rw [b.step (by simp) hw, hexec, outcome_ok_plain (k := pollCall .s5) b.toConnected (asking_self 1 _) rfl
    (fun _ => rfl) trivial (by simp [pollCall]), b.okEvent]
  exact ⟨_, rfl, rfl, rfl, b.called (c := u.chip.asked) b.chip rfl (carried_afterPoll _ _) hlabel rfl⟩

/-- S5: the controller is constructed (R170). -/
theorem Building.done (b : Building s .s5 es u) (hw : u.chip.wip = false) :
    Machine.step u = .next (constructDone u) := by
  rw [b.step (by simp) hw]
  simp only [exec, execConstruct, b.phase]

end building

/-- Settles O52: seven steps, each by its lemma. -/
theorem constructRun : Obligations.ConstructRun := by
  intro s launch htab calls prompt wire req op
  obtain ⟨u1, u2, h1, h2, b2, w2⟩ := construct_starts launch htab calls prompt wire req op
  obtain ⟨u3, h3, r3, w3, b3⟩ := b2.resetEnable w2
  obtain ⟨u4, h4, r4, w4, b4⟩ := b3.resetMemory w3 r3
  obtain ⟨u5, h5, c5, b5⟩ := b4.completes w4
  have w5 : u5.chip.wip = false := by rw [c5]; exact complete_wip _
  obtain ⟨u6, h6, c6, tmp, b6⟩ := b5.polls w5
  have w6 : u6.chip.wip = false := by rw [c6]; exact w5
  have h7 := b6.done w6
  refine ⟨constructDone u6, u5.chip.sr, ?run, rfl, b6.tag, b6.mapping, rfl, b6.cause, rfl, b6.cfg, b6.xcfg, b6.direct, w6,
    ?wel, b6.toConnected.chip, ?rsten, b6.array, tmp, w5, b6.trace⟩
  case run => rw [run_succ h1, run_succ h2, run_succ h3, run_succ h4, run_succ h5, run_succ h6, run_succ h7]; rfl
  case wel =>
    show u6.chip.wel = false
    rw [c6, c5]
    exact complete_wel _
  case rsten =>
    show u6.chip.rsten = false
    rw [c6]
    rfl

end Sys2Proof.Machine
end

section
/-! PROOFS. READ_MEM and the open window (R63, R64, R248, R274): the bytes the chip answers, and the value a load returns. -/

namespace Sys2Proof.Machine

/-! ### The bytes of a range (R16, R63) -/

@[simp] theorem Chip.length_bytes (c : Chip) (a n : Nat) : (c.bytes a n).length = n := by
  simp [Chip.bytes, Memory.readList]

/-- The lowest address comes first (R63). -/
theorem Chip.getElem?_bytes (c : Chip) (a : Nat) {n j : Nat} (hj : j < n) : (c.bytes a n)[j]? = some (c.byte (a + j)) := by
  simp [Chip.bytes, Memory.readList, Chip.byte, hj]

/-- The lowest address is the least significant (R64). -/
theorem littleEndian_map_range (f : Nat → Byte) (n : Nat) :
    littleEndian ((List.range n).map f) = ∑ k ∈ Finset.range n, (f k).toNat * 256 ^ k := by
  induction n generalizing f with
  | zero => rfl
  | succ n ih =>
    have hrest : littleEndian ((List.range n).map (f ∘ Nat.succ)) =
        ∑ k ∈ Finset.range n, (f (k + 1)).toNat * 256 ^ k := ih (f ∘ Nat.succ)
    rw [List.range_succ_eq_map, List.map_cons, List.map_map, littleEndian, hrest, Finset.sum_range_succ', Finset.mul_sum,
      pow_zero, mul_one, add_comm]
    refine congrArg (· + (f 0).toNat) (Finset.sum_congr rfl fun k _ => ?_)
    rw [pow_succ]
    ring

theorem Chip.littleEndian_bytes (c : Chip) (a n : Nat) :
    littleEndian (c.bytes a n) = ∑ k ∈ Finset.range n, (c.byte (a + k)).toNat * 256 ^ k :=
  littleEndian_map_range (fun k => c.byte (a + k)) n

/-! ### READ_MEM (R274) -/

/-- An idle chip answers READ_MEM in its format, inside the array. -/
theorem chipReadMem_answered {m : EMode} {a : Addr} {n : Nat} {s : State} (hm : s.chip.emode = some m)
    (hw : s.chip.wip = false) (hn : 1 ≤ n) (hr : a.toNat + n ≤ Config.capacity) :
    chipReadMem m a n s = .next (answered s (s.chip.bytes a.toNat n)) := by
  rw [chipReadMem, if_pos hn, chipInArray_next, chipAnswer_next]
  exact ⟨hm, hw, decide_eq_true hr, hm, by simp [hw], rfl⟩

/-- Settles O29: in either format the meaning is `chipReadMem`, and its answer is the bytes of the range. -/
theorem readMemAnswersArray : Obligations.ReadMemAnswersArray := by
  intro s a n hw hn hr
  exact ⟨s.chip.bytes a.toNat n, Chip.length_bytes .., fun j hj => Chip.getElem?_bytes _ _ hj,
    fun hm => chipReadMem_answered hm hw hn hr, fun hm => chipReadMem_answered hm hw hn hr⟩

/-- A READ_MEM built from a well-formed table is delivered as that command (R256, R274). -/
theorem deliver_readMem {m : EMode} {a : Addr} {n : Nat} {s : State} (htab : OpTab.wf s.optab = true)
    (hm : s.chip.emode = some m) (hw : s.chip.wip = false) (hn : 1 ≤ n) (hr : a.toNat + n ≤ Config.capacity) :
    deliver ⟨build s.optab m .readMem (some a), .read n⟩ s = .next (answered s (s.chip.bytes a.toNat n)) := by
  have hlen : n < 2 ^ 32 := by
    unfold Config.capacity at hr
    omega
  have haddr : (build s.optab m .readMem (some a)).address = some a := build_address_operand htab rfl
  unfold deliver
  cases m with
  | Spi =>
    rw [decodeTxn_build htab .Spi .readMem (some a) (.read n) (.readMemSpi a n) (by rw [haddr]; rfl)
      (decide_eq_true ⟨hn, hlen⟩)]
    exact chipReadMem_answered hm hw hn hr
  | Opi =>
    rw [decodeTxn_build htab .Opi .readMem (some a) (.read n) (.readMemOpi a n) (by rw [haddr]; rfl)
      (decide_eq_true ⟨hn, hlen⟩)]
    exact chipReadMem_answered hm hw hn hr

/-! ### The window (R75, R129, R248) -/

/-- A read template completed with an address is the descriptor the controller would build (R129). -/
theorem readTemplate_address {t : Config.OpTab} (htab : OpTab.wf t = true) (m : EMode) (a : Addr) :
    { readTemplate t m with address := some a } = build t m .readMem (some a) := by
  simp [readTemplate, template, build, asize_operand htab m (l := .readMem) rfl, Lop.operandAddress]

/-- The state after a window access at `a` that was answered `bytes` (R248). -/
def windowServed (s : State) (a : Addr) (bytes : List Byte) : State :=
  { answered s bytes with
    env.loaded := littleEndian bytes
    trace := s.trace ++ [.windowRead a.toNat bytes] }

/-- An access of an admitted shape, inside the open window of an idle chip in the template's mode, is served. -/
theorem windowRead_served {m : EMode} {w : Nat} {a : Addr} {s : State} (htab : OpTab.wf s.optab = true)
    (opened : s.xport.passthrough = true) (template : s.xport.rdTpl = some (readTemplate s.optab m))
    (hm : s.chip.emode = some m) (hw : s.chip.wip = false) (hlo : Config.mmBase ≤ a.toNat)
    (hhi : a.toNat + w ≤ Config.mmBase + Config.capacity) (hn : 1 ≤ w) :
    windowRead true w a s = .next (windowServed s a (s.chip.bytes (a.toNat - Config.mmBase) w)) := by
  have inside : inWindow w a = true := by simp [inWindow, hlo, hhi]
  have offset : (BitVec.ofNat 32 (a.toNat - Config.mmBase)).toNat = a.toNat - Config.mmBase := by
    rw [BitVec.toNat_ofNat, Nat.mod_eq_of_lt (by have := a.isLt; omega)]
  have delivered := deliver_readMem (a := BitVec.ofNat 32 (a.toNat - Config.mmBase)) htab hm hw hn
    (by rw [offset]; omega)
  rw [offset, ← readTemplate_address htab] at delivered
  rw [windowRead, if_pos opened, if_pos inside, if_pos rfl]
  exact windowAccess_next.mpr ⟨_, _, template, delivered, rfl⟩

theorem loadShape_iff {w : Nat} {a : Addr} : loadShape w a = true ↔ w ∈ [1, 2, 4] ∧ a.toNat % w = 0 := by
  simp [loadShape, or_assoc]

theorem fetchShape_iff {w : Nat} {a : Addr} : fetchShape w a = true ↔ 1 ≤ w ∧ a.toNat % w = 0 := by
  simp [fetchShape]

/-- Settles O51: the host's move is a window read of an admitted shape, a load or a fetch. -/
theorem windowLoadReadsArray : Obligations.WindowLoadReadsArray := by
  intro m s w a h rest idle req wire script htab opened template hm hw hlo hhi haligned hmove
  have hn : 1 ≤ w := by
    obtain ⟨-, hmem⟩ | ⟨-, hn⟩ := hmove
    · simp only [List.mem_cons, List.not_mem_nil, or_false] at hmem
      omega
    · exact hn
  have hread : ∀ u : State, hostMove h u = windowRead true w a u := by
    obtain ⟨rfl, hmem⟩ | ⟨rfl, hn⟩ := hmove
    · exact fun u => congrArg (windowRead · w a u) (loadShape_iff.mpr ⟨hmem, haligned⟩)
    · exact fun u => congrArg (windowRead · w a u) (fetchShape_iff.mpr ⟨hn, haligned⟩)
  refine ⟨s.chip.bytes (a.toNat - Config.mmBase) w, Chip.length_bytes .., fun j hj => Chip.getElem?_bytes _ _ hj, ?_⟩
  rw [step_hostMove idle req wire (by simp [hw]) script, hread, ← Chip.littleEndian_bytes]
  refine (windowRead_served (s := { s with env.script := rest, env.done := _ }) htab opened template hm hw hlo hhi hn).trans ?_
  simp only [windowServed, answered, hw, wire, Bool.false_eq_true, if_false]

end Sys2Proof.Machine
end

section
/-! PROOFS. A micro-step whose call returns `Ok`, and the operations of one command: the two register writes (R195, R196), the
identification and register reads (R190 to R194), `read_memory` (R210). -/

namespace Sys2Proof.Machine

/-! ### A call that goes through -/

/-- The state in which an operation goes on after the `Ok` call `k`: the chip's response and answer, one event, and the mark
of log entry 9. -/
def Call.done (k : Call) (s : State) : State :=
  { called s
      (okEvent s k.lop k.addr
        (eventData k.payload true (answerOf k.lop (Lop.uses k.lop k.addr) k.payload s.chip s.env.rx)))
      (response k.lop (Lop.uses k.lop k.addr) k.payload s.env.draws s.chip)
      (answerOf k.lop (Lop.uses k.lop k.addr) k.payload s.chip s.env.rx) with
    env.undoc := s.env.undoc || marks k.lop (Lop.uses k.lop k.addr) k.payload s.chip }

/-- A command but the two register writes leaves the mark. -/
theorem Call.done_plain {k : Call} (hl : k.lop ∉ [.writeSrCr, .writeCr2]) (s : State) :
    k.done s = called s
      (okEvent s k.lop k.addr
        (eventData k.payload true (answerOf k.lop (Lop.uses k.lop k.addr) k.payload s.chip s.env.rx)))
      (response k.lop (Lop.uses k.lop k.addr) k.payload s.env.draws s.chip)
      (answerOf k.lop (Lop.uses k.lop k.addr) k.payload s.chip s.env.rx) := by
  rw [Call.done, marks_eq_false hl, Bool.or_false]
  rfl

/-- What the chip asks of a command: the address its row takes, data of its row's shape, its range inside the array, and but
for READ_SR an idle chip (R115, R258, R259, R274 to R279). -/
structure Call.Served (k : Call) (c : Chip) : Prop where
  addr : k.lop.operandAddress = true → k.addr ≠ none
  fits : Payload.fits k.lop k.payload
  idle : c.wip = true → k.lop = .readSr
  range : reaches k.lop (Lop.uses k.lop k.addr) k.payload

/-- The micro-step of such a command, when the call returns `Ok` (R146, R150). RESET_MEMORY alone draws as well. -/
theorem exec_call {m : EMode} {i : Instr} {op : Byte} {k : Call} {s : State} (hi : i.requestCode = some op)
    (busy : s.ctrl.phase ≠ .idle) (micro : microCall i s = some k) (h : Connected m s) (hk : k.Served s.chip)
    (hl : k.lop ≠ .resetMemory) : exec i s = .next (k.next (k.done s)) := by
  obtain ⟨j, hj, hwf⟩ := wireInstr_build h.table m hk.addr hk.fits
  obtain ⟨d, u, hout, hu, hd⟩ := outcome_ok h hj hwf hk.idle hk.range
  rw [exec_micro hi busy, micro]
  refine hout.trans ?_
  rw [hu, hd hl]
  rfl

/-! ### The two register writes (R195, R196) -/

/-- WIP rises in the step of the effect (R288). -/
theorem mutated_eq (c : Chip) (f : Chip → Chip) :
    c.mutated f = { f c.asked with sr := (f c.asked).sr ||| 0x01 } := rfl

/-- A CR2 write of an idle chip changes the register space, WIP and the latch of RESET_ENABLE (R270). -/
theorem mutated_setCr2 (c : Chip) (a : Addr) (v : Byte) :
    c.mutated (fun c => c.setCr2 a v) = { c.setCr2 a v with sr := c.sr ||| 0x01, rsten := false } := by
  rw [mutated_eq]
  unfold Chip.setCr2
  split <;> rfl

/-- What the mark says after a WRITE_SR_CR (R268, log entry 9). -/
theorem marks_writeSrCr {c : Chip} (hwel : c.wel = true) (sr cr : Byte) :
    marks .writeSrCr none (.write [sr, cr]) c = true ↔ sr &&& 0xFC ≠ c.sr &&& 0xFC ∨ cr ≠ c.cr := by
  simp only [marks, hwel, Bool.true_and, Bool.or_eq_true, decide_eq_true_eq, ne_eq, mergeBits_undescribed]

/-- What the mark says after a WRITE_CR2 (R270, log entry 9). -/
theorem marks_writeCr2 {c : Chip} (hwel : c.wel = true) (a : Addr) (v : Byte) :
    marks .writeCr2 (some a) (.write [v]) c = true ↔ if a = 0 then v &&& 0xFC ≠ c.cr20 &&& 0xFC else v ≠ c.cr2At a := by
  simp only [marks, hwel, Bool.true_and, cr2WriteUndoc_iff]

theorem response_writeSrCr {c : Chip} (hwel : c.wel = true) (sr cr : Byte) (k : Nat) :
    response .writeSrCr none (.write [sr, cr]) k c =
      { c with sr := (c.sr &&& 0x03) ||| (sr &&& 0xFC) ||| 0x01, cr := cr, rsten := false, pending := .nothing } :=
  response_of_wel rfl hwel

theorem response_writeCr2 {c : Chip} (hwel : c.wel = true) (a : Addr) (v : Byte) (k : Nat) :
    response .writeCr2 (some a) (.write [v]) k c = { c.setCr2 a v with sr := c.sr ||| 0x01, rsten := false } :=
  (response_of_wel rfl hwel).trans (mutated_setCr2 c a v)

/-- Settles O38: at M2 each operation makes the call of its own command. -/
theorem registerWriteStep : Obligations.RegisterWriteStep := by
  intro m s ready hwel hp
  have busy : s.ctrl.phase ≠ .idle := by simp [hp]
  have srCr := exec_call (i := .writeStatusAndConfigurationRegister)
    (k := ⟨.writeSrCr, none, .write [s.x.v0, s.x.v1], go .w1⟩) rfl busy (by simp [microCall, mutateCall, hp])
    ready.toConnected ⟨by simp [Lop.operandAddress], ⟨_, _, rfl⟩, by simp [ready.idle], trivial⟩ (by simp)
  have cr2 := exec_call (i := .writeConfigurationRegister2) (k := ⟨.writeCr2, some s.x.a, .write [s.x.v0], go .w1⟩) rfl
    busy (by simp [microCall, mutateCall, hp]) ready.toConnected ⟨by simp, ⟨_, rfl⟩, by simp [ready.idle], trivial⟩ (by simp)
  refine ⟨⟨_, s.env.undoc || marks .writeSrCr none (.write [s.x.v0, s.x.v1]) s.chip, srCr, ?srCr, ?srCrMark⟩,
    ⟨_, s.env.undoc || marks .writeCr2 (some s.x.a) (.write [s.x.v0]) s.chip, cr2, ?cr2, ?cr2Mark⟩⟩
  case srCr => rw [← response_writeSrCr hwel _ _ s.env.draws]; rfl
  case srCrMark => rw [Bool.or_eq_true, marks_writeSrCr hwel]
  case cr2 => rw [← response_writeCr2 hwel _ _ s.env.draws]; rfl
  case cr2Mark => rw [Bool.or_eq_true, marks_writeCr2 hwel]

/-! ### Identification and register reads (R190 to R194) -/

/-- Settles O43: each read is the call of its own command, and its bytes are what `storeId` and `keepByte` store. -/
theorem identityAndRegisterReadSteps : Obligations.IdentityAndRegisterReadSteps := by
  refine ⟨fun m s b0 b1 b2 => ⟨fun hp ready => ?i1, fun hp hrx => ?i2⟩, fun m s i l a b ready hread => ?register⟩
  case i1 =>
    rw [exec_call (i := .readId) (k := ⟨.readId, none, .read 3, go .i2⟩) rfl (by simp [hp]) (if_pos hp) ready.toConnected
      ⟨by simp [Lop.operandAddress], rfl, by simp [ready.idle], trivial⟩ (by simp), Call.done_plain (by simp)]
    rfl
  case i2 =>
    have hexec : exec .readId s = .next (storeId s) := by simp only [exec, execReadId, hp]
    rw [hexec, storeId, rxByte, rxByte, rxByte, hrx]
    rfl
  case register =>
    have read : ∀ {i : Instr} {op : Byte} {l : Lop} {a : Option Addr}, i.requestCode = some op → s.ctrl.phase ≠ .idle →
        microCall i s = some ⟨l, a, .read 1, keepByte⟩ → (l.operandAddress = true → a ≠ none) →
        l ∈ [.readSr, .readCr, .readCr2] →
        exec i s = .next (keepByte (Call.done ⟨l, a, .read 1, keepByte⟩ s)) := by
      intro i op l a hi busy micro haddr hl
      have fits : Payload.fits l (.read 1) ∧ reaches l (Lop.uses l a) (.read 1) ∧ l ≠ .resetMemory := by
        revert hl
        cases l <;> simp [Payload.fits, reaches]
      exact exec_call hi busy micro ready.toConnected ⟨haddr, fits.1, by simp [ready.idle], fits.2.1⟩ fits.2.2
    obtain ⟨rfl, hp, rfl, rfl, rfl⟩ | ⟨rfl, hp, rfl, rfl, rfl⟩ | ⟨rfl, hp, rfl, rfl, rfl⟩ := hread
    · rw [read (i := .readStatusRegister) rfl (by simp [hp]) (if_pos hp) (by simp [Lop.operandAddress]) (by simp),
        Call.done_plain (by simp)]
      rfl
    · rw [read (i := .readConfigurationRegister) rfl (by simp [hp]) (if_pos hp) (by simp [Lop.operandAddress]) (by simp),
        Call.done_plain (by simp)]
      rfl
    · rw [read (i := .readConfigurationRegister2) rfl (by simp [hp]) (if_pos hp) (by simp) (by simp),
        Call.done_plain (by simp)]
      rfl

/-! ### `read_memory` (R210) -/

/-- Settles O44: B1 is the call of READ_MEM, B2 hands the bytes received over. -/
theorem readMemorySteps : Obligations.ReadMemorySteps := by
  refine fun m s => ⟨fun hp ready hn hr => ?b1, fun hp => ?b2⟩
  case b1 =>
    refine ⟨s.chip.bytes s.x.a.toNat s.x.n.toNat, Chip.length_bytes .., fun j hj => Chip.getElem?_bytes _ _ hj, ?_⟩
    rw [exec_call (i := .readMemory) (k := ⟨.readMem, some s.x.a, .read s.x.n.toNat, go .b2⟩) rfl (by simp [hp])
      (if_pos hp) ready.toConnected ⟨by simp, ⟨_, rfl, hn, s.x.n.isLt⟩, by simp [ready.idle], ⟨hn, hr⟩⟩ (by simp),
      Call.done_plain (by simp)]
    rfl
  case b2 =>
    simp only [exec, execReadMemory, hp]
    rfl

end Sys2Proof.Machine
end

section
/-! PROOFS. What is refused (R62, R70, R75, R187, R211, R226, R251): the operands of a request, the accesses of the window. -/

namespace Sys2Proof.Machine

/-! ### Operands (R62, R187, R211, R226) -/

/-- A range that runs past the end of the array (R62). -/
theorem rangeBar_eq (s : State) :
    rangeBar s = if 33554432 < s.x.a.toNat + s.x.n.toNat then some .outsideArray else none := by
  by_cases h : s.x.a.toNat + s.x.n.toNat ≤ Config.capacity
  · exact (if_pos h).trans (if_neg (Nat.not_lt.mpr h)).symm
  · exact (if_neg h).trans (if_pos (Nat.not_le.mp h)).symm

/-- A read of no byte, or past the end of the array (R62, R211). -/
theorem readBar_eq (s : State) : readBar s = if s.x.n = 0 then some .zeroLength
    else if s.x.a.toNat + s.x.n.toNat ≤ 33554432 then none else some .outsideArray := rfl

/-- A page program of no byte, or past the end of the array inside its page (R62, R216, R226). -/
theorem pageBar_eq (s : State) : pageBar s = if s.x.n = 0 then some .zeroLength
    else if s.x.n.toNat + s.x.a.toNat % 256 ≤ 256 ∧ 33554432 < s.x.a.toNat + s.x.n.toNat then some .outsideArray
    else none := by
  by_cases hn : s.x.n = 0
  · rw [pageBar, if_pos hn, if_pos hn]
  by_cases hpage : s.x.n.toNat + s.x.a.toNat % 256 ≤ 256
  · have fits : fitsPage s.x.a.toNat s.x.n.toNat = true := decide_eq_true hpage
    rw [pageBar, if_neg hn, if_neg hn, if_pos fits, rangeBar_eq]
    simp only [hpage, true_and]
  · have fits : ¬ fitsPage s.x.a.toNat s.x.n.toNat = true := mt of_decide_eq_true hpage
    rw [pageBar, if_neg hn, if_neg hn, if_neg fits]
    simp only [hpage, false_and, if_false]

/-- A write past the end of the array; one of no byte uses no address (R62, R220). -/
theorem writeBar_eq (s : State) : writeBar s =
    if s.x.n ≠ 0 ∧ 33554432 < s.x.a.toNat + s.x.n.toNat then some .outsideArray else none := by
  by_cases hn : s.x.n = 0
  · rw [writeBar, if_pos hn, if_neg (fun h => h.1 hn)]
  · rw [writeBar, if_neg hn, rangeBar_eq]
    simp only [ne_eq, hn, not_false_eq_true, true_and]

/-- A write of CR2 at address 0 that would change the mode behind the controller (R187). -/
theorem modeBitsBar_eq (s : State) : modeBitsBar s =
    if s.x.a = 0 ∧ (s.x.v0.getLsbD 0 ≠ s.chip.cr20.getLsbD 0 ∨ s.x.v0.getLsbD 1 ≠ s.chip.cr20.getLsbD 1)
    then some .modeBitsBehindController else none := by
  simp only [modeBitsBar, ne_eq, and_three_eq, not_and_or]

/-- Every operand of the eleven other host operations is admitted. -/
theorem barOf_other {i : Instr} (s : State) (hi : i ∉ [.readMemory, .pageProgram, .writeMemory, .eraseSector,
    .eraseBlock64k, .writeConfigurationRegister2]) : barOf i s = none := by
  cases i <;> first
    | rfl
    | simp at hi

/-! ### The window (R70, R75, R251) -/

section window
variable {w : Nat} {a : Addr} {s : State}

theorem inWindow_iff : inWindow w a = true ↔
    Config.mmBase ≤ a.toNat ∧ a.toNat + w ≤ Config.mmBase + 33554432 := by
  rw [inWindow, Bool.and_eq_true, decide_eq_true_iff, decide_eq_true_iff, Config.capacity]

theorem windowRead_closed (h : s.xport.passthrough = false) (shape : Bool) :
    windowRead shape w a s = .refused .windowClosed := by
  simp [windowRead, h]

theorem windowRead_outside (h : s.xport.passthrough = true) (hin : inWindow w a = false) (shape : Bool) :
    windowRead shape w a s = .refused .outsideWindow := by
  simp [windowRead, h, hin]

theorem windowRead_shape (h : s.xport.passthrough = true) (hin : inWindow w a = true) {shape : Bool}
    (hs : shape = false) : windowRead shape w a s = .refused .windowAccessShape := by
  simp [windowRead, h, hin, hs]

theorem windowStore_eq : windowStore w a s = .refused (if s.xport.passthrough then
    (if inWindow w a then .windowStore else .outsideWindow) else .windowClosed) := by
  unfold windowStore
  split
  · split <;> rfl
  · rfl

end window

/-- Settles O15: each clause is the lemma of its operation, or of its access. -/
theorem inputsNotAdmittedRefused : Obligations.InputsNotAdmittedRefused := by
  intro s w a v
  refine ⟨readBar_eq s, pageBar_eq s, writeBar_eq s, rfl, rfl, modeBitsBar_eq s, fun i hi => barOf_other s hi,
    fun closed => ?closed, fun opened inside => ?inside, fun opened outside => ?outside⟩
  case closed =>
    exact ⟨windowRead_closed closed _, windowRead_closed closed _, windowStore_eq.trans (by simp [closed])⟩
  case inside =>
    exact ⟨windowStore_eq.trans (by simp [opened, inside]),
      fun hs => windowRead_shape opened inside (Bool.eq_false_iff.mpr (mt loadShape_iff.mp hs)),
      fun hs => windowRead_shape opened inside (Bool.eq_false_iff.mpr (mt fetchShape_iff.mp hs))⟩
  case outside =>
    have hin : inWindow w a = false := Bool.eq_false_iff.mpr (mt inWindow_iff.mp outside)
    exact ⟨windowRead_outside opened hin _, windowRead_outside opened hin _, windowStore_eq.trans (by simp [opened, hin])⟩

end Sys2Proof.Machine
end

section
/-! PROOFS. A request in progress, micro-step by micro-step, and two whole operations: `read_memory` (R210, R212) and an erase
(R230 to R234). -/

namespace Sys2Proof.Machine

/-! ### The start of a request (R302) -/

/-- A request of a constructed controller in command mode runs, the guarded toggles and mode switches apart (R302). -/
theorem verdict_run {op : Byte} {c : Ctrl} (state : c.cstate = .ready) (mapping : c.mmode = .Direct)
    (hop : op.toNat < 0x11) (hne : op ∉ [0x00#8, 0x01#8, 0x02#8, 0x10#8]) : verdict op c = .run := by
  simp only [List.mem_cons, List.not_mem_nil, or_false, not_or] at hne
  obtain ⟨h0, h1, h2, h10⟩ := hne
  simp [verdict, state, mapping, h0, h1, h2, h10, Nat.not_le.mpr hop]

/-- Its dispatch is one step (R302 step 7, log entry 16). -/
theorem Requested.dispatched {m : EMode} {op : Byte} {i : Instr} {s : State} (r : Requested m op s)
    (code : decodeRequest op = .ok i) (hop : op.toNat < 0x11) (hne : op ∉ [0x00#8, 0x01#8, 0x02#8, 0x10#8])
    (admitted : barOf i s = none) : step s = .next (go (firstStep i) (accepted s)) := by
  have hrun : step s = exec i s := by
    rw [step_instr (turn_request (by simp [r.idle]) r.bus (.inr r.req) (by rw [r.op]; exact code)), asked_of_idle _ r.idle]
  rw [hrun, exec_idle (decodeRequest_code code) r.phase, dispatch_next]
  exact .inr (.inr ⟨verdict_run r.state r.mapping hop hne, admitted, rfl⟩)

/-! ### A request in progress -/

/-- While the chip is idle the controller takes the next micro-step of the operation in progress (R25, R26). -/
theorem step_micro {i : Instr} {u : State} (wire : u.env.wire = none) (busy : u.ctrl.phase ≠ .idle)
    (hw : u.chip.wip = false) (code : decodeRequest u.x.op = .ok i) : step u = exec i u := by
  rw [step_instr (turn_request (by simp [hw]) wire (.inl busy) code), asked_of_idle _ hw]

/-- From the state `b` the operation in progress has come to label `p` with the events `es`, its operands untouched, the
transport and the chip's mode as a call needs them. -/
structure Serving (m : EMode) (b : State) (p : Phase) (es : List Event) (u : State) : Prop extends Connected m u where
  phase : u.ctrl.phase = p
  calls : AllCallsOk u
  optab : u.optab = b.optab
  x : u.x = b.x
  seq : u.seq = b.seq
  cstate : u.ctrl.cstate = b.ctrl.cstate
  reqs : u.env.reqs = b.env.reqs
  done : u.env.done = b.env.done
  trace : u.trace = b.trace ++ es

/-- A dispatched request is served from its first label. -/
theorem Requested.serving {m : EMode} {op : Byte} {s : State} (r : Requested m op s) (p : Phase) :
    Serving m (go p (accepted s)) p [] (go p (accepted s)) :=
  { table := r.table, tag := r.tag, chip := r.chip, direct := r.direct, bus := r.bus, ok := r.ok, phase := rfl
    calls := r.calls, optab := rfl, x := rfl, seq := rfl, cstate := rfl, reqs := rfl, done := rfl
    trace := (List.append_nil _).symm }

section serving
variable {m : EMode} {b u : State} {p : Phase} {es : List Event} {i : Instr}

/-- The event of its next call (R148). -/
theorem Serving.okEvent (h : Serving m b p es u) (l : Lop) (a : Option Addr) (data : Option (List Byte)) :
    okEvent u l a data = .call (callKind l.dir) (build b.optab m l a) data true b.env.reqs := by
  simp only [Machine.okEvent, h.optab, h.tag, h.reqs]

theorem Serving.step (h : Serving m b p es u) (code : decodeRequest b.x.op = .ok i) (hp : p ≠ .idle)
    (hw : u.chip.wip = false) : step u = exec i u :=
  step_micro h.bus (h.phase ▸ hp) hw (by rw [h.x]; exact code)

/-- A call takes it to the next label (R150). -/
theorem Serving.call (h : Serving m b p es u) (code : decodeRequest b.x.op = .ok i) (hp : p ≠ .idle)
    (hw : u.chip.wip = false) {k : Call} (micro : microCall i u = some k) (hk : k.Served u.chip)
    (hl : k.lop ≠ .resetMemory) (hm : (k.done u).chip.emode = some m) {q : Phase}
    (hq : (k.next (k.done u)).ctrl.phase = q) (hx : (k.next (k.done u)).x = u.x) :
    ∃ e v, Machine.step u = .next v ∧ v.chip = (k.done u).chip ∧
      e = .call (callKind k.lop.dir) (build b.optab m k.lop k.addr) (eventData k.payload true
        (answerOf k.lop (Lop.uses k.lop k.addr) k.payload u.chip u.env.rx)) true b.env.reqs ∧
      Serving m b q (es ++ [e]) v := by
  have hv : Carried (k.done u) (k.next (k.done u)) := microCall_carried micro _
  have calls : AllCallsOk (k.next (k.done u)) := h.calls.of_tail (by rw [hv.env]; rfl)
  refine ⟨_, _, (h.step code hp hw).trans (exec_call (decodeRequest_code code) (h.phase ▸ hp) micro h.toConnected hk hl),
    hv.chip, rfl, ?_⟩
  exact
    { table := by rw [hv.optab]; exact h.table
      tag := by rw [hv.emode]; exact h.tag
      chip := by rw [hv.chip]; exact hm
      direct := by rw [hv.xport]; exact h.direct
      bus := by rw [hv.env]; exact h.bus
      ok := calls.head
      phase := hq
      calls
      optab := by rw [hv.optab]; exact h.optab
      x := hx.trans h.x
      seq := by rw [hv.seq]; exact h.seq
      cstate := by rw [hv.cstate]; exact h.cstate
      reqs := by rw [hv.env]; exact h.reqs
      done := by rw [hv.env]; exact h.done
      trace := by
        rw [hv.trace, ← h.okEvent, ← List.append_assoc, ← h.trace]
        rfl }

/-- The completion agent of a prompt chip moves before the first poll (R156, R290). -/
theorem Serving.completes (h : Serving m b p es u) (prompt : Prompt b) (hw : u.chip.wip = true) :
    ∃ v, Machine.step u = .next v ∧ v.chip = u.chip.complete ∧ Serving m b p es v := by
  have hdone : u.env.done = ⟨[], true⟩ := h.done.trans prompt
  have hstep : Machine.step u = .next (chipDone (asked u)) := by
    simp [Machine.step, turn, hw, hdone, Feed.head]
  rw [asked_eq, if_pos hw, hdone] at hstep
  exact ⟨_, hstep, rfl, { h with done := prompt.symm }⟩

/-! ### The mutation sequence (R158) -/

variable {l : Lop} {a : Option Addr} {q : Payload} {next : Phase}

/-- M1: WRITE_ENABLE sets WEL (R152). -/
theorem Serving.enables (h : Serving m b .m1 es u) (code : decodeRequest b.x.op = .ok i) (hw : u.chip.wip = false)
    (micro : microCall i u = mutateCall l a q next u) :
    ∃ e v, Machine.step u = .next v ∧ v.chip = { u.chip.setWel with rsten := false } ∧ Serving m b .m2 (es ++ [e]) v := by
  rw [mutateCall, h.phase] at micro
  obtain ⟨e, v, hstep, hchip, -, hv⟩ := h.call code (by simp) hw micro
    ⟨by simp [Lop.operandAddress], rfl, by simp [hw], trivial⟩ (by simp) h.chip rfl rfl
  exact ⟨e, v, hstep, hchip, hv⟩

/-- M2: the command is accepted, and WIP rises with its effect (R158, R288). -/
theorem Serving.mutates (h : Serving m b .m2 es u) (code : decodeRequest b.x.op = .ok i) (hw : u.chip.wip = false)
    (hwel : u.chip.wel = true) (micro : microCall i u = mutateCall l a q next u)
    (hk : Call.Served ⟨l, a, q, go .w1⟩ u.chip) (hl : l.mutating = true) (hcr2 : l ≠ .writeCr2) :
    ∃ v, Machine.step u = .next v ∧ v.chip = u.chip.mutated (effectOf l (Lop.uses l a) q) ∧
      Serving m b .w1 (es ++ [.call (callKind l.dir) (build b.optab m l a)
        (eventData q true (answerOf l (Lop.uses l a) q u.chip u.env.rx)) true b.env.reqs]) v := by
  rw [mutateCall, h.phase] at micro
  have effect : (Call.done ⟨l, a, q, go .w1⟩ u).chip = u.chip.mutated (effectOf l (Lop.uses l a) q) := response_of_wel hl hwel
  obtain ⟨hopi, hb1⟩ := mutated_mode hcr2 (Lop.uses l a) q u.chip
  obtain ⟨e, v, hstep, hchip, rfl, hv⟩ := h.call code (by simp) hw micro hk (by rintro rfl; cases hl)
    (by rw [effect, Chip.emode_congr hopi hb1]; exact h.chip) rfl rfl
  exact ⟨v, hstep, hchip.trans effect, hv⟩

/-- W1: the poll sees WIP clear (R156). -/
theorem Serving.polls (h : Serving m b .w1 es u) (code : decodeRequest b.x.op = .ok i) (hw : u.chip.wip = false)
    (micro : microCall i u = mutateCall l a q next u) :
    ∃ e v, Machine.step u = .next v ∧ v.chip = u.chip.asked ∧ Serving m b next (es ++ [e]) v := by
  rw [mutateCall, h.phase] at micro
  obtain ⟨e, v, hstep, hchip, -, hv⟩ := h.call (q := next) code (by simp) hw micro
    ⟨by simp [pollCall, Lop.operandAddress], rfl, by simp [pollCall], trivial⟩ (by simp [pollCall]) h.chip
    (if_neg (Bool.eq_false_iff.mp hw : ¬ srWip u.chip.sr = true)) rfl
  exact ⟨e, v, hstep, hchip, hv⟩

/-- The whole of `mutate` at a prompt chip: write-enable, command, completion, one poll (R158). -/
theorem Serving.mutation (h : Serving m b .m1 es u) (code : decodeRequest b.x.op = .ok i) (prompt : Prompt b)
    (hw : u.chip.wip = false)
    (micro : ∀ v : State, v.x = b.x → v.seq = b.seq → microCall i v = mutateCall l a q next v)
    (hk : ∀ c : Chip, c.wip = false → Call.Served ⟨l, a, q, go .w1⟩ c) (hl : l.mutating = true) (hcr2 : l ≠ .writeCr2) :
    ∃ e1 e3 rx v, (∀ k, run (k + 4) u = run k v) ∧
      v.chip = (({ u.chip.setWel with rsten := false }.mutated (effectOf l (Lop.uses l a) q)).complete).asked ∧
      Serving m b next (es ++ [e1, .call (callKind l.dir) (build b.optab m l a) (eventData q true rx) true b.env.reqs, e3]) v := by
  obtain ⟨e1, u1, h1, c1, s1⟩ := h.enables code hw (micro u h.x h.seq)
  have w1 : u1.chip.wip = false := by rw [c1]; exact (setWel_wip _).trans hw
  have l1 : u1.chip.wel = true := by rw [c1]; exact setWel_wel _
  obtain ⟨u2, h2, c2, s2⟩ := s1.mutates code w1 l1 (micro u1 s1.x s1.seq) (hk _ w1) hl hcr2
  obtain ⟨u3, h3, c3, s3⟩ := s2.completes prompt (by rw [c2]; exact raiseWip_wip _)
  obtain ⟨e3, u4, h4, c4, s4⟩ := s3.polls code (by rw [c3]; exact complete_wip _) (micro u3 s3.x s3.seq)
  refine ⟨e1, e3, _, u4, fun k => ?_, by rw [c4, c3, c2, c1], by simpa using s4⟩
  rw [run_succ h1, run_succ h2, run_succ h3, run_succ h4]

end serving

/-! ### `read_memory`, whole (R210, R212) -/

/-- B2 is the step after B1: `BUF` is the bytes received, and the operation completes (R210). -/
theorem step_storeBuffer {u : State} (hp : u.ctrl.phase = .b2) (wire : u.env.wire = none) (hw : u.chip.wip = false)
    (code : decodeRequest u.x.op = .ok .readMemory) :
    step u = .next { u with x := { u.x with buf := u.env.rx, st := 0x00 }, ctrl.phase := .idle } :=
  (step_micro wire (by simp [hp]) hw code).trans ((readMemorySteps u.ctrl.emode u).2 hp)

/-- Settles O55: the dispatch, and the two labels of `ReadMemorySteps`. -/
theorem readMemoryRun : Obligations.ReadMemoryRun := by
  intro m s r hn hr
  have code : decodeRequest s.x.op = .ok .readMemory := by rw [r.op]; rfl
  have admitted : barOf .readMemory s = none := by
    have nonzero : s.x.n ≠ 0 := by
      rintro h
      simp [h] at hn
    rw [barOf, readBar, if_neg nonzero, rangeBar_eq_none]
    exact hr
  have dispatched := r.dispatched (i := .readMemory) rfl (by decide) (by decide) admitted
  have serving : Serving m (go .b1 (accepted s)) .b1 [] (go .b1 (accepted s)) := r.serving .b1
  obtain ⟨rx, hlen, hbytes, hread⟩ := (readMemorySteps m (go .b1 (accepted s))).1 rfl ⟨serving.toConnected, r.idle⟩ hn hr
  have read := (serving.step code (by simp) r.idle).trans hread
  refine ⟨_, (run_succ dispatched 2).trans ((run_succ read 1).trans (run_succ (step_storeBuffer ?phase ?wire ?idle ?code) 0)),
    rfl, rfl, hlen, hbytes, ⟨_, rfl⟩, rfl⟩
  case phase => rfl
  case wire => exact r.bus
  case idle => exact r.idle
  case code => exact code

/-! ### An erase, whole (R230 to R232, R234) -/

/-- The erase operation `i` of the request whose operands are `x`: its command `l`, the address `a` it sends, and the bytes
from `lo` up to `hi` that become 0xFF. -/
structure Erases (x : HostIf) (i : Instr) (l : Lop) (a : Option Addr) (lo hi : Nat) : Prop where
  first : firstStep i = .m1
  micro : ∀ v : State, v.x = x → microCall i v = mutateCall l a .none .fin v
  closes : ∀ v : State, v.ctrl.phase = .fin → exec i v = .next (finish v)
  kind : l ∈ [.sectorErase, .blockErase64k, .chipErase]
  addr : l.operandAddress = true → a ≠ none
  range : reaches l (Lop.uses l a) .none
  effect : ∀ c : Chip, effectOf l (Lop.uses l a) .none c = c.erase lo hi

/-- `erase_sector` (R230, R278). -/
theorem erases_sector {x : HostIf} (h : x.a.toNat < Config.capacity) : Erases x .eraseSector .sectorErase (some x.a)
    (eraseBase Config.sectorSize x.a.toNat) (eraseBase Config.sectorSize x.a.toNat + Config.sectorSize) where
  first := rfl
  micro := by rintro v rfl; rfl
  closes v hv := by simp only [exec, execEraseSector, hv]
  kind := by simp
  addr := by simp
  range := h
  effect _ := rfl

/-- `erase_block_64k` (R231, R279). -/
theorem erases_block {x : HostIf} (h : x.a.toNat < Config.capacity) : Erases x .eraseBlock64k .blockErase64k (some x.a)
    (eraseBase Config.blockSize x.a.toNat) (eraseBase Config.blockSize x.a.toNat + Config.blockSize) where
  first := rfl
  micro := by rintro v rfl; rfl
  closes v hv := by simp only [exec, execEraseBlock64k, hv]
  kind := by simp
  addr := by simp
  range := h
  effect _ := rfl

/-- `erase_chip` (R232, R280). -/
theorem erases_chip (x : HostIf) : Erases x .eraseChip .chipErase none 0 Config.capacity where
  first := rfl
  micro _ _ := rfl
  closes v hv := by simp only [exec, execEraseChip, hv]
  kind := by simp
  addr := by simp [Lop.operandAddress]
  range := trivial
  effect _ := rfl

section erases
variable {x : HostIf} {i : Instr} {l : Lop} {a : Option Addr} {lo hi : Nat}

/-- Its command is mutating, no CR2 write, sends no data, and an idle chip serves it. -/
theorem Erases.command (h : Erases x i l a lo hi) :
    l.mutating = true ∧ l ≠ .writeCr2 ∧ l.dir = .commandOnly ∧ Payload.fits l .none := by
  have kind := h.kind
  simp only [List.mem_cons, List.not_mem_nil, or_false] at kind
  obtain rfl | rfl | rfl := kind <;> simp [Lop.mutating, Lop.dir, Payload.fits]

theorem Erases.served (h : Erases x i l a lo hi) {c : Chip} (hw : c.wip = false) :
    Call.Served ⟨l, a, .none, go .w1⟩ c := by
  obtain ⟨-, -, -, fits⟩ := h.command
  exact ⟨h.addr, fits, by simp [hw], h.range⟩

/-- The erased range reads 0xFF after the mutation sequence, whatever it held; no other byte changes (R234). -/
theorem Erases.byte (h : Erases x i l a lo hi) (c : Chip) (y : Nat) :
    ((c.mutated (effectOf l (Lop.uses l a) .none)).complete).asked.byte y =
      if lo ≤ y ∧ y < hi then 0xFF else c.byte y := by
  show (effectOf l (Lop.uses l a) .none c.asked).byte y = _
  rw [h.effect, Chip.byte_erase]
  rfl

/-- One erase request, at a prompt chip: dispatch, the four steps of the mutation sequence, completion. -/
theorem Erases.run {m : EMode} {s : State} {op : Byte} (h : Erases s.x i l a lo hi) (r : Requested m op s)
    (prompt : Prompt s) (code : decodeRequest op = .ok i) (hop : op ∈ [0x0C#8, 0x0D#8, 0x0E#8]) (admitted : barOf i s = none) :
    ∃ t, Machine.run 6 s = .next t ∧ t.ctrl.phase = .idle ∧ t.x.st = 0x00 ∧ t.ctrl.cstate = .ready ∧
      (∃ e1 e3, t.trace = s.trace ++ [e1, .call .execute (build s.optab m l a) none true (s.env.reqs + 1), e3]) ∧
      ∀ y, t.chip.byte y = if lo ≤ y ∧ y < hi then 0xFF else s.chip.byte y := by
  obtain ⟨mutating, notCr2, noData, -⟩ := h.command
  have unguarded : op.toNat < 0x11 ∧ op ∉ [0x00#8, 0x01#8, 0x02#8, 0x10#8] := by
    simp only [List.mem_cons, List.not_mem_nil, or_false] at hop
    obtain rfl | rfl | rfl := hop <;> decide
  have request : decodeRequest s.x.op = .ok i := by rw [r.op]; exact code
  have started := r.dispatched code unguarded.1 unguarded.2 admitted
  rw [h.first] at started
  obtain ⟨e1, e3, rx, u, hrun, hchip, served⟩ := (r.serving .m1).mutation request prompt r.idle (fun v hv _ => h.micro v hv)
    (fun c hw => h.served hw) mutating notCr2
  have hw : u.chip.wip = false := by rw [hchip]; exact complete_wip _
  have closed : Machine.step u = .next (finish u) := (served.step request (by simp) hw).trans (h.closes u served.phase)
  refine ⟨finish u, ?steps, rfl, rfl, served.cstate.trans r.state, ⟨e1, e3, ?trace⟩, fun y => ?byte⟩
  case steps => rw [run_succ started, hrun 1, run_succ closed]; rfl
  case trace => rw [finish_trace, served.trace, noData]; rfl
  case byte =>
    rw [finish_chip, hchip]
    exact h.byte _ y

end erases

/-- Settles O54: each request is its erase operation; the range of an addressed one is admitted. -/
theorem eraseRun : Obligations.EraseRun := by
  intro m s op l a lo hi r prompt hop
  obtain ⟨rfl, rfl, rfl, ha, rfl, rfl⟩ | ⟨rfl, rfl, rfl, ha, rfl, rfl⟩ | ⟨rfl, rfl, rfl, rfl, rfl⟩ := hop
  · exact (erases_sector ha).run r prompt rfl (by simp) (eraseBar_eq_none.mpr ha)
  · exact (erases_block ha).run r prompt rfl (by simp) (eraseBar_eq_none.mpr ha)
  · exact (erases_chip s.x).run r prompt rfl (by simp) rfl

end Sys2Proof.Machine
end

section
/-! PROOFS. The two encodings (R91 to R134, R256, R258): decoder and encoder are inverse to each other, the tables and what is
built from them are well formed; and the dispatch of a reserved request code (R132). -/

namespace Sys2Proof.Machine

/-! ### Request codes (R130, R132) -/

/-- The codes decode to the operations they are the codes of, and to no other. -/
theorem decodeRequest_eq_ok {op : Byte} {i : Instr} : decodeRequest op = .ok i ↔ i.requestCode = some op := by
  refine ⟨decodeRequest_code, fun h => ?_⟩
  cases i <;> cases h <;> rfl

/-- A code past the last operation's is reserved. -/
theorem decodeRequest_reserved {op : Byte} (h : 0x11 ≤ op.toNat) : decodeRequest op = .error .reservedRequest := by
  unfold decodeRequest
  split
  case h_18 => rfl
  all_goals omega

/-- Every operation has a code or wire parts. -/
theorem requestCode_of_not_wire {i : Instr} (h : i.wireParts = none) : ∃ op, i.requestCode = some op := by
  cases i <;> first | exact ⟨_, rfl⟩ | cases h

theorem wireParts_of_code {i : Instr} {op : Byte} (h : i.requestCode = some op) : i.wireParts = none := by
  cases i <;> first | rfl | cases h

/-- A host operation carries no operands in its code, so it is well formed (R131). -/
theorem wf_of_code {i : Instr} {op : Byte} (h : i.requestCode = some op) : i.wf = true := by
  cases i <;> first | rfl | cases h

/-! ### The encoder -/

theorem encode_of_code {i : Instr} {op : Byte} (h : i.requestCode = some op) (t : Config.OpTab) :
    encode t i = .request op := by
  simp [encode, wireParts_of_code h, h]

theorem encode_of_parts {i : Instr} {m : EMode} {l : Lop} {a : Option Addr} {p : Payload}
    (h : i.wireParts = some (m, l, a, p)) (t : Config.OpTab) : encode t i = .txn ⟨build t m l a, p⟩ := by
  simp [encode, h]

/-! ### The address an operation uses (R96) -/

/-- The builder looks at the address operand only where the row takes one. -/
theorem build_uses (t : Config.OpTab) (m : EMode) (l : Lop) (a : Option Addr) :
    build t m l (Lop.uses l a) = build t m l a := by
  unfold build Lop.uses
  cases l.operandAddress <;> simp

/-- So does the decoder's last step. -/
theorem wireInstr_uses (m : EMode) (l : Lop) (a : Option Addr) (p : Payload) :
    wireInstr m l (Lop.uses l a) p = wireInstr m l a p := by
  cases m <;> cases l <;> rfl

/-- In a well-formed table the row that takes an address sends the one it is given (R115). -/
theorem uses_address_build {t : Config.OpTab} (ht : OpTab.wf t = true) (m : EMode) (l : Lop) (a : Option Addr) :
    Lop.uses l (build t m l a).address = Lop.uses l a := by
  unfold Lop.uses
  split
  · rename_i hl; rw [build_address_operand ht hl]
  · rfl

/-! ### Decoding and encoding -/

/-- The transaction built for a well-formed wire command decodes to it. -/
theorem decodeTxn_of_parts {t : Config.OpTab} (ht : OpTab.wf t = true) {i : Instr} (hw : i.wf = true) {m : EMode} {l : Lop}
    {a : Option Addr} {p : Payload} (h : i.wireParts = some (m, l, a, p)) : decodeTxn t ⟨build t m l a, p⟩ = .ok i := by
  refine decodeTxn_build ht m l a p i ?_ hw
  calc wireInstr m l (build t m l a).address p
      = wireInstr m l (Lop.uses l (build t m l a).address) p := (wireInstr_uses ..).symm
    _ = wireInstr m l a p := by rw [uses_address_build ht, wireInstr_uses]
    _ = some i := (wireInstr_of_parts h).1

/-- Settles O1: an operation has a request code, which decodes to it, or the wire parts its transaction is built from. -/
theorem decodeEncodeAgree : Obligations.DecodeEncodeAgree := by
  intro t i ht hw
  cases parts : i.wireParts with
  | some q =>
    obtain ⟨m, l, a, p⟩ := q
    rw [encode_of_parts parts]
    exact decodeTxn_of_parts ht hw parts
  | none =>
    obtain ⟨op, code⟩ := requestCode_of_not_wire parts
    rw [encode_of_code code]
    exact decodeRequest_eq_ok.mpr code

/-- What the chip reads is what the encoder writes, for any table (R258). -/
theorem encode_of_decodeTxn {t : Config.OpTab} {x : Txn} {i : Instr} (h : decodeTxn t x = .ok i) :
    encode t i = .txn x ∧ i.wf = true := by
  obtain ⟨m, l, hinstr, hdesc, hwf⟩ := decodeTxn_ok h
  refine ⟨?_, hwf⟩
  calc encode t i
      = .txn ⟨build t m l (Lop.uses l x.desc.address), x.payload⟩ := encode_of_parts (wireInstr_parts hinstr) t
    _ = .txn x := by rw [build_uses, ← hdesc]

/-- Settles O2: by the decoder's inversion for each of the two encodings. -/
theorem encodeDecodeAgree : Obligations.EncodeDecodeAgree := by
  intro t c i h
  cases c with
  | request op =>
    have code := decodeRequest_eq_ok.mp h
    exact ⟨encode_of_code code t, wf_of_code code⟩
  | txn x => exact encode_of_decodeTxn h

/-! ### The descriptor builder (R91, R92) -/

/-- Where there is an address phase or a data phase, it has the lines of the mode. -/
theorem build_lines (t : Config.OpTab) (m : EMode) (l : Lop) (a : Option Addr) :
    (build t m l a).ilines = m.lines ∧ (build t m l a).isize = m.isize ∧
      ((build t m l a).address ≠ none → (build t m l a).alines = some m.lines) ∧
      ((build t m l a).dir ≠ .commandOnly → (build t m l a).dlines = some m.lines) := by
  refine ⟨rfl, rfl, fun haddr => if_pos ?_, fun hdir => if_neg hdir⟩
  by_contra hsize
  exact haddr (if_neg hsize)

/-- Settles O3: `build_lines` in each mode. -/
theorem linesFollowMode : Obligations.LinesFollowMode :=
  fun t l a => ⟨build_lines t .Spi l a, build_lines t .Opi l a⟩

/-- A built descriptor is well formed when its cell has no 24-bit address, and dummy cycles only for a read, and its operation
is given the address it takes. -/
theorem build_wf {t : Config.OpTab} {m : EMode} {l : Lop} {a : Option Addr} (hsize : (t.entry m l).asize ≠ some .bits24)
    (hdummy : (t.entry m l).dummy = 0 ∨ l.dir = .read) (ha : l.operandAddress = true → a ≠ none) :
    Descriptor.wf (build t m l a) = true := by
  have haddr : (build t m l a).asize.isNone = (build t m l a).address.isNone := by
    unfold build
    cases hs : (t.entry m l).asize with
    | none => simp
    | some w =>
      cases hl : l.operandAddress with
      | false => simp
      | true => simp [Option.isNone_eq_false_iff, Option.isSome_iff_ne_none, ha hl]
  have hlines : (build t m l a).asize.isNone = (build t m l a).alines.isNone := by
    unfold build
    cases (t.entry m l).asize <;> rfl
  have hdata : (build t m l a).dlines.isNone = ((build t m l a).dir == .commandOnly) := by
    unfold build
    cases l.dir <;> rfl
  simp only [Descriptor.wf, ← haddr, ← hlines, hdata]
  simpa [build] using ⟨hdummy, hsize⟩

/-- A template is a built descriptor with its address left out (R129). -/
theorem template_wf {t : Config.OpTab} {m : EMode} {l : Lop} (hl : l.operandAddress = true)
    (hsize : (t.entry m l).asize = some .bits32) (hdummy : (t.entry m l).dummy = 0 ∨ l.dir = .read) :
    Descriptor.templateWf (template t m l) = true := by
  have hfull : { template t m l with address := some 0 } = build t m l (some 0) := by
    simp [template, build, hsize, hl]
  have hwf : Descriptor.wf (build t m l (some 0)) = true := build_wf (by simp [hsize]) hdummy (by simp)
  rw [Descriptor.templateWf, hfull, hwf]
  rfl

/-! ### The tables of R101 to R114 -/

section tables
variable {so oo : Lop → Opcode} {d : Nat} {a0 a1 a2 a3 : Addr}

@[simp] theorem tableOf_spi (l : Lop) : (tableOf so oo d a0 a1 a2 a3).entry .Spi l = spiEntry (so l) l := by
  cases l <;> rfl

@[simp] theorem tableOf_opi (l : Lop) : (tableOf so oo d a0 a1 a2 a3).entry .Opi l = opiEntry (oo l) d l := by
  cases l <;> rfl

/-- R12, R92: no cell has a 24-bit address, and dummy cycles stand at reads alone. -/
theorem tableOf_cell (m : EMode) (l : Lop) :
    ((tableOf so oo d a0 a1 a2 a3).entry m l).asize ≠ some .bits24 ∧
      (((tableOf so oo d a0 a1 a2 a3).entry m l).dummy = 0 ∨ l.dir = .read) := by
  cases m
  · rw [tableOf_spi]; cases l <;> simp [spiEntry, Lop.operandAddress, Lop.dir, Config.dummyRegSpi]
  · rw [tableOf_opi]; cases l <;> simp [opiEntry, Lop.dir]

/-- The operations that supply an address have a place for it in both modes. -/
theorem tableOf_operand (m : EMode) {l : Lop} (hl : l.operandAddress = true) :
    ((tableOf so oo d a0 a1 a2 a3).entry m l).asize = some .bits32 := by
  cases m
  · rw [tableOf_spi]; exact if_pos hl
  · rw [tableOf_opi]; cases l <;> first | rfl | cases hl

theorem tableOf_distinct : OpTab.distinct (tableOf so oo d a0 a1 a2 a3) = true ↔
    (∀ l k, so l = so k → l = k) ∧ (∀ l k, oo l = oo k → l = k) := by
  have pairs : ∀ f : Lop → Opcode, (∀ l ∈ Lop.all, ∀ k ∈ Lop.all, l = k ∨ f l ≠ f k) ↔ ∀ l k, f l = f k → l = k :=
    fun f => ⟨fun h l k hf => (h l (Lop.mem_all l) k (Lop.mem_all k)).resolve_right (not_not_intro hf),
      fun h l _ k _ => or_iff_not_imp_right.mpr fun hf => h l k (not_not.mp hf)⟩
  simp only [OpTab.distinct, List.all_cons, List.all_nil, Bool.and_true, Bool.and_eq_true, List.all_eq_true, Bool.or_eq_true,
    beq_iff_eq, bne_iff_ne, tableOf_spi, tableOf_opi]
  exact and_congr (pairs so) (pairs oo)

theorem tableOf_spiFits : OpTab.spiFits (tableOf so oo d a0 a1 a2 a3) = true ↔ ∀ l, (so l).toNat < 256 := by
  simp only [OpTab.spiFits, List.all_eq_true, decide_eq_true_eq, tableOf_spi]
  exact ⟨fun h l => h l (Lop.mem_all l), fun h l _ => h l⟩

theorem tableOf_addressed : OpTab.addressed (tableOf so oo d a0 a1 a2 a3) = true := by
  simp only [OpTab.addressed, List.all_eq_true, beq_iff_eq]
  intro m _ l hl
  refine tableOf_operand m ?_
  revert hl
  cases l <;> simp [Lop.operandAddress]

/-- Of the counts R115 fixes only `DUMMY_REG_OPI` is open. -/
theorem tableOf_dummies : OpTab.dummies (tableOf so oo d a0 a1 a2 a3) = true ↔ 1 ≤ d := by
  simp [OpTab.dummies, spiEntry, opiEntry]

/-- The constraints on the open parameters (R115). -/
theorem tableOf_wf : OpTab.wf (tableOf so oo d a0 a1 a2 a3) = true ↔
    (∀ l, (so l).toNat < 256) ∧ (∀ l k, so l = so k → l = k) ∧ (∀ l k, oo l = oo k → l = k) ∧ 1 ≤ d := by
  simp only [OpTab.wf, Bool.and_eq_true, tableOf_distinct, tableOf_spiFits, tableOf_addressed, tableOf_dummies]
  tauto

end tables

/-- Settles O4: clause by clause of R115 and R92. -/
theorem tablesAndBuiltDescriptorsWellFormed : Obligations.TablesAndBuiltDescriptorsWellFormed := by
  refine ⟨by decide, fun so oo d a0 a1 a2 a3 => ⟨tableOf_wf, fun m => ⟨fun l a ha => ?built, ?read, ?write⟩⟩⟩
  case built => exact build_wf (tableOf_cell m l).1 (tableOf_cell m l).2 ha
  case read => exact template_wf rfl (tableOf_operand m rfl) (tableOf_cell m .readMem).2
  case write => exact template_wf rfl (tableOf_operand m rfl) (tableOf_cell m .pageProgram).2

/-- Settles O5: the decoder evaluated on six written-out words. -/
theorem writtenWordsDecode : Obligations.WrittenWordsDecode := by
  refine ⟨?_, ?_, ?_, ?_, ?_, ?_⟩ <;> decide

/-! ### A reserved request code (R132, R301, R302) -/

/-- The dispatcher's first two checks. -/
theorem verdict_reserved {op : Byte} (h : 0x11 ≤ op.toNat) (c : Ctrl) :
    verdict op c = if c.cstate = .faulted then .report else .abort .illegalRequest := by
  simp [verdict, h]

theorem dispatchReserved_eq {s : State} (h : 0x11 ≤ s.x.op.toNat) :
    dispatchReserved s = .next (if s.ctrl.cstate = .faulted then { accepted s with x.st := s.ctrl.cause }
      else abort .illegalRequest (accepted s)) := by
  rw [dispatchReserved, verdict_reserved h]
  by_cases hf : s.ctrl.cstate = .faulted <;> simp [hf]

theorem turn_reserved {s : State} (hdone : (s.chip.wip && s.env.done.head) = false) (wire : s.env.wire = none)
    (idle : s.ctrl.phase = .idle) (req : s.env.req = true) (h : 0x11 ≤ s.x.op.toNat) : turn s = .reserved := by
  simp [turn, hdone, wire, idle, req, ctrlTurn, decodeRequest_reserved h]

/-- Settles O11: the step is the dispatcher's report or abort, and neither touches the transport or the chip. -/
theorem reservedRequestAborts : Obligations.ReservedRequestAborts := by
  intro s wire idle req hop hdone
  have hstep : step s = dispatchReserved (asked s) := by rw [step, turn_reserved hdone wire idle req hop]
  rw [dispatchReserved_eq (by simpa using hop), asked_ctrl] at hstep
  refine ⟨decodeRequest_reserved hop, _, hstep, ?_⟩
  by_cases hf : s.ctrl.cstate = .faulted
  · simp [hf, idle]
  · simp [hf, Cause.code]

end Sys2Proof.Machine
end

section
/-! PROOFS. Micro-steps of the mode switches (R97, R181, R184) and of the memory-mapped toggle (R240, R244), and the closing
micro-step of an operation without results (R130). -/

namespace Sys2Proof.Machine

/-! ### Micro-steps that make no call -/

theorem exec_local {i : Instr} {op : Byte} {s t : State} (hi : i.requestCode = some op) (busy : s.ctrl.phase ≠ .idle)
    (call : microCall i s = none) (micro : microLocal i s = some t) : exec i s = .next t := by
  rw [exec_micro hi busy, call, micro]
  rfl

/-- The closing label makes no call and completes the operation. -/
theorem micro_closing {i : Instr} {p : Phase} {s : State} (h : closing i = some p) (hp : s.ctrl.phase = p) :
    p ≠ .idle ∧ (∃ op, i.requestCode = some op) ∧ microCall i s = none ∧ microLocal i s = some (finish s) := by
  cases i <;> cases h
  -- the nine operations that have a closing label
  all_goals simp [Instr.requestCode, microCall, mutateCall, microLocal, hp]

/-- Settles O49: the closing micro-step is `finish`. -/
theorem closingStepReportsOk : Obligations.ClosingStepReportsOk := by
  intro s i p hclosing hp
  obtain ⟨hidle, ⟨op, hi⟩, call, micro⟩ := micro_closing hclosing hp
  exact exec_local hi (hp ▸ hidle) call micro

/-! ### The memory-mapped toggle (R240, R244) -/

/-- Settles O50: each label is one arm of `microLocal`; the dummy cycles of the read template are its table's. -/
theorem memoryMappedToggleSteps : Obligations.MemoryMappedToggleSteps := by
  refine fun s => ⟨fun hp => ?e1, fun hp => ⟨readTemplate s.optab s.ctrl.emode, writeTemplate s.optab s.ctrl.emode, ?e2,
    rfl, rfl, fun table => dummy_readMem table _⟩, fun hp => ?e3, fun hp => ?f1, fun hp => ?f2⟩
  all_goals exact exec_local rfl (by simp [hp]) rfl (by simp only [microLocal, hp]; rfl)

/-! ### The mode switches (R181, R184) -/

section switch
variable {m : EMode} {s : State} {i : Instr} {op : Byte} {q : Phase}

/-- O1 and X1: the byte read is CR2 at address 0. -/
theorem exec_readMode (ready : Ready m s) (hi : i.requestCode = some op) (busy : s.ctrl.phase ≠ .idle)
    (micro : microCall i s = some ⟨.readCr2, some 0, .read 1, keepMode q⟩) :
    exec i s = .next { called s (okEvent s .readCr2 (some 0) (some [s.chip.cr20])) { s.chip with rsten := false }
      [s.chip.cr20] with ctrl.tmp := s.chip.cr20, ctrl.phase := q } := by
  rw [exec_call hi busy micro ready.toConnected ⟨by simp, rfl, by simp [ready.idle], trivial⟩ (by simp),
    Call.done_plain (by simp)]
  rfl

/-- O3 and X3: a write of CR2 at address 0 that keeps bits 7:2 of `CTRL.tmp` (R97). -/
theorem exec_writeMode {v : Byte} (ready : Ready m s) (hwel : s.chip.wel = true) (hi : i.requestCode = some op)
    (busy : s.ctrl.phase ≠ .idle) (micro : microCall i s = some ⟨.writeCr2, some 0, .write [v], go q⟩)
    (high : v &&& 0xFC = s.ctrl.tmp &&& 0xFC) : ∃ u : Bool,
      (u = true ↔ s.env.undoc = true ∨ s.ctrl.tmp &&& 0xFC ≠ s.chip.cr20 &&& 0xFC) ∧
      exec i s = .next (go q { called s (okEvent s .writeCr2 (some 0) (some [v]))
        { s.chip with cr20 := v, sr := s.chip.sr ||| 0x01, rsten := false, pending := .nothing }
        s.env.rx with env.undoc := u }) := by
  refine ⟨s.env.undoc || marks .writeCr2 (some 0) (.write [v]) s.chip, ?mark, ?next⟩
  case mark => rw [Bool.or_eq_true, marks_writeCr2 hwel, if_pos rfl, high]
  case next =>
    have chip := response_writeCr2 hwel 0 v s.env.draws
    rw [exec_call hi busy micro ready.toConnected ⟨by simp, ⟨v, rfl⟩, by simp [ready.idle], trivial⟩ (by simp), Call.done]
    simp only [Lop.uses, Lop.operandAddress, if_true, chip]
    rfl

end switch

/-- Settles O39: both switches read, write back and change the tag by the same three lemmas. -/
theorem modeSwitchSteps : Obligations.ModeSwitchSteps := by
  refine fun m s => ⟨fun ready => ⟨fun hp => ?o1, fun hp => ?x1, fun hwel hp => ?o3, fun hwel hp => ?x3⟩, fun hp => ?o4,
    fun hp => ?x4⟩
  case o1 => exact exec_readMode ready rfl (by simp [hp]) (by simp [microCall, hp])
  case x1 => exact exec_readMode ready rfl (by simp [hp]) (by simp [microCall, hp])
  case o3 => exact exec_writeMode ready hwel rfl (by simp [hp]) (by simp only [microCall, hp]; rfl) (opiValue_high _)
  case x3 => exact exec_writeMode ready hwel rfl (by simp [hp]) (by simp only [microCall, hp]; rfl) (spiValue_high _)
  case o4 => exact exec_local rfl (by simp [hp]) (by simp [microCall, hp]) (by simp only [microLocal, hp]; rfl)
  case x4 => exact exec_local rfl (by simp [hp]) (by simp [microCall, hp]) (by simp only [microLocal, hp]; rfl)

end Sys2Proof.Machine
end

section
/-! PROOFS. The micro-steps every mutation shares: the busy-wait (R156) and the write-enable (R152); and the end of the busy-wait
under a fair schedule (R291). -/

namespace Sys2Proof.Machine

/-! ### The poll (R154, R156) -/

/-- At W1 every operation with a busy-wait makes the same call. -/
theorem microCall_poll {i : Instr} {next : Phase} {s : State} (h : afterWait i = some next) (hp : s.ctrl.phase = .w1) :
    (∃ op, i.requestCode = some op) ∧ microCall i s = some (pollCall next) := by
  cases i <;> cases h
  -- the ten operations that wait
  all_goals exact ⟨⟨_, rfl⟩, by simp only [microCall, mutateCall, hp]⟩

/-- Settles O36: the poll is the call of READ_SR, and `afterPoll` reads nothing but bit 0 of its answer. -/
theorem busyWaitRound : Obligations.BusyWaitRound := by
  intro m s i next hwait hp connected
  obtain ⟨⟨op, hi⟩, micro⟩ := microCall_poll hwait hp
  rw [exec_call hi (by simp [hp]) micro connected ⟨by simp [pollCall, Lop.operandAddress], rfl, fun _ => rfl, trivial⟩
    (by simp [pollCall]), Call.done_plain (by simp [pollCall])]
  rfl

/-! ### The write-enable (R152) -/

/-- M1, O2 and X2 make the same call. -/
theorem exec_writeEnable {m : EMode} {i : Instr} {op : Byte} {next : Phase} {s : State} (ready : Ready m s)
    (hi : i.requestCode = some op) (busy : s.ctrl.phase ≠ .idle)
    (micro : microCall i s = some ⟨.writeEnable, none, .none, go next⟩) :
    exec i s = .next (go next (called s (okEvent s .writeEnable none none)
      { s.chip with sr := s.chip.sr ||| 0x02, rsten := false } s.env.rx)) := by
  rw [exec_call hi busy micro ready.toConnected ⟨by simp [Lop.operandAddress], rfl, by simp [ready.idle], trivial⟩ (by simp),
    Call.done_plain (by simp)]
  rfl

/-- Settles O37: each of the nine operations makes the call of WRITE_ENABLE at its label. -/
theorem writeEnableStep : Obligations.WriteEnableStep := by
  rintro m s i next ready (⟨hi, hp, rfl⟩ | ⟨rfl, hp, rfl⟩ | ⟨rfl, hp, rfl⟩)
  · have mutation : (∃ op, i.requestCode = some op) ∧
        microCall i s = some ⟨.writeEnable, none, .none, go .m2⟩ := by
      simp only [List.mem_cons, List.not_mem_nil, or_false] at hi
      obtain rfl | rfl | rfl | rfl | rfl | rfl | rfl := hi
      all_goals exact ⟨⟨_, rfl⟩, by simp only [microCall, mutateCall, hp]⟩
    obtain ⟨⟨op, hcode⟩, micro⟩ := mutation
    exact exec_writeEnable ready hcode (by simp [hp]) micro
  · exact exec_writeEnable (i := .toOpi) ready rfl (by simp [hp]) (by simp only [microCall, hp])
  · exact exec_writeEnable (i := .toSpi) ready rfl (by simp [hp]) (by simp only [microCall, hp])

/-! ### The end of the busy-wait (R156, R291) -/

/-- From the state `b` the busy-wait of operation `i` goes on: no call will fail, and nothing that concerns the caller has
changed. -/
structure Waiting (m : EMode) (i : Instr) (b u : State) : Prop extends Connected m u where
  phase : u.ctrl.phase = .w1
  code : decodeRequest u.x.op = .ok i
  calls : AllCallsOk u
  array : u.chip.array = b.chip.array
  cstate : u.ctrl.cstate = b.ctrl.cstate
  x : u.x = b.x

/-- A run from `u` ends the busy-wait that stood at `b`: at label `next`, with WIP and WEL clear and the rest as it was. -/
def WaitEnds (next : Phase) (b u : State) : Prop :=
  ∃ k t, run k u = .next t ∧ t.ctrl.phase = next ∧ t.chip.wip = false ∧ t.chip.wel = false ∧
    t.chip.array = b.chip.array ∧ t.ctrl.cstate = b.ctrl.cstate ∧ t.x = b.x

section waiting
variable {m : EMode} {i : Instr} {next : Phase} {b u : State}

/-- The schedule's answer is no part of it. -/
theorem Waiting.asked (h : Waiting m i b u) : Waiting m i b (asked u) := by
  rw [asked_eq]
  exact { h with }

/-- The completion agent moves when the schedule says so, and clears WIP and WEL (R290). -/
theorem Waiting.completes (h : Waiting m i b u) (hw : u.chip.wip = true) (hdone : u.env.done.head = true) :
    ∃ v, step u = .next v ∧ Waiting m i b v ∧ v.chip.wip = false ∧ v.chip.wel = false := by
  have hstep : step u = .next (chipDone (Machine.asked u)) := by simp [step, turn, hw, hdone]
  exact ⟨_, hstep, { h.asked with }, complete_wip _, complete_wel _⟩

/-- Else the controller polls (R26, R156). -/
theorem Waiting.step_exec (h : Waiting m i b u) (hdone : (u.chip.wip && u.env.done.head) = false) :
    step u = exec i (Machine.asked u) :=
  step_instr (turn_request hdone h.bus (.inl (by simp [h.phase])) h.code)

/-- A poll that sees WIP set stays at W1, and uses up one answer of the schedule. -/
theorem Waiting.stays (h : Waiting m i b u) (hwait : afterWait i = some next) (hw : u.chip.wip = true)
    (hdone : u.env.done.head = false) :
    ∃ v, step u = .next v ∧ Waiting m i b v ∧ v.chip.wip = true ∧ v.env.done = u.env.done.tail := by
  have ha := h.asked
  have hstep := (h.step_exec (by simp [hdone])).trans (busyWaitRound m (Machine.asked u) i next hwait ha.phase ha.toConnected)
  rw [asked_eq, if_pos hw] at hstep ha
  exact ⟨_, hstep, { ha with phase := if_pos hw, calls := h.calls.of_tail rfl, ok := (h.calls.of_tail (by rfl)).head }, hw, rfl⟩

/-- A poll that sees WIP clear ends the wait. -/
theorem Waiting.ends (h : Waiting m i b u) (hwait : afterWait i = some next) (hw : u.chip.wip = false) :
    ∃ v, step u = .next v ∧ v.ctrl.phase = next ∧ v.chip = u.chip.asked ∧ v.ctrl.cstate = u.ctrl.cstate ∧ v.x = u.x := by
  have hstep := h.step_exec (by simp [hw])
  rw [asked_of_idle u hw, busyWaitRound m u i next hwait h.phase h.toConnected] at hstep
  exact ⟨_, hstep, if_neg (Bool.eq_false_iff.mp hw), rfl, rfl, rfl⟩

/-- A completion that is granted ends the wait: the next poll sees it. -/
theorem Waiting.granted (h : Waiting m i b u) (hwait : afterWait i = some next) (hw : u.chip.wip = true)
    (hdone : u.env.done.head = true) : WaitEnds next b u := by
  obtain ⟨v, hcompleted, hv, idle, clear⟩ := h.completes hw hdone
  obtain ⟨t, hended, phase, chip, cstate, x⟩ := hv.ends hwait idle
  refine ⟨2, t, ?_, phase, by rw [chip]; exact idle, by rw [chip]; exact clear, by rw [chip]; exact hv.array,
    cstate.trans hv.cstate, x.trans hv.x⟩
  rw [run_succ hcompleted, run_succ hended]
  rfl

/-- And a fair schedule grants it, however many times it withholds it first (R291). -/
theorem Waiting.fair (hwait : afterWait i = some next) {pre : List Bool} (h : Waiting m i b u) (hw : u.chip.wip = true)
    (hdone : u.env.done = ⟨pre, true⟩) : WaitEnds next b u := by
  induction pre generalizing u with
  | nil => exact h.granted hwait hw (by rw [hdone]; rfl)
  | cons d ds ih =>
    cases d with
    | true => exact h.granted hwait hw (by rw [hdone]; rfl)
    | false =>
      obtain ⟨v, hstayed, hv, busy, rest⟩ := h.stays hwait hw (by rw [hdone]; rfl)
      obtain ⟨k, t, hrun, ht⟩ := ih hv busy (by rw [rest, hdone]; rfl)
      exact ⟨k + 1, t, (run_succ hstayed k).trans hrun, ht⟩

end waiting

/-- Settles O59: by induction on the answers the schedule gives before it turns to granting. -/
theorem fairChipEndsBusyWait : Obligations.FairChipEndsBusyWait := by
  intro m s i next code hwait phase connected calls fair busy
  have waiting : Waiting m i s s :=
    { connected with phase := phase, code := code, calls := calls, array := rfl, cstate := rfl, x := rfl }
  have hdone : s.env.done = ⟨s.env.done.pre, true⟩ := by rw [← (show s.env.done.rest = true from fair)]
  exact waiting.fair hwait busy hdone

end Sys2Proof.Machine
end

section
/-! PROOFS. A call that fails (R147, R148, R306): the operation aborts, whether or not the chip took the transaction. -/

namespace Sys2Proof.Machine

/-- At each calling label the operation makes the call `callAt` names. -/
theorem microCall_calling {i : Instr} {s : State} (h : s.ctrl.phase ∈ calling i) :
    s.ctrl.phase ≠ .idle ∧ (∃ op, i.requestCode = some op) ∧
      ∃ k, microCall i s = some k ∧ callAt i s = some (k.lop, k.addr, k.payload) := by
  cases i <;> simp only [calling, List.mem_cons, List.not_mem_nil, or_false] at h
  -- the fifteen operations that make calls, each at every one of its calling labels
  all_goals
    repeat' obtain h | h := h
    all_goals
      refine ⟨by simp [h], ⟨_, rfl⟩, _, by simp only [microCall, mutateCall, h]; rfl, ?_⟩
      simp only [callAt, h, pollCall]

/-- Delivering a transaction changes the chip and the bookkeeping alone (R20, R255). -/
theorem deliver_frame {x : Txn} {s t : State} (h : deliver x s = .next t) :
    t.ctrl = s.ctrl ∧ t.seq = s.seq ∧ t.x = s.x ∧ t.xport = s.xport ∧ t.trace = s.trace ∧ t.env.reqs = s.env.reqs := by
  unfold deliver at h
  split at h
  · rename_i i hi
    obtain ⟨q, hq, -⟩ := decodeTxn_parts hi
    obtain ⟨-, hctrl, hseq, hx, hxport, htrace, -, -, hreqs, -⟩ := chipStep_frame hq h
    exact ⟨hctrl, hseq, hx, hxport, htrace, hreqs⟩
  · cases h

/-- The event of a failed call has no bytes received (R148, log entry 26). -/
theorem errEvent_eq (s : State) (l : Lop) (a : Option Addr) (p : Payload) (rx : List Byte) :
    errEvent s l a p =
      .call (callKind l.dir) (build s.optab s.ctrl.emode l a) (eventData p false rx) false s.env.reqs := by
  cases p <;> rfl

section draws
variable {k : Call} {s : State} {rest : Feed CallDraw}

/-- The state whose next call meets `d`, and whose later calls meet `rest`. -/
def withDraw (d : CallDraw) (rest : Feed CallDraw) (s : State) : State :=
  { s with env.calls := { rest with pre := d :: rest.pre } }

/-- The transaction of the call. -/
def Call.txn (k : Call) (s : State) : Txn := ⟨build s.optab s.ctrl.emode k.lop k.addr, k.payload⟩

/-- A micro-step that makes a call, when the transport answers (R150). -/
theorem Call.outcome_next {t : State} : k.outcome s = .next t ↔
    ∃ c, transact (k.txn s) s = .next c ∧ t = if c.ok then k.next c.s else abort .transportError c.s := by
  unfold Call.outcome Call.txn
  cases transact ⟨build s.optab s.ctrl.emode k.lop k.addr, k.payload⟩ s <;> simp [eq_comm (a := t)]

/-- A lost transaction: nothing but the trace has changed (R147). -/
theorem outcome_errLost (direct : s.xport.passthrough = false) :
    k.outcome (withDraw .errLost rest s) = .next (abort .transportError
      { s with env.calls := rest, trace := s.trace ++ [errEvent s k.lop k.addr k.payload] }) := by
  rw [errEvent_eq (rx := s.env.rx)]
  exact Call.outcome_next.mpr ⟨_, transact_next.mpr ⟨direct, .inl ⟨rfl, rfl⟩⟩, rfl⟩

/-- A transaction delivered and reported `Err` aborts in the state the chip left (R147). -/
theorem outcome_errDelivered (direct : s.xport.passthrough = false) {v : State}
    (h : deliver (k.txn s) { s with env.calls := rest } = .next v) :
    k.outcome (withDraw .errDelivered rest s) =
      .next (abort .transportError (logCall (k.txn s).desc k.payload false v)) :=
  Call.outcome_next.mpr ⟨_, transact_next.mpr ⟨direct, .inr ⟨false, v, h, rfl, rfl⟩⟩, rfl⟩

/-- The same transaction, reported `Ok`, goes on from that state (R146). -/
theorem outcome_delivered {t : State} (h : k.outcome (withDraw .ok rest s) = .next t) :
    ∃ v, deliver (k.txn s) { s with env.calls := rest } = .next v ∧
      t = k.next (logCall (k.txn s).desc k.payload true v) := by
  obtain ⟨c, answer, rfl⟩ := Call.outcome_next.mp h
  obtain ⟨-, ⟨lost, -⟩ | ⟨ok, v, hv, reported, rfl⟩⟩ := transact_next.mp answer
  · cases lost
  · cases ok with
    | true => exact ⟨v, hv, rfl⟩
    | false => cases reported

end draws

/-- Settles O45: an operation's call aborts on either `Err`, and a delivered transaction is the one an `Ok` call delivers. -/
theorem failedCallAborts : Obligations.FailedCallAborts := by
  intro s i rest hp direct
  obtain ⟨busy, ⟨op, hi⟩, k, micro, hcall⟩ := microCall_calling hp
  have hexec : ∀ d, exec i (withDraw d rest s) = k.outcome (withDraw d rest s) := by
    intro d
    have hmicro : microCall i (withDraw d rest s) = some k := by rw [← micro]; cases i <;> rfl
    rw [exec_micro (s := withDraw d rest s) hi busy, hmicro]
    rfl
  refine ⟨k.lop, k.addr, k.payload, hcall, (hexec .errLost).trans (outcome_errLost direct), fun t ht => ?_⟩
  obtain ⟨v, hv, rfl⟩ := outcome_delivered ((hexec .ok).symm.trans ht)
  obtain ⟨hctrl, hseq, hx, hxport, htrace, hreqs⟩ := deliver_frame hv
  have carried := microCall_carried micro (logCall (k.txn s).desc k.payload true v)
  refine ⟨_, (hexec .errDelivered).trans (outcome_errDelivered direct hv), carried.chip.symm, hctrl, hseq, hx, hxport, ?_⟩
  rw [logCall_trace, htrace, hreqs, errEvent_eq (rx := v.env.rx)]
  rfl

end Sys2Proof.Machine
end

section
/-! PROOFS. Every step keeps the write-enable discipline (R159): each move records at most one event, and the event takes the
discipline from what it asks before the move to what it asks after. -/

namespace Sys2Proof.Machine

/-! ### The scan of a trace -/

/-- A trace with one more event. -/
theorem Duty.scan_append (t : Config.OpTab) (e : Event) (es : List Event) (d : Duty) :
    Duty.scan t d (es ++ [e]) = (Duty.scan t d es).bind fun d' => d'.after t e := by
  induction es generalizing d with
  | nil => simp only [List.nil_append, Duty.scan, Option.bind_some]; cases d.after t e <;> rfl
  | cons f es ih =>
    simp only [List.cons_append, Duty.scan]
    cases d.after t f with
    | none => rfl
    | some d' => exact ih d'

/-- A move that records no event keeps the discipline when it asks the same after it. -/
theorem Discipline.silent {u t : State} (h : Discipline u) (htab : t.optab = u.optab) (htrace : t.trace = u.trace)
    (hduty : dutyNow t = dutyNow u) : Discipline t := by
  rw [Discipline, htab, htrace, hduty]
  exact h

/-- A move that records one event keeps it when the event meets what was asked and leaves what is. -/
theorem Discipline.event {u t : State} {e : Event} (h : Discipline u) (htab : t.optab = u.optab)
    (htrace : t.trace = u.trace ++ [e]) (hduty : (dutyNow u).after u.optab e = some (dutyNow t)) : Discipline t := by
  rw [Discipline, htab, htrace, Duty.scan_append, show Duty.scan u.optab .free u.trace = _ from h]
  exact hduty

/-! ### What is asked at each label -/

/-- The labels between the `Ok` of a write-enable and the end of the busy-wait after it. -/
def dutyLabels : List Phase := [.m2, .o3, .x3, .o4, .x4, .w1]

/-- M2, O3, X3: the mutating command, right after the write-enable (R152, R159). -/
theorem dutyNow_enabled {s : State} (hp : s.ctrl.phase ∈ [.m2, .o3, .x3]) : dutyNow s = .enabled s.env.reqs := if_pos hp

/-- O4, X4: the polls, which follow the change of the tag (R181, R184). -/
theorem dutyNow_switching {s : State} (hp : s.ctrl.phase ∈ [.o4, .x4]) : dutyNow s = .polling s.env.reqs := by
  have apart : s.ctrl.phase ∉ [.m2, .o3, .x3] := by revert hp; generalize s.ctrl.phase = p; revert p; decide
  rw [dutyNow, if_neg apart, if_pos (.inl hp)]

/-- W1: the polls, of an operation that has sent a mutating command (R156, R159). -/
theorem dutyNow_polling {s : State} (hp : s.ctrl.phase = .w1) (hop : s.x.op ≠ 0) : dutyNow s = .polling s.env.reqs := by
  rw [dutyNow, if_neg (by simp [hp]), if_pos (.inr ⟨hp, hop⟩)]

/-- Nothing, at every label before a write-enable, after a busy-wait, or of an operation without either. -/
theorem dutyNow_free {s : State} (hp : s.ctrl.phase ∉ dutyLabels) : dutyNow s = .free := by
  simp only [dutyLabels, List.mem_cons, List.not_mem_nil, or_false, not_or] at hp
  simp [dutyNow, hp]

/-- The busy-wait of `construct` follows no mutating command (R170). -/
theorem dutyNow_construct {s : State} (hp : s.ctrl.phase = .w1) (hop : s.x.op = 0) : dutyNow s = .free := by
  simp [dutyNow, hp, hop]

/-- Nothing, between two operations and after an abort. -/
theorem dutyNow_of_idle {s : State} (hp : s.ctrl.phase = .idle) : dutyNow s = .free := dutyNow_free (by simp [dutyLabels, hp])

/-! ### One call against the discipline -/

section after
variable {t : Config.OpTab} {m : EMode} {l : Lop} {a : Option Addr} {kind : CallKind} {data : Option (List Byte)} {ok : Bool}
  {op : Nat}

/-- A mutating command right after the write-enable of its operation. -/
theorem Duty.after_mutating (ht : OpTab.wf t = true) (hl : l.mutating = true) :
    (Duty.enabled op).after t (.call kind (build t m l a) data ok op) = some (if ok then .polling op else .free) := by
  simp [Duty.after, lop_build ht, hl]

/-- Any other command when nothing is asked. -/
theorem Duty.after_quiet (ht : OpTab.wf t = true) (hl : l.mutating = false) :
    Duty.free.after t (.call kind (build t m l a) data ok op) =
      some (if l = .writeEnable ∧ ok = true then .enabled op else .free) := by
  simp [Duty.after, lop_build ht, hl]

/-- A poll while the polls are not over. -/
theorem Duty.after_poll (ht : OpTab.wf t = true) :
    (Duty.polling op).after t (.call kind (build t m .readSr a) data ok op) =
      some (if ok && sawBusy data then .polling op else .free) := by
  simp [Duty.after, lop_build ht]

end after

/-! ### The calls of the operations -/

/-- The three ways in which the call of the label where `u` stands meets the discipline, with what is asked after its `Ok`. -/
inductive MeetsDuty (u : State) (k : Call) : Prop
  /-- Nothing is asked, and the command is not a mutating one. -/
  | quiet (before : dutyNow u = .free) (other : k.lop.mutating = false)
      (after : ∀ v : State, v.x.op = u.x.op →
        dutyNow (k.next v) = if k.lop = .writeEnable then .enabled v.env.reqs else .free)
  /-- The write-enable has gone out, and the command is the mutating one. -/
  | mutates (before : dutyNow u = .enabled u.env.reqs) (mutating : k.lop.mutating = true)
      (after : ∀ v : State, v.x.op = u.x.op → dutyNow (k.next v) = .polling v.env.reqs)
  /-- The polls are not over, and the command is one. -/
  | polls {next : Phase} (before : dutyNow u = .polling u.env.reqs) (poll : k = pollCall next)
      (after : ∀ v : State, v.x.op = u.x.op →
        dutyNow (k.next v) = if srWip (rxByte v 0) then .polling v.env.reqs else .free)

section meets
variable {u : State} {k : Call}

/-- A command that enables no write, at a label and before a label where nothing is asked. -/
theorem meetsDuty_other (hp : u.ctrl.phase ∉ dutyLabels) (other : k.lop.mutating = false)
    (enable : k.lop ≠ .writeEnable) (next : ∀ v, (k.next v).ctrl.phase ∉ dutyLabels) : MeetsDuty u k :=
  .quiet (dutyNow_free hp) other fun v _ => (dutyNow_free (next v)).trans (if_neg enable).symm

/-- M1, O2, X2. -/
theorem meetsDuty_enable {q : Phase} (hp : u.ctrl.phase ∉ dutyLabels) (hq : q ∈ [.m2, .o3, .x3]) :
    MeetsDuty u ⟨.writeEnable, none, .none, go q⟩ :=
  .quiet (dutyNow_free hp) rfl fun v _ => dutyNow_enabled (s := go q v) hq

/-- M2. -/
theorem meetsDuty_command {l : Lop} {a : Option Addr} {p : Payload} (hp : u.ctrl.phase = .m2) (hop : u.x.op ≠ 0)
    (mutating : l.mutating = true) : MeetsDuty u ⟨l, a, p, go .w1⟩ :=
  .mutates (dutyNow_enabled (by simp [hp])) mutating fun v hv => dutyNow_polling (s := go .w1 v) rfl (by simpa [hv] using hop)

/-- O3, X3. -/
theorem meetsDuty_switch {l : Lop} {a : Option Addr} {p : Payload} {q : Phase} (hp : u.ctrl.phase ∈ [.o3, .x3])
    (hq : q ∈ [.o4, .x4]) (mutating : l.mutating = true) : MeetsDuty u ⟨l, a, p, go q⟩ :=
  .mutates (dutyNow_enabled (List.mem_cons_of_mem _ hp)) mutating fun v _ => dutyNow_switching (s := go q v) hq

/-- W1 of an operation that has sent a mutating command. -/
theorem meetsDuty_poll {q : Phase} (hp : u.ctrl.phase = .w1) (hop : u.x.op ≠ 0)
    (hq : q ∉ dutyLabels) : MeetsDuty u (pollCall q) := by
  refine .polls (dutyNow_polling hp hop) rfl fun v hv => ?_
  have label : ((pollCall q).next v).ctrl.phase = if srWip (rxByte v 0) then .w1 else q := rfl
  split
  · rename_i busy
    exact dutyNow_polling (s := (pollCall q).next v) (label.trans (if_pos busy)) (by rwa [← hv] at hop)
  · rename_i clear
    exact dutyNow_free (s := (pollCall q).next v) (by rwa [label, if_neg clear])

/-- The calls of `mutate` (R158). -/
theorem meetsDuty_mutate {l : Lop} {a : Option Addr} {q : Payload} {p : Phase} (h : mutateCall l a q p u = some k)
    (hop : u.x.op ≠ 0) (mutating : l.mutating = true) (hp : p ∉ dutyLabels) : MeetsDuty u k := by
  unfold mutateCall at h
  split at h <;> cases h
  case h_1 hu => exact meetsDuty_enable (by simp [dutyLabels, hu]) (by simp)
  case h_2 hu => exact meetsDuty_command hu hop mutating
  case h_3 hu => exact meetsDuty_poll hu hop hp

/-- The calls of `construct`, whose busy-wait polls without a mutating command before it (R170). -/
theorem meetsDuty_construct (h : microCall .construct u = some k) (hop : u.x.op = 0) : MeetsDuty u k := by
  simp only [microCall] at h
  split at h <;> cases h
  case h_1 hu => exact meetsDuty_other (by simp [dutyLabels, hu]) rfl (by simp) (by simp [dutyLabels])
  case h_2 hu =>
    exact .quiet (dutyNow_free (by simp [dutyLabels, hu])) rfl fun v hv => dutyNow_construct (s := go .w1 v) rfl (hv.trans hop)
  case h_3 hu =>
    refine .quiet (dutyNow_construct hu hop) rfl fun v hv => ?_
    have label : ((pollCall .s5).next v).ctrl.phase = if srWip (rxByte v 0) then .w1 else .s5 := rfl
    by_cases busy : srWip (rxByte v 0) = true
    · exact dutyNow_construct (s := (pollCall .s5).next v) (label.trans (if_pos busy)) (hv.trans hop)
    · exact dutyNow_free (s := (pollCall .s5).next v) (by rw [label, if_neg busy]; decide)

/-- Every call of an operation in progress meets the discipline. -/
theorem meetsDuty_microCall {i : Instr} (code : decodeRequest u.x.op = .ok i) (h : microCall i u = some k) :
    MeetsDuty u k := by
  have hop : i ≠ .construct → u.x.op ≠ 0 := mt (op_eq_zero_iff code).mp
  cases i
  case construct => exact meetsDuty_construct h ((op_eq_zero_iff code).mpr rfl)
  case toOpi =>
    simp only [microCall] at h
    split at h <;> cases h
    case h_1 hu => exact meetsDuty_other (by simp [dutyLabels, hu]) rfl (by simp) (by simp [dutyLabels, keepMode])
    case h_2 hu => exact meetsDuty_enable (by simp [dutyLabels, hu]) (by simp)
    case h_3 hu => exact meetsDuty_switch (by simp [hu]) (by simp) rfl
    case h_4 hu => exact meetsDuty_poll hu (hop (by simp)) (by decide)
  case toSpi =>
    simp only [microCall] at h
    split at h <;> cases h
    case h_1 hu => exact meetsDuty_other (by simp [dutyLabels, hu]) rfl (by simp) (by simp [dutyLabels, keepMode])
    case h_2 hu => exact meetsDuty_enable (by simp [dutyLabels, hu]) (by simp)
    case h_3 hu => exact meetsDuty_switch (by simp [hu]) (by simp) rfl
    case h_4 hu => exact meetsDuty_poll hu (hop (by simp)) (by decide)
  case writeStatusAndConfigurationRegister => exact meetsDuty_mutate h (hop (by simp)) rfl (by decide)
  case writeConfigurationRegister2 => exact meetsDuty_mutate h (hop (by simp)) rfl (by decide)
  case writeMemory => exact meetsDuty_mutate h (hop (by simp)) rfl (by decide)
  case pageProgram => exact meetsDuty_mutate h (hop (by simp)) rfl (by decide)
  case eraseSector => exact meetsDuty_mutate h (hop (by simp)) rfl (by decide)
  case eraseBlock64k => exact meetsDuty_mutate h (hop (by simp)) rfl (by decide)
  case eraseChip => exact meetsDuty_mutate h (hop (by simp)) rfl (by decide)
  case readId | readMemory | readStatusRegister | readConfigurationRegister | readConfigurationRegister2 =>
    simp only [microCall] at h
    split at h <;> cases h
    rename_i hu
    exact meetsDuty_other (by simp [dutyLabels, hu]) rfl (by simp) (by simp [dutyLabels, keepByte])
  all_goals cases h

end meets

/-- A call that was taken: its event leads from what was asked to what is. -/
theorem MeetsDuty.after_ok {u : State} {k : Call} (h : MeetsDuty u k) (htab : OpTab.wf u.optab = true) {m : EMode} {d : Nat}
    {w : Bool} : (dutyNow u).after u.optab
      (callEvent u m k.lop k.addr k.payload true (answerOf k.lop (Lop.uses k.lop k.addr) k.payload u.chip u.env.rx)) =
      some (dutyNow (k.next (afterCall u m k.lop k.addr k.payload true d w))) := by
  cases h with
  | quiet before other after =>
    rw [before, after (afterCall ..) rfl, callEvent, Duty.after_quiet htab other]
    simp
  | mutates before mutating after =>
    rw [before, after (afterCall ..) rfl, callEvent, Duty.after_mutating htab mutating]
    rfl
  | polls before poll after =>
    subst poll
    rw [before, after (afterCall ..) rfl]
    exact Duty.after_poll htab

/-- A call that returned `Err`: nothing is asked after it. -/
theorem MeetsDuty.after_err {u : State} {k : Call} (h : MeetsDuty u k) (htab : OpTab.wf u.optab = true) {m : EMode}
    {rx : List Byte} : (dutyNow u).after u.optab (callEvent u m k.lop k.addr k.payload false rx) = some .free := by
  cases h with
  | quiet before other => rw [before, callEvent, Duty.after_quiet htab other]; simp
  | mutates before mutating => rw [before, callEvent, Duty.after_mutating htab mutating]; rfl
  | polls before poll => subst poll; rw [before]; exact Duty.after_poll htab

/-- A micro-step that makes a call, whatever becomes of the call: its one event meets what is asked (R150, R159). -/
theorem discipline_call {u : State} {k : Call} {c : Called} (h : Discipline u) (htab : OpTab.wf u.optab = true)
    (meets : MeetsDuty u k) (carried : ∀ v, Carried v (k.next v))
    (answer : transact ⟨build u.optab u.ctrl.emode k.lop k.addr, k.payload⟩ u = .next c) :
    Discipline (if c.ok then k.next c.s else abort .transportError c.s) := by
  have aborted : ∀ (v : State) (rx : List Byte), v.optab = u.optab →
      v.trace = u.trace ++ [callEvent u u.ctrl.emode k.lop k.addr k.payload false rx] →
      Discipline (abort .transportError v) := fun v rx hv htrace =>
    h.event hv htrace ((meets.after_err htab).trans (congrArg some (dutyNow_of_idle (abort_phase ..)).symm))
  obtain ⟨-, ⟨-, rfl⟩ | ⟨-, -, -, -, d, w, hc, -, -⟩⟩ := transact_build_next htab answer
  · exact aborted _ _ rfl rfl
  · rw [hc]
    cases c.ok with
    | false => exact aborted _ _ rfl rfl
    | true => exact h.event (carried _).optab (carried _).trace (meets.after_ok htab)

/-! ### The other moves -/

/-- O4 and X4 change the tag between the mutating command and its polls (R181, R184). -/
theorem discipline_retag {u : State} {m : EMode} (h : Discipline u) (hp : u.ctrl.phase ∈ [.o4, .x4]) (hop : u.x.op ≠ 0) :
    Discipline (retag m u) :=
  h.silent rfl rfl ((dutyNow_polling (s := retag m u) rfl hop).trans (dutyNow_switching hp).symm)

/-- A passthrough call, when nothing is asked. -/
theorem discipline_passthrough {u t : State} {e : Event} (h : Discipline u) (hu : u.ctrl.phase ∉ dutyLabels)
    (htab : t.optab = u.optab) (htrace : t.trace = u.trace ++ [e]) (ht : t.ctrl.phase ∉ dutyLabels)
    (he : Duty.free.after u.optab e = some .free) : Discipline t :=
  h.event htab htrace (by rw [dutyNow_free hu, dutyNow_free ht, he])

/-- Every other micro-step that makes no call stands outside the labels of the discipline, and so does the next label. -/
theorem discipline_between {u t : State} (h : Discipline u) (hu : u.ctrl.phase ∉ dutyLabels) (htab : t.optab = u.optab)
    (htrace : t.trace = u.trace) (ht : t.ctrl.phase ∉ dutyLabels) : Discipline t :=
  h.silent htab htrace ((dutyNow_free ht).trans (dutyNow_free hu).symm)

/-- G1 goes on or aborts before any call (R216). -/
theorem discipline_afterCheck {u : State} {a n : Nat} (h : Discipline u) (hu : u.ctrl.phase = .g1) :
    Discipline (afterCheck a n u) := by
  unfold afterCheck
  split <;> exact discipline_between h (by simp [dutyLabels, hu]) rfl rfl (by simp [dutyLabels])

/-- The micro-steps that make no call, label by label. -/
theorem discipline_microLocal {i : Instr} {u t : State} (h : Discipline u) (code : decodeRequest u.x.op = .ok i)
    (micro : microLocal i u = some t) : Discipline t := by
  have hop : i ≠ .construct → u.x.op ≠ 0 := mt (op_eq_zero_iff code).mp
  cases i <;> simp only [microLocal] at micro
  case construct =>
    split at micro <;> cases micro <;> rename_i hu
    · exact discipline_between h (by simp [dutyLabels, hu]) rfl rfl (by simp [dutyLabels, constructTags])
    · exact discipline_between h (by simp [dutyLabels, hu]) rfl rfl (by simp [dutyLabels, constructDone])
  case toOpi =>
    split at micro <;> cases micro <;> rename_i hu
    · exact discipline_retag h (by simp [hu]) (hop (by simp))
    · exact discipline_between h (by simp [dutyLabels, hu]) rfl rfl (by simp [dutyLabels])
  case toSpi =>
    split at micro <;> cases micro <;> rename_i hu
    · exact discipline_retag h (by simp [hu]) (hop (by simp))
    · exact discipline_between h (by simp [dutyLabels, hu]) rfl rfl (by simp [dutyLabels])
  case pageProgram =>
    split at micro <;> cases micro <;> rename_i hu
    · exact discipline_afterCheck h hu
    · exact discipline_between h (by simp [dutyLabels, hu]) rfl rfl (by simp [dutyLabels])
  case writeMemory =>
    split at micro <;> cases micro <;> rename_i hu
    case h_6 => exact discipline_afterCheck h hu
    case h_2 =>
      refine discipline_between h (by simp [dutyLabels, hu]) rfl rfl ?_
      rw [splitTest, go_phase]
      split <;> decide
    all_goals
      exact discipline_between h (by simp [dutyLabels, hu]) rfl rfl
        (by simp [dutyLabels, splitStart, splitRoom, splitChunk, splitAdvance])
  case enableMemoryMapped =>
    split at micro <;> cases micro <;> rename_i hu
    case h_2 => exact discipline_passthrough h (by simp [dutyLabels, hu]) rfl rfl (by simp [dutyLabels]) rfl
    all_goals exact discipline_between h (by simp [dutyLabels, hu]) rfl rfl (by simp [dutyLabels])
  case disableMemoryMapped =>
    split at micro <;> cases micro <;> rename_i hu
    case h_1 => exact discipline_passthrough h (by simp [dutyLabels, hu]) rfl rfl (by simp [dutyLabels]) rfl
    case h_2 => exact discipline_between h (by simp [dutyLabels, hu]) rfl rfl (by simp [dutyLabels])
  -- `read_id`, `read_memory`, and the five operations that close at `fin`
  all_goals first
    | cases micro
    | (split at micro <;> cases micro; rename_i hu
       exact discipline_between h (by simp [dutyLabels, hu]) rfl rfl (by simp [dutyLabels, storeId, storeBuffer]))

/-- The host's window reads are no part of the discipline; a power cycle empties the trace (R248, R340). -/
theorem discipline_hostTurn {u t : State} (h : Discipline u) (idle : u.ctrl.phase = .idle) (turn : hostTurn u = .next t) :
    Discipline t := by
  have hu : u.ctrl.phase ∉ dutyLabels := by simp [dutyLabels, idle]
  obtain ⟨htab, hctrl, -, -, -, -, -, -, htrace, -⟩ | ⟨htab, hctrl, -, -, -, -, -, -, -, a, bytes, htrace⟩ | ⟨rest, -, rfl⟩ :=
    hostTurn_next turn
  · exact discipline_between h hu htab htrace (by rwa [hctrl])
  · exact discipline_passthrough h hu htab htrace (by rwa [hctrl]) rfl
  · rfl

/-- The first label of an operation asks nothing. -/
theorem firstStep_not_duty (i : Instr) : firstStep i ∉ dutyLabels := by
  cases i <;> simp [firstStep, dutyLabels]

theorem discipline_moved {u t : State} (hinv : Inv u) (h : Discipline u) (moved : Moved u t) : Discipline t := by
  cases moved with
  | completion => exact h.silent rfl rfl rfl
  | bus wire => rw [hinv.bus] at wire; cases wire
  | reported _ idle => exact discipline_between h (by simp [dutyLabels, idle]) rfl rfl (by simp [dutyLabels, idle])
  | rejected _ _ idle => exact discipline_between h (by simp [dutyLabels, idle]) rfl rfl (by simp [dutyLabels])
  | started _ idle => exact discipline_between h (by simp [dutyLabels, idle]) rfl rfl (firstStep_not_duty _)
  | call _ _ code micro answer =>
    exact discipline_call h hinv.table (meetsDuty_microCall code micro) (microCall_carried micro) answer
  | silent _ _ code micro => exact discipline_microLocal h code micro
  | host _ idle turn => exact discipline_hostTurn h idle turn

/-- Settles O21: of the moves only the calls, the passthrough calls and the window accesses record an event, and each meets
what is asked at its label. -/
theorem everyStepKeepsWriteEnableDiscipline : Obligations.EveryStepKeepsWriteEnableDiscipline := by
  intro s t hinv h hstep
  have hasked : Discipline (asked s) := by
    rw [asked_eq]
    exact h
  exact discipline_moved hinv.asked hasked (step_moved hstep)

end Sys2Proof.Machine
end

section
/-! PROOFS. The micro-steps of `construct` but the busy-wait (R170, R172, R260, R261). -/

namespace Sys2Proof.Machine

/-- S3: a RESET_MEMORY that finds the latch set resets the registers, and is the one command that draws (R172, R261). -/
theorem exec_resetMemory {s : State} (ready : Ready .Spi s) (hp : s.ctrl.phase = .s3) (armed : s.chip.rsten = true) :
    ∃ d, exec .construct s = .next (go .w1
      { called s (okEvent s .resetMemory none none) (resetRegisters s.env.draws s.chip) s.env.rx with env.draws := d }) := by
  have micro : microCall .construct s = some ⟨.resetMemory, none, .none, go .w1⟩ := by simp only [microCall, hp]
  have reset : response .resetMemory (Lop.uses .resetMemory none) .none s.env.draws s.chip =
      resetRegisters s.env.draws s.chip := if_pos armed
  obtain ⟨d, u, hcall, hmark, -⟩ := outcome_ok (k := ⟨.resetMemory, none, .none, go .w1⟩) ready.toConnected (bare_self _)
    rfl (by simp [ready.idle]) trivial
  rw [marks_eq_false (by simp), Bool.or_false] at hmark
  refine ⟨d, ?_⟩
  rw [exec_micro rfl (by simp [hp]), micro]
  refine hcall.trans ?_
  rw [reset, hmark]
  rfl

/-- Settles O42: S2 and S3 are calls, and the registers after S3 are `resetRegisters`; S1 and S5 make none. -/
theorem constructSteps : Obligations.ConstructSteps := by
  refine fun s => ⟨fun hp => ?s1, fun hp ready => ?s2, fun hp ready armed => ?s3, fun hp => ?s5⟩
  case s1 => exact exec_local rfl (by simp [hp]) (by simp only [microCall, hp]) (by simp only [microLocal, hp]; rfl)
  case s2 =>
    rw [exec_call (k := ⟨.resetEnable, none, .none, go .s3⟩) rfl (by simp [hp]) (by simp only [microCall, hp])
      ready.toConnected ⟨by simp [Lop.operandAddress], rfl, by simp [ready.idle], trivial⟩ (by simp),
      Call.done_plain (by simp)]
    rfl
  case s3 =>
    obtain ⟨d, hexec⟩ := exec_resetMemory ready hp armed
    obtain ⟨wip, wel, spi⟩ := resetRegisters_flags s.env.draws s.chip
    exact ⟨_, d, hexec, rfl, wip, wel, spi, rfl⟩
  case s5 => exact exec_local rfl (by simp [hp]) (by simp only [microCall, hp]) (by simp only [microLocal, hp]; rfl)

end Sys2Proof.Machine
end

section
/-! PROOFS. The calls of the controller under its invariant (R185, R259, R354): where each is made, in which mode, and that the
chip has a rule for it; so from the invariant no step is stuck. -/

namespace Sys2Proof.Machine

/-! ### Tag, chip and transport at a call (R185, R354) -/

/-- Settles O22: of the four kinds of operation the toggles make no call, and the other three have tag and chip agree but at
`s1`, `o4` and `x4`, where none is made. -/
theorem modeAgreementAtEveryCall : Obligations.ModeAgreementAtEveryCall := by
  intro s i h busy code hp
  have r := h.running busy code
  obtain rfl | which | which | which := kind_of i
  · have c := h.constructing r
    obtain ⟨spi, -⟩ := c.tags fun hs => by simp [hs, calling] at hp
    exact ⟨by rw [c.spi, spi], c.closed, c.busy⟩
  · have c := h.switching r which
    have label : switching s.ctrl.phase = false ∧ (s.ctrl.phase ∈ [.w1, .o4, .x4] → s.ctrl.phase = .w1) := by
      obtain rfl | rfl := which <;> (revert hp; generalize s.ctrl.phase = p; revert p; decide)
    exact ⟨c.agree label.1, c.closed, fun hw => label.2 (c.busy hw)⟩
  · obtain rfl | rfl := which <;> cases hp
  · have c := h.commanding r which
    exact ⟨c.agree, c.closed, c.busy⟩

/-! ### The labels that make calls (R25, R150) -/

theorem mutateCall_label {l : Lop} {a : Option Addr} {q : Payload} {p : Phase} {s : State} {k : Call}
    (h : mutateCall l a q p s = some k) : s.ctrl.phase ∈ [.m1, .m2, .w1] := by
  unfold mutateCall at h
  split at h <;> cases h <;> rename_i hp <;> simp [hp]

/-- Only the calling labels make a call. -/
theorem calling_of_microCall {i : Instr} {s : State} {k : Call} (h : microCall i s = some k) : s.ctrl.phase ∈ calling i := by
  cases i <;> simp only [microCall] at h
  case construct => split at h <;> cases h <;> rename_i hp <;> simp [hp, calling]
  case toOpi => split at h <;> cases h <;> rename_i hp <;> simp [hp, calling]
  case toSpi => split at h <;> cases h <;> rename_i hp <;> simp [hp, calling]
  case readId => split at h <;> cases h; rename_i hp; simp [hp, calling]
  case readStatusRegister => split at h <;> cases h; rename_i hp; simp [hp, calling]
  case readConfigurationRegister => split at h <;> cases h; rename_i hp; simp [hp, calling]
  case readConfigurationRegister2 => split at h <;> cases h; rename_i hp; simp [hp, calling]
  case readMemory => split at h <;> cases h; rename_i hp; simp [hp, calling]
  case enableMemoryMapped => cases h
  case disableMemoryMapped => cases h
  -- the seven operations that mutate, then the wire commands
  all_goals first
    | exact mutateCall_label h
    | cases h

/-- Every other label of an operation has a next state of its own. -/
theorem microLocal_of_not_calling {i : Instr} {s : State} (label : s.ctrl.phase ∈ steps i) (h : s.ctrl.phase ∉ calling i) :
    ∃ t, microLocal i s = some t := by
  have silent : s.ctrl.phase ∈ (steps i).filter (· ∉ calling i) := List.mem_filter.mpr ⟨label, decide_eq_true h⟩
  cases i <;> simp [steps, calling] at silent
  -- each operation at each of its silent labels
  all_goals
    repeat' obtain silent | silent := silent
    all_goals exact ⟨_, by simp only [microLocal, silent]; rfl⟩

/-! ### The operands of a call (R62, R211, R216, R221) -/

theorem length_slice (buf : List Byte) (start n : Nat) : (slice buf start n).length = min n (buf.length - start) := by
  simp [slice]

/-- What the chip asks of the data and the range of a page program (R111, R276). -/
def Programmable (a : Addr) (data : List Byte) : Prop :=
  1 ≤ data.length ∧ data.length ≤ Config.pageSize ∧ a.toNat < Config.capacity

/-- `page_program` past its page check sends its buffer, inside one page of the array (R216). -/
theorem programmable_pageData {s : State} (h : admittedFor .pageProgram s) (buf : s.x.buf.length = s.x.n.toNat)
    (hp : s.ctrl.phase ≠ .g1) : Programmable s.x.a (pageData s) := by
  obtain ⟨nonempty, range, page⟩ := h
  have length : (pageData s).length = s.x.n.toNat := by rw [pageData, length_slice, buf]; omega
  have fits : s.x.n.toNat + s.x.a.toNat % 256 ≤ 256 := of_decide_eq_true (page hp)
  have inside := range (page hp)
  rw [Programmable, length, Config.pageSize]
  omega

/-- A chunk of `write_memory` is what is left of the range, cut at the page boundary (R220, R221, R222). -/
theorem programmable_chunkData {s : State} (h : admittedFor .writeMemory s) (buf : s.x.buf.length = s.x.n.toNat)
    (hp : s.ctrl.phase = .m2) : Programmable s.seq.cursor (chunkData s) := by
  obtain ⟨⟨range, cursor, counters⟩, -⟩ := splitOk_of_admittedFor h (by simp [hp])
  obtain ⟨-, -, -, -, -, chunk⟩ := h
  obtain ⟨size, left⟩ := chunk (by simp [hp])
  have page := pageRoom_le s.seq.cursor.toNat
  have room : 1 ≤ pageRoom s.seq.cursor.toNat := by
    unfold pageRoom Config.pageSize
    omega
  have length : (chunkData s).length = s.seq.chunk.toNat := by rw [chunkData, length_slice, buf]; omega
  rw [Programmable, length, Config.pageSize]
  omega

/-- The operands of the operation in progress are admitted ones. -/
theorem Inv.admittedFor {i : Instr} {s : State} (h : Inv s) (busy : s.ctrl.phase ≠ .idle)
    (code : decodeRequest s.x.op = .ok i) : admittedFor i s := by
  have operands := h.operands busy
  simpa only [admitted, code] using operands

/-- So the data of its call has the shape of the command's row, and the range lies inside the array. -/
theorem callAt_shape {i : Instr} {s : State} {l : Lop} {a : Option Addr} {p : Payload} (h : Inv s)
    (busy : s.ctrl.phase ≠ .idle) (code : decodeRequest s.x.op = .ok i) (call : callAt i s = some (l, a, p)) :
    (l.operandAddress = true → a ≠ none) ∧ Payload.fits l p ∧ reaches l (Lop.uses l a) p := by
  have operands := h.admittedFor busy code
  cases hp : s.ctrl.phase <;> simp only [callAt, hp] at call
  case b1 =>
    cases call
    obtain rfl : i = .readMemory := by
      have label := (h.running busy code).label
      rw [hp] at label
      cases i <;> first | rfl | simp [steps] at label
    obtain ⟨nonempty, range⟩ := operands
    exact ⟨by simp, ⟨_, rfl, nonempty, s.x.n.isLt⟩, nonempty, range⟩
  case m2 =>
    cases i <;> cases call
    case writeStatusAndConfigurationRegister => exact ⟨by simp [Lop.operandAddress], ⟨_, _, rfl⟩, trivial⟩
    case writeConfigurationRegister2 => exact ⟨by simp, ⟨_, rfl⟩, trivial⟩
    case pageProgram =>
      obtain ⟨nonempty, page, range⟩ := programmable_pageData operands h.buf (by simp [hp])
      exact ⟨by simp, ⟨_, rfl, nonempty, page⟩, nonempty, page, range⟩
    case writeMemory =>
      obtain ⟨nonempty, page, range⟩ := programmable_chunkData operands h.buf hp
      exact ⟨by simp, ⟨_, rfl, nonempty, page⟩, nonempty, page, range⟩
    case eraseSector => exact ⟨by simp, rfl, operands⟩
    case eraseBlock64k => exact ⟨by simp, rfl, operands⟩
    case eraseChip => exact ⟨by simp [Lop.operandAddress], rfl, trivial⟩
  case o3 => cases call; exact ⟨by simp, ⟨_, rfl⟩, trivial⟩
  case x3 => cases call; exact ⟨by simp, ⟨_, rfl⟩, trivial⟩
  -- the other calling labels send no data and address no array byte
  all_goals cases call <;> exact ⟨by simp [Lop.operandAddress], rfl, trivial⟩

/-- Under the invariant the chip has a rule for every call the controller makes (R256 to R259, R274 to R279). -/
theorem Inv.served {i : Instr} {s : State} {k : Call} (h : Inv s) (busy : s.ctrl.phase ≠ .idle)
    (code : decodeRequest s.x.op = .ok i) (micro : microCall i s = some k) : k.Served s.chip := by
  have label := calling_of_microCall micro
  obtain ⟨-, -, polled⟩ := modeAgreementAtEveryCall s i h busy code label
  obtain ⟨-, -, k', micro', call⟩ := microCall_calling label
  cases micro.symm.trans micro'
  obtain ⟨addr, fits, range⟩ := callAt_shape h busy code call
  refine ⟨addr, fits, fun hw => ?_, range⟩
  simp only [callAt, polled hw] at call
  exact (congrArg Prod.fst (Option.some.inj call)).symm

/-! ### No fault (R149, R257, R258, R259) -/

/-- The outcome is no fault. -/
def Faultless (o : Out) : Prop := ∀ f, o ≠ .fault f

theorem faultless_of_next {o : Out} {t : State} (h : o = .next t) : Faultless o := by simp [Faultless, h]

theorem faultless_of_refused {o : Out} {r : Refusal} (h : o = .refused r) : Faultless o := by simp [Faultless, h]

/-- The dispatcher reports, aborts, refuses or starts (R302). -/
theorem faultless_dispatch (op : Byte) (p : Phase) (bar : Option Refusal) (u : State) : Faultless (dispatch op p bar u) := by
  unfold dispatch
  cases verdict op u.ctrl with
  | report => exact faultless_of_next rfl
  | abort c => exact faultless_of_next rfl
  | run =>
    cases bar with
    | none => exact faultless_of_next rfl
    | some r => exact faultless_of_refused rfl

/-- A request code that selects no operation is one of the reserved ones (R132). -/
theorem reserved_of_error {op : Byte} {e : DecodeError} (h : decodeRequest op = .error e) : 0x11 ≤ op.toNat := by
  unfold decodeRequest at h
  by_contra hlt
  have bound : op.toNat ≤ 16 := by omega
  generalize op.toNat = n at bound h
  interval_cases n <;> cases h

section inv
variable {u : State}

/-- A request, or the next micro-step of the operation in progress. -/
theorem Inv.faultless_exec {i : Instr} (h : Inv u) (code : decodeRequest u.x.op = .ok i) : Faultless (exec i u) := by
  have hi := decodeRequest_code code
  by_cases busy : u.ctrl.phase = .idle
  · rw [exec_idle hi busy]
    exact faultless_dispatch _ _ _ u
  · rw [exec_micro hi busy]
    cases micro : microCall i u with
    | some k =>
      have label := calling_of_microCall micro
      obtain ⟨agree, closed, -⟩ := modeAgreementAtEveryCall u i h busy code label
      obtain ⟨addr, fits, idle, range⟩ := h.served busy code micro
      obtain ⟨j, hj, hwf⟩ := wireInstr_build h.table u.ctrl.emode addr fits
      obtain ⟨c, answer⟩ := transact_build_answers h.table closed hj hwf agree idle range
      exact faultless_of_next (Call.outcome_next.mpr ⟨c, answer, rfl⟩)
    | none =>
      have silent : u.ctrl.phase ∉ calling i := fun label => by
        obtain ⟨-, -, k, call, -⟩ := microCall_calling label
        simp [micro] at call
      obtain ⟨t, ht⟩ := microLocal_of_not_calling (h.running busy code).label silent
      exact faultless_of_next (by rw [ht]; rfl)

/-- A window access of an admitted shape asks for a byte at least, and an open window serves it (R83, R240, R248). -/
theorem Inv.faultless_windowRead (h : Inv u) {shape : Bool} {w : Nat} (a : Addr) (nonempty : shape = true → 1 ≤ w) :
    Faultless (windowRead shape w a u) := by
  cases opened : u.xport.passthrough with
  | false => exact faultless_of_refused (windowRead_closed opened shape)
  | true =>
    cases inside : inWindow w a with
    | false => exact faultless_of_refused (windowRead_outside opened inside shape)
    | true =>
      cases shape with
      | false => exact faultless_of_refused (windowRead_shape opened inside rfl)
      | true =>
        obtain ⟨idle, m, template, mode⟩ := h.window opened
        obtain ⟨lo, hi⟩ := inWindow_iff.mp inside
        exact faultless_of_next (windowRead_served h.table opened template mode idle lo hi (nonempty rfl))

/-- A move of the host. -/
theorem Inv.faultless_hostMove (h : Inv u) (act : HostAct) : Faultless (hostMove act u) := by
  cases act with
  | load w a =>
    refine h.faultless_windowRead a fun shape => ?_
    obtain ⟨size, -⟩ := loadShape_iff.mp shape
    simp only [List.mem_cons, List.not_mem_nil, or_false] at size
    omega
  | fetch w a => exact h.faultless_windowRead a fun shape => (fetchShape_iff.mp shape).1
  | store w a v => exact faultless_of_refused windowStore_eq
  | setA | setN | setV0 | setV1 | setBuf | request | powerCycle => exact faultless_of_next rfl

theorem Inv.faultless_hostTurn (h : Inv u) : Faultless (hostTurn u) := by
  unfold hostTurn
  split
  · exact faultless_of_next rfl
  · rename_i act rest script
    exact Inv.faultless_hostMove (u := { u with env.script := rest }) { h with } act

/-- No transaction stands on the bus, and an operation in progress has a code: whoever moves has a rule (R19, R26). -/
theorem Inv.turn_cases (h : Inv u) : turn u = .chipDone ∨ (∃ i, turn u = .instr i ∧ decodeRequest u.x.op = .ok i) ∨
    (turn u = .reserved ∧ 0x11 ≤ u.x.op.toNat) ∨ turn u = .host := by
  unfold turn
  simp only [h.bus]
  split
  · exact .inl rfl
  split
  · exact .inr (.inr (.inr rfl))
  unfold ctrlTurn
  cases code : decodeRequest u.x.op with
  | ok i => exact .inr (.inl ⟨i, rfl, rfl⟩)
  | error e =>
    have idle : u.ctrl.phase = .idle := by
      by_contra busy
      obtain ⟨i, hi, -⟩ := h.inOp busy
      simp [code] at hi
    exact .inr (.inr (.inl ⟨if_pos idle, reserved_of_error code⟩))

end inv

/-- Settles O20: an operation's step has a rule, a reserved request is reported or rejected, and an open window is served. -/
theorem invariantExcludesFaults : Obligations.InvariantExcludesFaults := by
  intro s f h
  have ha := h.asked
  suffices Faultless (step s) from this f
  unfold step
  obtain ht | ⟨i, ht, code⟩ | ⟨ht, reserved⟩ | ht := h.turn_cases <;> rw [ht]
  · exact faultless_of_next rfl
  · exact ha.faultless_exec (by rwa [asked_x])
  · exact faultless_of_next (dispatchReserved_eq (by rwa [asked_x]))
  · exact ha.faultless_hostTurn

end Sys2Proof.Machine
end

section
/-! PROOFS. Spi to Opi and back, whole, at a prompt chip (R181, R184, R188): both mode switches are one sequence of eight steps,
proved once. -/

namespace Sys2Proof.Machine

/-! ### The two switches (R181, R184) -/

/-- A mode switch: its operation, its request code, the modes it goes from and to, the byte it writes back for the byte read,
and its labels but W1. -/
structure ModeSwitch where
  instr : Instr
  op : Byte
  source : EMode
  target : EMode
  value : Byte → Byte
  read : Phase
  enable : Phase
  write : Phase
  tag : Phase
  close : Phase

/-- `to_opi` (R181). -/
def switchToOpi : ModeSwitch := ⟨.toOpi, 0x01, .Spi, .Opi, opiValue, .o1, .o2, .o3, .o4, .o6⟩

/-- `to_spi` (R184). -/
def switchToSpi : ModeSwitch := ⟨.toSpi, 0x02, .Opi, .Spi, spiValue, .x1, .x2, .x3, .x4, .x6⟩

/-- The switch is one of the model's: what the operation does at each of its labels. -/
structure ModeSwitch.Sound (w : ModeSwitch) : Prop where
  code : decodeRequest w.op = .ok w.instr
  first : firstStep w.instr = w.read
  bar : ∀ u, barOf w.instr u = none
  run : ∀ c : Ctrl, c.cstate = .ready → c.mmode = .Direct → c.emode = w.source → verdict w.op c = .run
  busy : ∀ p ∈ [w.read, w.enable, w.write, w.tag, w.close], p ≠ .idle
  reads : ∀ u, u.ctrl.phase = w.read → microCall w.instr u = some ⟨.readCr2, some 0, .read 1, keepMode w.enable⟩
  enables : ∀ u, u.ctrl.phase = w.enable → microCall w.instr u = some ⟨.writeEnable, none, .none, go w.write⟩
  writes : ∀ u, u.ctrl.phase = w.write →
    microCall w.instr u = some ⟨.writeCr2, some 0, .write [w.value u.ctrl.tmp], go w.tag⟩
  high : ∀ b, w.value b &&& 0xFC = b &&& 0xFC
  mode : ∀ c : Chip, c.emode = some w.source → Chip.emode { c with cr20 := w.value c.cr20 } = some w.target
  tags : ∀ u, u.ctrl.phase = w.tag → exec w.instr u = .next (retag w.target u)
  wait : afterWait w.instr = some w.close
  closes : closing w.instr = some w.close

theorem switchToOpi_sound : switchToOpi.Sound where
  code := rfl
  first := rfl
  bar _ := rfl
  run c ready direct spi := by
    have hs : c.emode = .Spi := spi
    simp [verdict, switchToOpi, ready, direct, hs]
  busy := by decide
  reads u hp := by
    have hp : u.ctrl.phase = .o1 := hp
    simp only [switchToOpi, microCall, hp]
  enables u hp := by
    have hp : u.ctrl.phase = .o2 := hp
    simp only [switchToOpi, microCall, hp]
  writes u hp := by
    have hp : u.ctrl.phase = .o3 := hp
    simp only [switchToOpi, microCall, hp]
  high := opiValue_high
  mode c spi := by
    obtain ⟨-, b1⟩ := (emode_spi c).mp spi
    exact (emode_opi _).mpr ⟨(opiValue_bits _).1, (opiValue_bits _).2.trans b1⟩
  tags u hp := (modeSwitchSteps .Spi u).2.1 hp
  wait := rfl
  closes := rfl

theorem switchToSpi_sound : switchToSpi.Sound where
  code := rfl
  first := rfl
  bar _ := rfl
  run c ready direct opi := by
    have hs : c.emode = .Opi := opi
    simp [verdict, switchToSpi, ready, direct, hs]
  busy := by decide
  reads u hp := by
    have hp : u.ctrl.phase = .x1 := hp
    simp only [switchToSpi, microCall, hp]
  enables u hp := by
    have hp : u.ctrl.phase = .x2 := hp
    simp only [switchToSpi, microCall, hp]
  writes u hp := by
    have hp : u.ctrl.phase = .x3 := hp
    simp only [switchToSpi, microCall, hp]
  high := spiValue_high
  mode c _ := (emode_spi _).mpr (spiValue_bits c.cr20)
  tags u hp := (modeSwitchSteps .Opi u).2.2 hp
  wait := rfl
  closes := rfl

/-! ### A switch in progress, at a prompt chip -/

/-- The mode switch requested in the state `s` has come to label `p`, with the tag `m` and the chip in state `c`; all but
the status, `CTRL.tmp`, the trace and the bookkeeping is as it was. -/
structure Turning (s : State) (m : EMode) (c : Chip) (p : Phase) (u : State) : Prop where
  ctrl : u.ctrl = { s.ctrl with emode := m, phase := p, tmp := u.ctrl.tmp }
  chip : u.chip = c
  optab : u.optab = s.optab
  seq : u.seq = s.seq
  x : u.x = { s.x with st := u.x.st }
  xport : u.xport = s.xport
  wire : u.env.wire = none
  req : u.env.req = false
  script : u.env.script = s.env.script
  done : u.env.done = s.env.done
  undoc : u.env.undoc = s.env.undoc
  calls : AllCallsOk u

section turning
variable {w : ModeSwitch} {m : EMode} {c : Chip} {p : Phase} {s u : State}

theorem Turning.phase (h : Turning s m c p u) : u.ctrl.phase = p := by rw [h.ctrl]

theorem Turning.op (h : Turning s m c p u) : u.x.op = s.x.op := by rw [h.x]

/-- The next call goes through, as long as the chip is in the mode of the tag (R185). -/
theorem Turning.connected (h : Turning s m c p u) {e : EMode} (r : Connected e s) (mode : c.emode = some m) :
    Connected m u where
  table := by rw [h.optab]; exact r.table
  tag := by rw [h.ctrl]
  chip := by rw [h.chip]; exact mode
  direct := by rw [h.xport]; exact r.direct
  bus := h.wire
  ok := h.calls.head

/-- While the chip is idle, the operation takes its next micro-step (R25, R26). -/
theorem Turning.step (h : Turning s m c p u) (sound : w.Sound) (r : Requested w.source w.op s) (hp : p ≠ .idle)
    (idle : c.wip = false) : step u = exec w.instr u :=
  step_micro h.wire (by rwa [h.phase]) (by rwa [h.chip]) (by rw [h.op, r.op]; exact sound.code)

/-- What an `Ok` call leaves that is followed by a move to the label `q`, when it marks no undescribed bit. -/
theorem Turning.called (h : Turning s m c p u) (e : Event) (c' : Chip) (rx : List Byte) (b : Byte) (q : Phase) {mark : Bool}
    (unmarked : mark = u.env.undoc) :
    Turning s m c' q { called u e c' rx with ctrl.tmp := b, ctrl.phase := q, env.undoc := mark } :=
  { h with
    ctrl := by show { u.ctrl with tmp := b, phase := q } = _; rw [h.ctrl]
    chip := rfl
    undoc := unmarked.trans h.undoc
    calls := h.calls.of_tail rfl }

/-- O1 and X1: the byte of CR2 at address 0 is kept in `CTRL.tmp`. -/
theorem Turning.reads (h : Turning s w.source c w.read u) (sound : w.Sound) (r : Requested w.source w.op s)
    (mode : c.emode = some w.source) (idle : c.wip = false) :
    ∃ v, Machine.step u = .next v ∧ v.ctrl.tmp = c.cr20 ∧ Turning s w.source c.asked w.enable v := by
  obtain rfl := h.chip
  have busy : w.read ≠ .idle := sound.busy _ (by simp)
  have exec := exec_readMode ⟨h.connected r.toConnected mode, idle⟩ (decodeRequest_code sound.code) (by rwa [h.phase])
    (sound.reads u h.phase)
  exact ⟨_, (h.step sound r busy idle).trans exec, rfl, h.called _ u.chip.asked _ _ _ rfl⟩

/-- O2 and X2: WRITE_ENABLE sets WEL. -/
theorem Turning.enables (h : Turning s w.source c w.enable u) (sound : w.Sound) (r : Requested w.source w.op s)
    (mode : c.emode = some w.source) (idle : c.wip = false) :
    ∃ v, Machine.step u = .next v ∧ v.ctrl.tmp = u.ctrl.tmp ∧
      Turning s w.source { c with sr := c.sr ||| 0x02, rsten := false } w.write v := by
  obtain rfl := h.chip
  have busy : w.enable ≠ .idle := sound.busy _ (by simp)
  have exec := exec_writeEnable ⟨h.connected r.toConnected mode, idle⟩ (decodeRequest_code sound.code) (by rwa [h.phase])
    (sound.enables u h.phase)
  exact ⟨_, (h.step sound r busy idle).trans exec, rfl, h.called _ _ _ u.ctrl.tmp _ rfl⟩

/-- O3 and X3: the byte read goes back with the mode bits changed; bits 7:2 are its own, so nothing is marked. -/
theorem Turning.writes (h : Turning s w.source c w.write u) (sound : w.Sound) (r : Requested w.source w.op s)
    (mode : c.emode = some w.source) (idle : c.wip = false) (wel : c.wel = true) (tmp : u.ctrl.tmp = c.cr20) :
    ∃ v, Machine.step u = .next v ∧ Turning s w.source
      { c with cr20 := w.value c.cr20, sr := c.sr ||| 0x01, rsten := false, pending := .nothing } w.tag v := by
  obtain rfl := h.chip
  have busy : w.write ≠ .idle := sound.busy _ (by simp)
  obtain ⟨mark, marked, exec⟩ := exec_writeMode ⟨h.connected r.toConnected mode, idle⟩ wel (decodeRequest_code sound.code)
    (by rwa [h.phase]) (sound.writes u h.phase) (sound.high _)
  have unmarked : mark = u.env.undoc := by
    rw [Bool.eq_iff_iff, marked, tmp]
    simp
  rw [tmp] at exec
  exact ⟨_, (h.step sound r busy idle).trans exec, h.called _ _ _ u.ctrl.tmp _ unmarked⟩

/-- The completion agent of a prompt chip moves before the next micro-step (R156, R290). -/
theorem Turning.completes (h : Turning s m c p u) (prompt : Prompt s) (busy : c.wip = true) :
    ∃ v, Machine.step u = .next v ∧ Turning s m c.complete p v := by
  obtain rfl := h.chip
  have hdone : u.env.done = ⟨[], true⟩ := h.done.trans prompt
  have hstep : Machine.step u = .next (chipDone (asked u)) := by simp [Machine.step, turn, busy, hdone, Feed.head]
  rw [asked_eq, if_pos busy, hdone] at hstep
  exact ⟨_, hstep, { h with done := prompt.symm, chip := rfl }⟩

/-- O4 and X4: the tag follows the chip. -/
theorem Turning.retags (h : Turning s w.source c w.tag u) (sound : w.Sound) (r : Requested w.source w.op s)
    (idle : c.wip = false) : ∃ v, Machine.step u = .next v ∧ Turning s w.target c .w1 v := by
  have busy : w.tag ≠ .idle := sound.busy _ (by simp)
  refine ⟨_, (h.step sound r busy idle).trans (sound.tags u h.phase), { h with ctrl := ?_ }⟩
  show { u.ctrl with emode := w.target, phase := .w1 } = _
  rw [h.ctrl]
  rfl

/-- W1: the poll sees WIP clear (R156). -/
theorem Turning.polls (h : Turning s w.target c .w1 u) (sound : w.Sound) (r : Requested w.source w.op s)
    (mode : c.emode = some w.target) (idle : c.wip = false) :
    ∃ v, Machine.step u = .next v ∧ Turning s w.target c.asked w.close v := by
  obtain rfl := h.chip
  have exec := busyWaitRound w.target u w.instr w.close sound.wait h.phase (h.connected r.toConnected mode)
  have seen : u.chip.sr.getLsbD 0 = false := idle
  rw [seen, if_neg Bool.false_ne_true] at exec
  exact ⟨_, (h.step sound r (by simp) idle).trans exec, h.called _ u.chip.asked _ _ _ rfl⟩

/-- O6 and X6: the operation completes with `Ok` (R130). -/
theorem Turning.closes (h : Turning s w.target c w.close u) (sound : w.Sound) (r : Requested w.source w.op s)
    (idle : c.wip = false) : Machine.step u = .next (finish u) ∧ Turning s w.target c .idle (finish u) := by
  have busy : w.close ≠ .idle := sound.busy _ (by simp)
  have exec := closingStepReportsOk u w.instr w.close sound.closes h.phase
  refine ⟨(h.step sound r busy idle).trans exec, { h with ctrl := ?_, x := ?_ }⟩
  · show { u.ctrl with phase := .idle } = _
    rw [h.ctrl]
    rfl
  · show { u.x with st := 0x00 } = _
    rw [h.x]
    rfl

/-! ### A switch, whole -/

/-- The dispatch of its request (R302 step 7). -/
theorem Requested.turns (r : Requested w.source w.op s) (sound : w.Sound) :
    ∃ u, Machine.step s = .next u ∧ Turning s w.source s.chip w.read u := by
  have code : decodeRequest s.x.op = .ok w.instr := by rw [r.op]; exact sound.code
  refine ⟨go w.read (accepted s), ?_, ?_⟩
  · rw [step_instr (turn_request (by simp [r.idle]) r.bus (.inr r.req) code), asked_of_idle _ r.idle,
      exec_idle (decodeRequest_code sound.code) r.phase, dispatch_next, sound.first]
    exact .inr (.inr ⟨sound.run s.ctrl r.state r.mapping r.tag, sound.bar s, rfl⟩)
  · exact
      { ctrl := by rw [← r.tag]; rfl
        chip := rfl, optab := rfl, seq := rfl, x := rfl, xport := rfl, wire := r.bus, req := rfl, script := rfl, done := rfl
        undoc := rfl, calls := r.calls }

/-- Write-enable, a busy period and its end leave a status register with both latches clear as it was (R262, R288, R290). -/
theorem complete_sr {c : Chip} (idle : c.wip = false) (wel : c.wel = false) :
    setBit (setBit (c.sr ||| 0x02 ||| 0x01) 0 false) 1 false = c.sr := by
  rw [setBit_false_01]
  have h0 : c.sr[0] = false := idle
  have h1 : c.sr[1] = false := wel
  apply BitVec.eq_of_getLsbD_eq
  intro k hk
  interval_cases k <;> simp [h0, h1]

/-- The chip after a mode switch: only CR2 at address 0, and the mark of log entry 21. -/
def ModeSwitch.turned (w : ModeSwitch) (c : Chip) : Chip := { c with cr20 := w.value c.cr20, pending := .nothing }

/-- A mode switch at a prompt chip with no latch set: eight steps (log entry 16), of which one is the chip's. -/
theorem Requested.turned (r : Requested w.source w.op s) (sound : w.Sound) (prompt : Prompt s) (wel : s.chip.wel = false)
    (rsten : s.chip.rsten = false) :
    ∃ t, (∀ k, run (k + 8) s = run k t) ∧ t.x.st = 0x00 ∧ Turning s w.target (w.turned s.chip) .idle t := by
  obtain ⟨u1, h1, t1⟩ := r.turns sound
  obtain ⟨u2, h2, tmp2, t2⟩ := t1.reads sound r r.chip r.idle
  obtain ⟨u3, h3, tmp3, t3⟩ := t2.enables sound r r.chip r.idle
  obtain ⟨u4, h4, t4⟩ := t3.writes sound r r.chip ((setWel_wip s.chip).trans r.idle) (setWel_wel s.chip) (tmp3.trans tmp2)
  obtain ⟨u5, h5, t5⟩ := t4.completes prompt (by simp [Chip.wip, srWip])
  obtain ⟨u6, h6, t6⟩ := t5.retags sound r (complete_wip _)
  obtain ⟨u7, h7, t7⟩ := t6.polls sound r (sound.mode s.chip r.chip) (complete_wip _)
  obtain ⟨h8, t8⟩ := t7.closes sound r (complete_wip _)
  refine ⟨finish u7, fun k => ?_, rfl, { t8 with chip := t8.chip.trans ?_ }⟩
  · rw [run_succ h1, run_succ h2, run_succ h3, run_succ h4, run_succ h5, run_succ h6, run_succ h7, run_succ h8]
  · simp only [Chip.asked, Chip.complete, ModeSwitch.turned, complete_sr r.idle wel, rsten]

end turning

/-! ### There and back -/

/-- Writing back bits 1:0 clear restores a register that selected Spi (R188). -/
theorem spiValue_opiValue {b : Byte} (h0 : b[0] = false) (h1 : b[1] = false) : spiValue (opiValue b) = b := by
  apply BitVec.eq_of_getLsbD_eq
  intro k hk
  interval_cases k <;> simp [spiValue, opiValue, h0, h1]

/-- There and back the chip keeps all but the mark of log entry 21. -/
theorem turned_turned {c : Chip} (spi : c.emode = some .Spi) :
    switchToSpi.turned (switchToOpi.turned c) = { c with pending := .nothing } := by
  obtain ⟨h0, h1⟩ := (emode_spi c).mp spi
  show { c with cr20 := spiValue (opiValue c.cr20), pending := .nothing } = _
  rw [spiValue_opiValue h0 h1]

/-- The host's next request, after a switch (R26, R30). -/
theorem Turning.requests {s t : State} {m : EMode} {c : Chip} {op : Byte} (h : Turning s m c .idle t)
    (script : s.env.script = [.request op]) (idle : c.wip = false) :
    Machine.step t = .next { t with x.op := op, env.req := true, env.script := [] } := by
  obtain rfl := h.chip
  rw [step_hostMove h.phase h.req h.wire (by simp [idle]) (h.script.trans script), idle]
  rfl

/-- A switch leaves the controller as the request for the way back needs it. -/
theorem Turning.requested {s t : State} {m n : EMode} {c : Chip} {op op' : Byte} (h : Turning s n c .idle t)
    (r : Requested m op s) (mode : c.emode = some n) (idle : c.wip = false) :
    Requested n op' { t with x.op := op', env.req := true, env.script := [] } :=
  { h.connected r.toConnected mode with
    idle := by show t.chip.wip = false; rw [h.chip, idle]
    phase := h.phase
    req := rfl
    op := rfl
    state := by show t.ctrl.cstate = .ready; rw [h.ctrl]; exact r.state
    mapping := by show t.ctrl.mmode = .Direct; rw [h.ctrl]; exact r.mapping
    calls := h.calls }

/-- Settles O53: eight steps there, the host's request, and eight steps back by the same lemma. -/
theorem modeRoundTripRestoresState : Obligations.ModeRoundTripRestoresState := by
  intro s r prompt script wel rsten
  obtain ⟨t, there, st, h⟩ := Requested.turned (w := switchToOpi) r switchToOpi_sound prompt wel rsten
  refine ⟨⟨t, there 0, by rw [h.ctrl]; rfl, h.phase, st, h.chip⟩, ?_⟩
  have asks := h.requests script r.idle
  have r' := h.requested (op' := 0x02) r (switchToOpi_sound.mode s.chip r.chip) r.idle
  obtain ⟨v, back, st', h'⟩ := Requested.turned (w := switchToSpi) r' switchToSpi_sound (h.done.trans prompt)
    (by rw [h.chip]; exact wel) (by rw [h.chip]; exact rsten)
  refine ⟨v, ?run, ?chip, ?ctrl, ?seq, ?xport, ?x, ?undoc⟩
  case run => rw [there 9, run_succ asks 8, back 0]; rfl
  case chip => rw [h'.chip, h.chip]; exact turned_turned r.chip
  case ctrl =>
    calc v.ctrl = { t.ctrl with emode := .Spi, phase := .idle, tmp := v.ctrl.tmp } := h'.ctrl
      _ = { s.ctrl with emode := .Spi, phase := .idle, tmp := v.ctrl.tmp } := by rw [h.ctrl]
      _ = { s.ctrl with tmp := v.ctrl.tmp } := by rw [← r.tag, ← r.phase]
  case seq => rw [h'.seq]; exact h.seq
  case xport => rw [h'.xport]; exact h.xport
  case x =>
    calc v.x = { t.x with op := 0x02, st := v.x.st } := h'.x
      _ = { s.x with op := 0x02, st := 0x00 } := by rw [h.x, st']
  case undoc => rw [h'.undoc]; exact h.undoc

end Sys2Proof.Machine
end

section
/-! PROOFS. One page, one command (R215, R216, R276): the page check and the program command of `page_program` and of a chunk
of `write_memory`; and the micro-steps of the page-split sequencer (R220, R221, R225). -/

namespace Sys2Proof.Machine

/-! ### The page check (R216) -/

/-- At G1 an operation that programs checks the address and the length it will send (R215). -/
theorem exec_check {s : State} {i : Instr} {a : Addr} {n : Nat} (hp : s.ctrl.phase = .g1)
    (operands : i = .pageProgram ∧ a = s.x.a ∧ n = s.x.n.toNat ∨
      i = .writeMemory ∧ a = s.seq.cursor ∧ n = s.seq.chunk.toNat) :
    exec i s = .next (afterCheck a.toNat n s) := by
  obtain ⟨rfl, rfl, rfl⟩ | ⟨rfl, rfl, rfl⟩ := operands
  · exact exec_local rfl (by simp [hp]) (by simp [microCall, mutateCall, hp]) (by simp only [microLocal, hp])
  · exact exec_local rfl (by simp [hp]) (by simp [microCall, mutateCall, hp]) (by simp only [microLocal, hp])

theorem fitsPage_iff {a n : Nat} : fitsPage a n = true ↔ n + a % 256 ≤ 256 := decide_eq_true_iff

/-- Settles O46: both operations make the same check, on natural numbers. -/
theorem pageCheckStep : Obligations.PageCheckStep := by
  refine fun s i a n hp operands => ⟨fun fits => ?passes, fun overflow => ⟨?aborts, rfl, rfl, rfl, rfl⟩⟩
  case passes =>
    rw [exec_check hp operands, afterCheck, if_pos (fitsPage_iff.mpr fits)]
    rfl
  case aborts => rw [exec_check hp operands, afterCheck, if_neg (mt fitsPage_iff.mp (Nat.not_le.mpr overflow))]

/-! ### The page-split sequencer (R220, R225) -/

/-- P1 to P6 make no call. -/
theorem exec_split {s t : State} (label : s.ctrl.phase ∈ [.p1, .p2, .p3, .p4, .p5, .p6])
    (micro : microLocal .writeMemory s = some t) : exec .writeMemory s = .next t := by
  have silent : s.ctrl.phase ≠ .idle ∧ microCall .writeMemory s = none := by
    simp only [microCall, mutateCall]
    revert label
    cases s.ctrl.phase <;> simp
  exact exec_local rfl silent.1 silent.2 micro

/-- Settles O47: each label is one arm of `microLocal`; no narrowing loses a bit. -/
theorem pageSplitSteps : Obligations.PageSplitSteps := by
  refine fun s => ⟨fun hp => ?start, fun hp => ?test, fun hp => ?room, fun hp bound => ?chunk, fun hp => ?body,
    fun hp le cursor produced => ?advance⟩
  case start => exact exec_split (by simp [hp]) (by simp only [microLocal, hp]; rfl)
  case test => exact exec_split (by simp [hp]) (by simp only [microLocal, hp]; rfl)
  case body => exact exec_split (by simp [hp]) (by simp only [microLocal, hp]; rfl)
  case room =>
    refine ⟨_, exec_split (by simp [hp]) (by simp only [microLocal, hp]; rfl), ?_⟩
    have := pageRoom_le s.seq.cursor.toNat
    exact (BitVec.toNat_ofNat _ _).trans (Nat.mod_eq_of_lt (by omega))
  case chunk =>
    refine ⟨_, exec_split (by simp [hp]) (by simp only [microLocal, hp]; rfl), ?_⟩
    exact (BitVec.toNat_ofNat _ _).trans (Nat.mod_eq_of_lt (by omega))
  case advance =>
    refine ⟨_, _, _, exec_split (by simp [hp]) (by simp only [microLocal, hp]; rfl), ?_, ?_, ?_⟩
    · exact (BitVec.toNat_ofNat _ _).trans (Nat.mod_eq_of_lt cursor)
    · exact (BitVec.toNat_ofNat _ _).trans (Nat.mod_eq_of_lt (by omega))
    · exact (BitVec.toNat_ofNat _ _).trans (Nat.mod_eq_of_lt produced)

/-! ### A chunk stays in its page (R221) -/

theorem one_le_pageRoom (a : Nat) : 1 ≤ pageRoom a := by
  unfold pageRoom Config.pageSize
  omega

/-- A chunk of P4 is not empty and ends at the latest where its page does (R221). -/
theorem chunk_fits {s : State} (h : chunkOk s) :
    1 ≤ s.seq.chunk.toNat ∧ s.seq.chunk.toNat + s.seq.cursor.toNat % 256 ≤ 256 := by
  obtain ⟨size, left⟩ := h
  have room := one_le_pageRoom s.seq.cursor.toNat
  have bound : pageRoom s.seq.cursor.toNat = 256 - s.seq.cursor.toNat % 256 := rfl
  omega

/-- Settles O48: at G1 the invariant knows the chunk to be the one P4 made. -/
theorem chunksStayInPage : Obligations.ChunksStayInPage := by
  intro s inv op hp
  obtain ⟨-, -, -, -, -, chunk⟩ :=
    inv.admittedFor (i := .writeMemory) (by simp [hp]) (by rw [op]; rfl)
  obtain ⟨nonempty, page⟩ := chunk_fits (chunk (by simp [hp]))
  exact ⟨nonempty, page, (pageCheckStep s .writeMemory s.seq.cursor s.seq.chunk.toNat hp (.inr ⟨rfl, rfl, rfl⟩)).1 page⟩

/-! ### A page program inside its page (R276) -/

/-- `c'` is the chip `c` with `data` programmed from address `a` up: each byte is ANDed in, no other changes (R224, R276). -/
structure Written (a : Nat) (data : List Byte) (c c' : Chip) : Prop where
  inside : ∀ j b, data[j]? = some b → c'.byte (a + j) = c.byte (a + j) &&& b
  outside : ∀ x, x < a ∨ a + data.length ≤ x → c'.byte x = c.byte x

theorem written_nil (a : Nat) (c : Chip) : Written a [] c c := ⟨by simp, fun _ _ => rfl⟩

/-- Data programmed in two parts, one after the other. -/
theorem Written.append {a : Nat} {d e : List Byte} {c c' c'' : Chip} (h : Written a d c c')
    (k : Written (a + d.length) e c' c'') : Written a (d ++ e) c c'' where
  inside j b hb := by
    by_cases hj : j < d.length
    · rw [List.getElem?_append_left hj] at hb
      rw [k.outside _ (.inl (by omega)), h.inside j b hb]
    · have split : a + j = a + d.length + (j - d.length) := by omega
      rw [List.getElem?_append_right (by omega)] at hb
      rw [split, k.inside _ b hb, h.outside _ (.inr (by omega))]
  outside x hx := by
    rw [List.length_append] at hx
    rw [k.outside x (by omega), h.outside x (by omega)]

/-- Data that ends at the latest where its page does never wraps (R216, R276). -/
theorem pageSlot_of_fits {a j : Nat} (h : j + a % 256 < 256) : pageSlot a j = a + j := by
  have := Nat.mod_le a 256
  simp only [pageSlot, Config.pageSize, Nat.mod_eq_of_lt (show a % 256 + j < 256 by omega)]
  omega

theorem written_program {c : Chip} {a : Nat} {data : List Byte} (memory : c.memoryWf = true) (range : a < Config.capacity)
    (page : data.length + a % 256 ≤ 256) : Written a data c (c.program a data) where
  inside j b hb := by
    obtain ⟨hj, rfl⟩ := List.getElem?_eq_some_iff.mp hb
    simp only [Chip.memoryWf, Bool.and_eq_true] at memory
    have slot := programFrom_read_slot a range data 0 c.array memory.1 j hj (by simp only [Config.pageSize]; omega)
    rwa [Nat.zero_add, pageSlot_of_fits (by omega)] at slot
  outside x hx := by
    simp only [Chip.memoryWf, Bool.and_eq_true] at memory
    refine programFrom_read_other a range data 0 c.array memory.1 x fun j hj => ?_
    rw [Nat.zero_add, pageSlot_of_fits (by omega)]
    omega

/-! ### The program command (R215, R220) -/

/-- At M2 both operations send PAGE_PROGRAM with the slice of `BUF` they are at. -/
theorem microCall_program {s : State} {i : Instr} {a : Addr} {start n : Nat} (hp : s.ctrl.phase = .m2)
    (operands : i = .pageProgram ∧ a = s.x.a ∧ start = 0 ∧ n = s.x.n.toNat ∨
      i = .writeMemory ∧ a = s.seq.cursor ∧ start = s.seq.produced.toNat ∧ n = s.seq.chunk.toNat) :
    (∃ op, i.requestCode = some op) ∧
      microCall i s = some ⟨.pageProgram, some a, .write (slice s.x.buf start n), go .w1⟩ := by
  obtain ⟨rfl, rfl, rfl, rfl⟩ | ⟨rfl, rfl, rfl, rfl⟩ := operands
  · exact ⟨⟨_, rfl⟩, by simp only [microCall, mutateCall, hp]; rfl⟩
  · exact ⟨⟨_, rfl⟩, by simp only [microCall, mutateCall, hp]; rfl⟩

/-- Settles O40: the chip accepts the command, and inside one page its effect is `written_program`. -/
theorem programCommandStep : Obligations.ProgramCommandStep := by
  intro m s i a start n ready hwel memory hp operands nonempty page range whole
  obtain ⟨⟨op, hi⟩, micro⟩ := microCall_program hp operands
  have length : (slice s.x.buf start n).length = n := by
    rw [length_slice]
    omega
  have accepted : response .pageProgram (some a) (.write (slice s.x.buf start n)) s.env.draws s.chip =
      s.chip.mutated fun c => c.program a.toNat (slice s.x.buf start n) := response_of_wel rfl hwel
  have written := written_program (c := s.chip) (data := slice s.x.buf start n) memory range (by rw [length]; exact page)
  have fits : 1 ≤ (slice s.x.buf start n).length ∧ (slice s.x.buf start n).length ≤ Config.pageSize := by
    rw [length, Config.pageSize]
    omega
  refine ⟨(s.chip.program a.toNat (slice s.x.buf start n)).array, _, rfl, ?next, fun j b hj hb => ?inside,
    fun x hx => ?outside⟩
  case next =>
    rw [exec_call hi (by simp [hp]) micro ready.toConnected
      ⟨by simp, ⟨_, rfl, fits⟩, by simp [ready.idle], fits.1, fits.2, range⟩ (by simp), Call.done_plain (by simp)]
    simp only [Lop.uses, Lop.operandAddress, if_true, accepted]
    rw [mutated_eq]
    simp only [Chip.program, length]
    rfl
  case inside =>
    refine written.inside j b ?_
    rw [slice, List.getElem?_take_of_lt hj, List.getElem?_drop, hb]
  case outside => exact written.outside x (by rw [length]; exact hx)

end Sys2Proof.Machine
end

section
/-! PROOFS. The split of a range at the page boundaries (R220, R222, R223), as a list of chunks: what the page-split sequencer
programs (`Looping.leaves`, below). -/

namespace Sys2Proof.Machine

/-- The chunks of the `n` bytes from address `a` up, each an address and a length: what is left of the page, and the split of
the rest (R220). -/
def pageChunks (a n : Nat) : List (Nat × Nat) :=
  if n = 0 then [] else (a, min (pageRoom a) n) :: pageChunks (a + min (pageRoom a) n) (n - min (pageRoom a) n)
termination_by n
decreasing_by
  have := one_le_pageRoom a
  omega

@[simp] theorem pageChunks_zero (a : Nat) : pageChunks a 0 = [] := by
  rw [pageChunks, if_pos rfl]

theorem pageChunks_pos {a n : Nat} (h : 1 ≤ n) :
    pageChunks a n = (a, min (pageRoom a) n) :: pageChunks (a + min (pageRoom a) n) (n - min (pageRoom a) n) := by
  rw [pageChunks, if_neg (by omega)]

/-- A chunk that is not the last ends where its page does. -/
theorem mod_after_chunk {a n : Nat} (h : 1 ≤ n - min (pageRoom a) n) : (a + min (pageRoom a) n) % 256 = 0 := by
  have bound : pageRoom a = 256 - a % 256 := rfl
  omega

/-- One chunk for each page the range touches (R223). -/
theorem length_pageChunks {a n : Nat} (h : 1 ≤ n) : (pageChunks a n).length = (a % 256 + n + 255) / 256 := by
  induction a, n using pageChunks.induct with
  | case1 => omega
  | case2 a n _ ih =>
    have bound : pageRoom a = 256 - a % 256 := rfl
    rw [pageChunks_pos h, List.length_cons]
    by_cases last : n - min (pageRoom a) n = 0
    · rw [last, pageChunks_zero, List.length_nil]
      omega
    · have rest : 1 ≤ n - min (pageRoom a) n := by omega
      rw [ih rest, mod_after_chunk rest]
      omega

/-- The first chunk begins where the range does, and only the empty range has none. -/
theorem head_pageChunks {a n : Nat} :
    (∀ d, (pageChunks a n)[0]? = some d → d.1 = a) ∧ ((pageChunks a n)[0]? = none → n = 0) := by
  by_cases h : n = 0
  · simp [h]
  · rw [pageChunks_pos (by omega)]
    simp

theorem pageChunks_nonempty {a n j : Nat} {c : Nat × Nat} (h : (pageChunks a n)[j]? = some c) : 1 ≤ n := by
  by_contra zero
  rw [show n = 0 by omega, pageChunks_zero] at h
  cases h

/-- The chunks are contiguous, cover the range, stay in their pages, and all but the first begin at a page boundary (R222). -/
theorem getElem?_pageChunks {a n j : Nat} {c : Nat × Nat} (h : (pageChunks a n)[j]? = some c) :
    1 ≤ c.2 ∧ c.1 % 256 + c.2 ≤ 256 ∧ (j = 0 → c.1 = a) ∧ (j ≠ 0 → c.1 % 256 = 0) ∧
      (∀ d, (pageChunks a n)[j + 1]? = some d → d.1 = c.1 + c.2) ∧
      ((pageChunks a n)[j + 1]? = none → c.1 + c.2 = a + n) := by
  induction j generalizing a n with
  | zero =>
    have nonempty := pageChunks_nonempty h
    have bound : pageRoom a = 256 - a % 256 := rfl
    rw [pageChunks_pos nonempty] at h ⊢
    rw [List.getElem?_cons_succ]
    obtain rfl : (a, min (pageRoom a) n) = c := by simpa using h
    obtain ⟨next, last⟩ := head_pageChunks (a := a + min (pageRoom a) n) (n := n - min (pageRoom a) n)
    refine ⟨by omega, by omega, fun _ => rfl, fun h0 => absurd rfl h0, next, fun ends => ?_⟩
    have := last ends
    omega
  | succ j ih =>
    have nonempty := pageChunks_nonempty h
    rw [pageChunks_pos nonempty, List.getElem?_cons_succ] at h ⊢
    have rest := pageChunks_nonempty h
    obtain ⟨pos, page, first, later, next, last⟩ := ih h
    refine ⟨pos, page, fun h0 => absurd h0 (Nat.succ_ne_zero j), fun _ => ?_, next, fun ends => ?_⟩
    · by_cases hj : j = 0
      · rw [first hj, mod_after_chunk rest]
      · exact later hj
    · have := last ends
      omega

end Sys2Proof.Machine
end

section
/-! PROOFS. `write_memory`, whole, under a fair schedule of the completion agent (R220 to R224): one chunk at a time, each
split off, checked, programmed and waited for. -/

namespace Sys2Proof.Machine

/-! ### Counting steps and sent data -/

/-- Under the schedule that gives the answers `pre` and then grants every completion, a run leads from `u` to `v` and leaves
the answers `rest`; of the events `es` the `Ok` writes sent `out`; at a prompt chip it takes `n` steps. -/
structure Leads (pre : List Bool) (n : Nat) (out : List (Nat × List Byte)) (es : List Event) (rest : List Bool)
    (u v : State) : Prop where
  run : ∃ k, (∀ j, run (j + k) u = run j v) ∧ (pre = [] → k = n)
  prompt : pre = [] → rest = []
  sent : es.filterMap Event.sent = out

theorem Leads.trans {pre mid rest : List Bool} {n n' : Nat} {out out' : List (Nat × List Byte)} {es es' : List Event}
    {u v w : State} (h : Leads pre n out es mid u v) (k : Leads mid n' out' es' rest v w) :
    Leads pre (n + n') (out ++ out') (es ++ es') rest u w where
  run := by
    obtain ⟨i, hrun, hi⟩ := h.run
    obtain ⟨i', hrun', hi'⟩ := k.run
    refine ⟨i' + i, fun j => ?_, fun prompt => ?_⟩
    · rw [← Nat.add_assoc, hrun, hrun']
    · rw [hi prompt, hi' (h.prompt prompt), Nat.add_comm]
  prompt prompt := k.prompt (h.prompt prompt)
  sent := by rw [List.filterMap_append, h.sent, k.sent]

/-- One step that makes a call. -/
theorem Leads.call {u v : State} (h : step u = .next v) {pre rest : List Bool} (prompt : pre = [] → rest = []) {e : Event}
    {out : Option (Nat × List Byte)} (sent : e.sent = out) : Leads pre 1 out.toList [e] rest u v := by
  refine ⟨⟨1, run_succ h, fun _ => rfl⟩, prompt, ?_⟩
  rw [← sent]
  cases he : e.sent <;> simp [he]

/-- One step that records no event. -/
theorem Leads.silent {u v : State} (h : step u = .next v) {pre rest : List Bool} (prompt : pre = [] → rest = []) :
    Leads pre 1 [] [] rest u v :=
  ⟨⟨1, run_succ h, fun _ => rfl⟩, prompt, rfl⟩

/-- Of a chip that is not prompt the number of steps says nothing. -/
theorem Leads.withheld {d : Bool} {pre rest : List Bool} {n : Nat} {out : List (Nat × List Byte)} {es : List Event}
    {u v : State} (h : Leads (d :: pre) n out es rest u v) (n' : Nat) : Leads (d :: pre) n' out es rest u v := by
  obtain ⟨k, hrun, -⟩ := h.run
  exact ⟨⟨k, hrun, fun nil => nomatch nil⟩, h.prompt, h.sent⟩

/-! ### The busy-wait of a request in progress, under a fair schedule (R156, R291) -/

/-- The state `b` with `f` as the schedule of the completion agent: what `Serving` compares with once answers are used up. -/
def withDone (f : Feed Bool) (b : State) : State := { b with env.done := f }

@[simp] theorem withDone_seq (f : Feed Bool) (b : State) : (withDone f b).seq = b.seq := rfl
@[simp] theorem withDone_x (f : Feed Bool) (b : State) : (withDone f b).x = b.x := rfl

section serving
variable {m : EMode} {b u : State} {p : Phase} {es : List Event} {i : Instr} {next : Phase}

/-- The completion agent moves when the schedule says so (R290). -/
theorem Serving.granted (h : Serving m b p es u) (hw : u.chip.wip = true) (hdone : b.env.done.head = true) :
    ∃ v, Machine.step u = .next v ∧ v.chip = u.chip.complete ∧ Serving m (withDone b.env.done.tail b) p es v := by
  have hstep : Machine.step u = .next (chipDone (asked u)) := by simp [Machine.step, turn, hw, h.done, hdone]
  rw [asked_eq, if_pos hw, h.done] at hstep
  exact ⟨_, hstep, rfl, { h with done := rfl }⟩

/-- Else the controller polls, and uses up the schedule's answer if the chip is busy (R154, R156). -/
theorem Serving.polled (h : Serving m b .w1 es u) (code : decodeRequest b.x.op = .ok i) (hwait : afterWait i = some next)
    (hdone : (u.chip.wip && b.env.done.head) = false) :
    ∃ e v, Machine.step u = .next v ∧ e.sent = none ∧ v.chip = u.chip.asked ∧
      Serving m (withDone (if u.chip.wip then b.env.done.tail else b.env.done) b) (if u.chip.wip then .w1 else next)
        (es ++ [e]) v := by
  have ha : Serving m (withDone (if u.chip.wip then b.env.done.tail else b.env.done) b) .w1 es (asked u) := by
    rw [asked_eq]
    exact { h with done := by rw [h.done]; rfl }
  have hstep : Machine.step u = exec i (asked u) :=
    step_instr (turn_request (by rw [h.done]; exact hdone) h.bus (.inl (by simp [h.phase])) (by rw [h.x]; exact code))
  rw [busyWaitRound m (asked u) i next hwait ha.phase ha.toConnected, asked_chip] at hstep
  have calls : AllCallsOk (called (asked u) (Machine.okEvent (asked u) .readSr none (some [u.chip.sr])) u.chip.asked
    [u.chip.sr]) := ha.calls.of_tail rfl
  refine ⟨Machine.okEvent (asked u) .readSr none (some [u.chip.sr]), _, hstep, rfl, rfl,
    { ha with phase := rfl, calls := calls, ok := calls.head, chip := h.chip, trace := ?trace }⟩
  case trace =>
    show (asked u).trace ++ _ = _
    rw [ha.trace, List.append_assoc]

/-- A granted completion ends the busy-wait: the next poll sees WIP clear. -/
theorem Serving.waits_granted {pre : List Bool} (h : Serving m (withDone ⟨pre, true⟩ b) .w1 es u)
    (code : decodeRequest b.x.op = .ok i) (hwait : afterWait i = some next) (hw : u.chip.wip = true)
    (hdone : (Feed.mk pre true).head = true) :
    ∃ es' rest v, Leads pre 2 [] es' rest u v ∧ v.chip = u.chip.complete.asked ∧
      Serving m (withDone ⟨rest, true⟩ b) next (es ++ es') v := by
  obtain ⟨v, completes, chip, hv⟩ := h.granted hw hdone
  have idle : v.chip.wip = false := by rw [chip]; exact complete_wip _
  obtain ⟨e, t, polls, sent, chip', ht⟩ := hv.polled code hwait (by simp [idle])
  rw [idle] at ht
  have leads : Leads pre (1 + 1) ([] ++ []) ([] ++ [e]) pre.tail u t :=
    (Leads.silent completes (rest := pre.tail) (by rintro rfl; rfl)).trans (.call polls id sent)
  exact ⟨_, _, t, leads, by rw [chip', chip], ht⟩

/-- However many completions the schedule withholds first, the busy-wait ends, and the chip is idle (R291). -/
theorem Serving.waits {pre : List Bool} (h : Serving m (withDone ⟨pre, true⟩ b) .w1 es u)
    (code : decodeRequest b.x.op = .ok i) (hwait : afterWait i = some next) (hw : u.chip.wip = true) :
    ∃ es' rest v, Leads pre 2 [] es' rest u v ∧ v.chip = u.chip.complete.asked ∧
      Serving m (withDone ⟨rest, true⟩ b) next (es ++ es') v := by
  induction pre generalizing es u with
  | nil => exact h.waits_granted code hwait hw rfl
  | cons d pre ih =>
    cases d with
    | true => exact h.waits_granted code hwait hw rfl
    | false =>
      obtain ⟨e, v, polls, sent, chip, hv⟩ := h.polled code hwait (Bool.and_false _)
      rw [hw] at hv
      obtain ⟨es', rest, t, leads, chip', ht⟩ := ih hv (by rw [chip]; exact hw)
      have whole : Leads (false :: pre) (1 + 2) ([] ++ []) ([e] ++ es') rest u t :=
        (Leads.call polls (by simp) sent).trans leads
      exact ⟨_, rest, t, whole.withheld 2, by rw [chip', chip]; rfl, by simpa using ht⟩

/-! ### Micro-steps without a call (R220) -/

/-- The state `b` with the page-split sequencer at `q`. -/
def withSeq (q : Seq) (b : State) : State := { b with seq := q }

@[simp] theorem withSeq_seq (q : Seq) (b : State) : (withSeq q b).seq = q := rfl
@[simp] theorem withSeq_x (q : Seq) (b : State) : (withSeq q b).x = b.x := rfl

theorem Serving.passes (h : Serving m b p es u) (code : decodeRequest b.x.op = .ok i) (hp : p ≠ .idle)
    (hw : u.chip.wip = false) {p' : Phase} (exec : exec i u = .next { u with ctrl.phase := p' }) :
    ∃ v, Machine.step u = .next v ∧ v.chip = u.chip ∧ Serving m b p' es v :=
  ⟨_, (h.step code hp hw).trans exec, rfl, { h with phase := rfl }⟩

theorem Serving.moves (h : Serving m b p es u) (code : decodeRequest b.x.op = .ok i) (hp : p ≠ .idle)
    (hw : u.chip.wip = false) {p' : Phase} {q : Seq} (exec : exec i u = .next { u with seq := q, ctrl.phase := p' }) :
    ∃ v, Machine.step u = .next v ∧ v.chip = u.chip ∧ Serving m (withSeq q b) p' es v :=
  ⟨_, (h.step code hp hw).trans exec, rfl, { h with phase := rfl, seq := rfl }⟩

/-- P2 with bytes remaining, P3 to P5 and the page check: the chunk ends with its page or with the range (R220, R221). -/
theorem Serving.splits (h : Serving m b .p2 es u) (code : decodeRequest b.x.op = .ok .writeMemory)
    (hw : u.chip.wip = false) (left : 1 ≤ b.seq.remaining.toNat) (pre : List Bool) :
    ∃ q v, Leads pre 5 [] [] pre u v ∧ v.chip = u.chip ∧ Serving m (withSeq q b) .m1 es v ∧ chunkOk (withSeq q b) ∧
      q.cursor = b.seq.cursor ∧ q.remaining = b.seq.remaining ∧ q.produced = b.seq.produced := by
  obtain ⟨-, test, -⟩ := pageSplitSteps u
  have nonzero : u.seq.remaining ≠ 0 := by
    rw [h.seq]
    rintro zero
    simp [zero] at left
  have test := test h.phase
  rw [if_neg nonzero] at test
  obtain ⟨u1, h1, c1, s1⟩ := h.passes code (by simp) hw test
  obtain ⟨-, -, room, -⟩ := pageSplitSteps u1
  obtain ⟨room, exec, size⟩ := room s1.phase
  rw [s1.seq] at exec size
  obtain ⟨u2, h2, c2, s2⟩ := s1.moves code (by simp) (by rw [c1]; exact hw) exec
  obtain ⟨-, -, -, chunk, -⟩ := pageSplitSteps u2
  obtain ⟨chunk, exec, least⟩ := chunk s2.phase (by rw [s2.seq]; show room.toNat ≤ 256; omega)
  rw [s2.seq] at exec least
  obtain ⟨u3, h3, c3, s3⟩ := s2.moves code (by simp) (by rw [c2, c1]; exact hw) exec
  obtain ⟨-, -, -, -, body, -⟩ := pageSplitSteps u3
  obtain ⟨u4, h4, c4, s4⟩ := s3.passes code (by simp) (by rw [c3, c2, c1]; exact hw) (body s3.phase)
  have ok : chunkOk (withSeq { b.seq with maxChunk := room, chunk := chunk } b) := by
    refine ⟨least.trans ?_, left⟩
    show min room.toNat _ = _
    rw [size]
    rfl
  obtain ⟨fits, -⟩ := pageCheckStep u4 .writeMemory u4.seq.cursor u4.seq.chunk.toNat s4.phase (.inr ⟨rfl, rfl, rfl⟩)
  obtain ⟨u5, h5, c5, s5⟩ := s4.passes code (by simp) (by rw [c4, c3, c2, c1]; exact hw)
    (fits (by rw [s4.seq]; exact (chunk_fits ok).2))
  refine ⟨_, u5, ?_, by rw [c5, c4, c3, c2, c1], s5, ok, rfl, rfl, rfl⟩
  exact (Leads.silent h1 id).trans ((Leads.silent h2 id).trans ((Leads.silent h3 id).trans
    ((Leads.silent h4 id).trans (Leads.silent h5 id))))

/-- P6: the chunk moves from `remaining` to `produced`; inside the array no sum wraps (R220, R225). -/
theorem Serving.advances (h : Serving m b .p6 es u) (code : decodeRequest b.x.op = .ok .writeMemory)
    (hw : u.chip.wip = false) (split : splitOk b) (chunk : chunkOk b) :
    ∃ q v, Machine.step u = .next v ∧ v.chip = u.chip ∧ Serving m (withSeq q b) .p2 es v ∧
      q.cursor.toNat = b.seq.cursor.toNat + b.seq.chunk.toNat ∧
      q.remaining.toNat = b.seq.remaining.toNat - b.seq.chunk.toNat ∧
      q.produced.toNat = b.seq.produced.toNat + b.seq.chunk.toNat := by
  obtain ⟨range, cursor, counters⟩ := split
  obtain ⟨size, -⟩ := chunk
  have inside : b.x.a.toNat + b.x.n.toNat ≤ 33554432 := range
  obtain ⟨-, -, -, -, -, advance⟩ := pageSplitSteps u
  rw [h.seq] at advance
  obtain ⟨c, r, p, exec, hc, hr, hp⟩ := advance h.phase (by omega) (by omega) (by omega)
  obtain ⟨v, step, chip, hv⟩ := h.moves code (by simp) hw exec
  exact ⟨_, v, step, chip, hv, hc, hr, hp⟩

/-! ### One chunk, programmed and waited for (R158, R215) -/

/-- The calls of `write_memory`, from what the base state says of the chunk. -/
theorem Serving.microCall_chunk (h : Serving m b p es u) :
    microCall .writeMemory u = mutateCall .pageProgram (some b.seq.cursor) (.write (chunkData b)) .p6 u := by
  show mutateCall .pageProgram (some u.seq.cursor) (.write (slice u.x.buf u.seq.produced.toNat u.seq.chunk.toNat)) .p6 u = _
  rw [h.seq, h.x]
  rfl

/-- M1, the write-enable, sends no data (R152). -/
theorem Serving.enables_chunk (h : Serving m b .m1 es u) (code : decodeRequest b.x.op = .ok .writeMemory)
    (hw : u.chip.wip = false) :
    ∃ e v, Machine.step u = .next v ∧ e.sent = none ∧ v.chip = { u.chip.setWel with rsten := false } ∧
      Serving m b .m2 (es ++ [e]) v := by
  have micro := h.microCall_chunk
  rw [mutateCall, h.phase] at micro
  obtain ⟨e, v, step, chip, rfl, hv⟩ := h.call code (by simp) hw micro
    ⟨by simp [Lop.operandAddress], rfl, by simp [hw], trivial⟩ (by simp) h.chip rfl rfl
  exact ⟨_, v, step, rfl, chip, hv⟩

/-- A chunk of P4 takes its data whole from the buffer (R215, R222). -/
theorem length_chunkData (split : splitOk b) (chunk : chunkOk b) (buf : b.x.buf.length = b.x.n.toNat) :
    (chunkData b).length = b.seq.chunk.toNat := by
  obtain ⟨-, -, counters⟩ := split
  obtain ⟨size, -⟩ := chunk
  rw [chunkData, length_slice, buf]
  omega

/-- And it is data for one page program inside the array (R221, R276). -/
theorem programmable_chunk (split : splitOk b) (chunk : chunkOk b) (buf : b.x.buf.length = b.x.n.toNat) :
    Programmable b.seq.cursor (chunkData b) := by
  have nonempty : b.x.n ≠ 0 := by
    obtain ⟨-, -, counters⟩ := split
    obtain ⟨-, left⟩ := chunk
    rintro zero
    simp only [zero, BitVec.ofNat_eq_ofNat, BitVec.toNat_ofNat, Nat.zero_mod] at counters
    omega
  exact programmable_chunkData (s := go .m2 b)
    (admittedFor_of_splitOk split nonempty (fun hp => nomatch hp) (fun hp => nomatch hp) fun _ => chunk) buf rfl

/-- The event of a program command shows the address and the data sent (R148). -/
theorem sent_program {t : Config.OpTab} (table : OpTab.wf t = true) (m : EMode) (a : Addr) (data : List Byte) (op : Nat) :
    Event.sent (.call (callKind Lop.pageProgram.dir) (build t m .pageProgram (some a)) (some data) true op) =
      some (a.toNat, data) := by
  show Option.map _ (build t m .pageProgram (some a)).address = _
  rw [build_address_operand table rfl]
  rfl

/-- The mutation sequence of a chunk: one program command, whose bytes are ANDed into the array (R158, R276). -/
theorem Serving.programs {pre : List Bool} (h : Serving m (withDone ⟨pre, true⟩ b) .m1 es u)
    (code : decodeRequest b.x.op = .ok .writeMemory) (hw : u.chip.wip = false) (memory : u.chip.memoryWf = true)
    (split : splitOk b) (chunk : chunkOk b) (buf : b.x.buf.length = b.x.n.toNat) :
    ∃ es' rest v, Leads pre 4 [(b.seq.cursor.toNat, chunkData b)] es' rest u v ∧
      v.chip.wip = false ∧ v.chip.memoryWf = true ∧ Written b.seq.cursor.toNat (chunkData b) u.chip v.chip ∧
      Serving m (withDone ⟨rest, true⟩ b) .p6 (es ++ es') v := by
  obtain ⟨nonempty, length, range⟩ := programmable_chunk split chunk buf
  have page : (chunkData b).length + b.seq.cursor.toNat % 256 ≤ 256 := by
    rw [length_chunkData split chunk buf]
    exact (chunk_fits chunk).2
  obtain ⟨e1, u1, h1, sent1, c1, s1⟩ := h.enables_chunk code hw
  have idle : u1.chip.wip = false := by rw [c1]; exact (setWel_wip _).trans hw
  obtain ⟨u2, h2, c2, s2⟩ := s1.mutates code idle (by rw [c1]; exact setWel_wel _) s1.microCall_chunk
    ⟨by simp, ⟨_, rfl, nonempty, length⟩, by simp [idle], nonempty, length, range⟩ rfl (by simp)
  obtain ⟨es', rest, u3, h3, c3, s3⟩ := s2.waits (b := b) code rfl (by rw [c2]; exact raiseWip_wip _)
  have table : OpTab.wf b.optab = true := by
    rw [← (show u.optab = b.optab from h.optab)]
    exact h.table
  have chip : u3.chip = ((({ u.chip.setWel with rsten := false }).mutated
      fun c => c.program b.seq.cursor.toNat (chunkData b)).complete).asked := by
    rw [c3, c2, c1]
    rfl
  have written := written_program memory range page
  refine ⟨_, rest, u3, (Leads.call h1 id sent1).trans ((Leads.call h2 id (sent_program table ..)).trans h3), ?idle, ?memory, ?written,
    by rw [List.append_assoc, List.append_assoc] at s3; exact s3⟩
  case idle => rw [chip]; exact complete_wip _
  case memory => rw [chip]; exact Chip.program_memoryWf u.chip _ _ range memory
  case written => rw [chip]; exact ⟨written.inside, written.outside⟩

end serving

/-! ### The loop (R220, R222, R224) -/

/-- `write_memory` at P2 with the sequencer as in `b`: the chip is idle, the answers `pre` are left, and the counters add up. -/
structure Looping (m : EMode) (b : State) (pre : List Bool) (es : List Event) (u : State) : Prop
    extends Serving m (withDone ⟨pre, true⟩ b) .p2 es u where
  code : decodeRequest b.x.op = .ok .writeMemory
  idle : u.chip.wip = false
  memory : u.chip.memoryWf = true
  buf : b.x.buf.length = b.x.n.toNat
  split : splitOk b

/-- The address and the data that `write_memory` with the operands `x` sends for a chunk (R222). -/
def chunkSent (x : HostIf) (c : Nat × Nat) : Nat × List Byte := (c.1, slice x.buf (c.1 - x.a.toNat) c.2)

theorem slice_append_drop (buf : List Byte) (start n : Nat) :
    slice buf start n ++ buf.drop (start + n) = buf.drop start := by
  rw [slice, ← List.drop_drop, List.take_append_drop]

section looping
variable {m : EMode} {b u : State} {pre : List Bool} {es : List Event}

/-- M1 to P6: a chunk that fits is programmed, and the loop goes on behind it. -/
theorem Serving.round (h : Serving m (withDone ⟨pre, true⟩ b) .m1 es u) (code : decodeRequest b.x.op = .ok .writeMemory)
    (hw : u.chip.wip = false) (memory : u.chip.memoryWf = true) (split : splitOk b) (chunk : chunkOk b)
    (buf : b.x.buf.length = b.x.n.toNat) :
    ∃ q es' rest v, Leads pre 5 [(b.seq.cursor.toNat, chunkData b)] es' rest u v ∧
      Looping m (withSeq q b) rest (es ++ es') v ∧ Written b.seq.cursor.toNat (chunkData b) u.chip v.chip ∧
      q.cursor.toNat = b.seq.cursor.toNat + b.seq.chunk.toNat ∧
      q.remaining.toNat = b.seq.remaining.toNat - b.seq.chunk.toNat ∧
      q.produced.toNat = b.seq.produced.toNat + b.seq.chunk.toNat := by
  obtain ⟨es', rest, u1, h1, w1, memory1, written, s1⟩ := h.programs code hw memory split chunk buf
  obtain ⟨q, v, h2, c2, s2, cursor', remaining', produced'⟩ := s1.advances code w1 split chunk
  simp only [withDone_seq] at cursor' remaining' produced'
  have leads : Leads pre (4 + 1) ([(b.seq.cursor.toNat, chunkData b)] ++ []) (es' ++ []) rest u v :=
    h1.trans (Leads.silent h2 id)
  rw [List.append_nil, List.append_nil] at leads
  rw [← c2] at w1 memory1 written
  have split' : splitOk (withSeq q b) := by
    obtain ⟨range, cursor, counters⟩ := split
    obtain ⟨size, -⟩ := chunk
    refine ⟨range, ?_, ?_⟩ <;> rw [withSeq_seq, withSeq_x] <;> omega
  exact ⟨q, es', rest, v, leads, { s2 with code, idle := w1, memory := memory1, buf, split := split' }, written, cursor',
    remaining', produced'⟩

/-- Once around the loop: the first chunk of what remains has been programmed, and the rest remains. -/
theorem Looping.chunk (h : Looping m b pre es u) (left : 1 ≤ b.seq.remaining.toNat) {c : Nat}
    (size : c = min (pageRoom b.seq.cursor.toNat) b.seq.remaining.toNat) :
    ∃ q es' rest v, Leads pre 10 [chunkSent b.x (b.seq.cursor.toNat, c)] es' rest u v ∧
      Looping m (withSeq q b) rest (es ++ es') v ∧
      Written b.seq.cursor.toNat (slice b.x.buf b.seq.produced.toNat c) u.chip v.chip ∧
      q.cursor.toNat = b.seq.cursor.toNat + c ∧ q.remaining.toNat = b.seq.remaining.toNat - c ∧
      q.produced.toNat = b.seq.produced.toNat + c := by
  obtain ⟨q1, u1, h1, c1, s1, chunk, cursor1, remaining1, produced1⟩ := h.toServing.splits h.code h.idle left pre
  have chunk : chunkOk (withSeq q1 b) := chunk
  rw [withDone_seq] at cursor1 remaining1 produced1
  have split : splitOk (withSeq q1 b) := by
    rw [splitOk, withSeq_seq, withSeq_x, cursor1, remaining1, produced1]
    exact h.split
  have length : q1.chunk.toNat = c := by
    rw [size, ← cursor1, ← remaining1]
    exact chunk.1
  obtain ⟨q, es', rest, v, h2, s2, written, cursor2, remaining2, produced2⟩ :=
    Serving.round (b := withSeq q1 b) s1 h.code (by rw [c1]; exact h.idle) (by rw [c1]; exact h.memory) split chunk h.buf
  have sent : chunkSent b.x (b.seq.cursor.toNat, c) = (b.seq.cursor.toNat, slice b.x.buf b.seq.produced.toNat c) := by
    obtain ⟨-, cursor, -⟩ := h.split
    simp only [chunkSent, cursor, Nat.add_sub_cancel_left]
  simp only [chunkData, withSeq_seq, withSeq_x, cursor1, remaining1, produced1, length, ← sent, c1]
    at h2 written cursor2 remaining2 produced2
  exact ⟨q, es', rest, v, h1.trans h2, s2, written, cursor2, remaining2, produced2⟩

/-- The loop programs the chunks of what remains, one after the other, and leaves for P7. -/
theorem Looping.leaves {cs : List (Nat × Nat)} (h : Looping m b pre es u)
    (chunks : pageChunks b.seq.cursor.toNat b.seq.remaining.toNat = cs) :
    ∃ q es' rest v, Leads pre (10 * cs.length + 1) (cs.map (chunkSent b.x)) es' rest u v ∧
      Written b.seq.cursor.toNat (b.x.buf.drop b.seq.produced.toNat) u.chip v.chip ∧ v.chip.wip = false ∧
      Serving m (withDone ⟨rest, true⟩ (withSeq q b)) .p7 (es ++ es') v := by
  induction cs generalizing b u pre es with
  | nil =>
    obtain ⟨-, cursor, counters⟩ := h.split
    have zero : b.seq.remaining.toNat = 0 := by
      by_contra left
      rw [pageChunks_pos (by omega)] at chunks
      cases chunks
    obtain ⟨-, test, -⟩ := pageSplitSteps u
    have test := test h.phase
    have done : u.seq.remaining = 0 := by rw [h.seq]; exact BitVec.eq_of_toNat_eq zero
    rw [if_pos done] at test
    obtain ⟨v, step, chip, hv⟩ := h.toServing.passes h.code (by simp) h.idle test
    have all : b.x.buf.drop b.seq.produced.toNat = [] := List.drop_eq_nil_of_le (by rw [h.buf]; omega)
    refine ⟨b.seq, [], pre, v, Leads.silent step id, ?_, by rw [chip]; exact h.idle, by rw [List.append_nil]; exact hv⟩
    rw [all, chip]
    exact written_nil _ _
  | cons c cs ih =>
    have left : 1 ≤ b.seq.remaining.toNat := by
      by_contra zero
      rw [show b.seq.remaining.toNat = 0 by omega, pageChunks_zero] at chunks
      cases chunks
    obtain ⟨k, size⟩ : ∃ k, k = min (pageRoom b.seq.cursor.toNat) b.seq.remaining.toNat := ⟨_, rfl⟩
    rw [pageChunks_pos left, ← size] at chunks
    obtain ⟨rfl, rest⟩ := List.cons.inj chunks
    obtain ⟨q1, es1, mid, u1, h1, s1, w1, cursor, remaining, produced⟩ := h.chunk left size
    obtain ⟨q, es2, last, v, h2, w2, idle, s2⟩ := ih s1 (by rw [withSeq_seq, cursor, remaining]; exact rest)
    refine ⟨q, es1 ++ es2, last, v, ?leads, ?written, idle, by rw [← List.append_assoc]; exact s2⟩
    case leads =>
      rw [List.map_cons, List.length_cons, show 10 * (cs.length + 1) + 1 = 10 + (10 * cs.length + 1) by omega]
      exact h1.trans h2
    case written =>
      obtain ⟨-, -, counters⟩ := h.split
      have length : (slice b.x.buf b.seq.produced.toNat k).length = k := by
        rw [length_slice, h.buf]
        omega
      rw [withSeq_seq, withSeq_x, cursor, produced] at w2
      rw [← slice_append_drop b.x.buf b.seq.produced.toNat k]
      exact w1.append (by rw [length]; exact w2)

end looping

/-! ### The request, whole (R220, R222, R224) -/

/-- `write_memory` returns under any fair schedule: it has sent the chunks of its range, and they are in the array; at a
prompt chip it takes ten steps for each. -/
theorem writeMemory_run {m : EMode} {s : State} (r : Requested m 0x0A s) (fair : Fair s) (memory : s.chip.memoryWf = true)
    (buf : s.x.buf.length = s.x.n.toNat) (range : s.x.a.toNat + s.x.n.toNat ≤ Config.capacity) :
    ∃ k t es, run k s = .next t ∧ (Prompt s → k = 4 + 10 * (pageChunks s.x.a.toNat s.x.n.toNat).length) ∧
      t.ctrl.phase = .idle ∧ t.x.st = 0x00 ∧ t.ctrl.cstate = .ready ∧ t.trace = s.trace ++ es ∧
      es.filterMap Event.sent = (pageChunks s.x.a.toNat s.x.n.toNat).map (chunkSent s.x) ∧
      Written s.x.a.toNat s.x.buf s.chip t.chip := by
  have code : decodeRequest s.x.op = .ok .writeMemory := by rw [r.op]; rfl
  have admitted : barOf .writeMemory s = none := by
    rw [barOf, writeBar]
    split
    · rfl
    · exact rangeBar_eq_none.mpr range
  have dispatched := r.dispatched (i := .writeMemory) rfl (by decide) (by decide) admitted
  obtain ⟨start, -⟩ := pageSplitSteps (go .p1 (accepted s))
  obtain ⟨u, started, chip, serving⟩ := (r.serving .p1).moves code (by simp) r.idle (start rfl)
  have schedule : s.env.done = ⟨s.env.done.pre, true⟩ := by rw [← (show s.env.done.rest = true from fair)]
  have looping : Looping m (withSeq { s.seq with remaining := s.x.n, cursor := s.x.a, produced := 0 } (go .p1 (accepted s)))
      s.env.done.pre [] u :=
    { serving with
      done := serving.done.trans schedule
      code := code
      idle := by rw [chip]; exact r.idle
      memory := by rw [chip]; exact memory
      buf := buf
      split := ⟨range, rfl, Nat.zero_add _⟩ }
  obtain ⟨q, es, rest, v, loop, written, idle, serving⟩ := looping.leaves rfl
  have closed : step v = .next (finish v) :=
    (serving.step code (by simp) idle).trans (closingStepReportsOk v .writeMemory .p7 rfl serving.phase)
  have leads := (Leads.silent dispatched id).trans ((Leads.silent started id).trans (loop.trans (Leads.silent closed id)))
  obtain ⟨k, hrun, prompt⟩ := leads.run
  refine ⟨k, finish v, es, ?run, fun hp => ?steps, rfl, rfl, ?ready, serving.trace, ?sent, ?written⟩
  case run =>
    have := hrun 0
    rw [Nat.zero_add] at this
    exact this
  case steps =>
    have done : s.env.done.pre = [] := by rw [show s.env.done = ⟨[], true⟩ from hp]
    rw [prompt done]
    show 1 + (1 + (10 * (pageChunks s.x.a.toNat s.x.n.toNat).length + 1 + 1)) = _
    omega
  case ready => exact serving.cstate.trans r.state
  case sent => exact loop.sent
  case written =>
    rw [chip] at written
    exact written

/-- Settles O56: what `writeMemory_run` says of the array. -/
theorem writeMemoryFinalEffect : Obligations.WriteMemoryFinalEffect := by
  intro m s r fair memory buf range
  obtain ⟨k, t, es, hrun, -, idle, st, ready, -, -, written⟩ := writeMemory_run r fair memory buf range
  exact ⟨k, t, hrun, idle, st, ready, written.inside, fun x hx => written.outside x (by rw [buf]; exact hx)⟩

/-- Settles O57: what `writeMemory_run` says of the commands, and what `pageChunks` is. -/
theorem writeMemorySplitsAtPages : Obligations.WriteMemorySplitsAtPages := by
  intro m s r prompt memory buf nonempty range
  have fair : Fair s := by rw [Fair, show s.env.done = ⟨[], true⟩ from prompt]
  obtain ⟨k, t, es, hrun, steps, idle, st, -, trace, sent, -⟩ := writeMemory_run r fair memory buf range
  rw [steps prompt] at hrun
  exact ⟨t, pageChunks s.x.a.toNat s.x.n.toNat, es, length_pageChunks nonempty, hrun, idle, st, trace, sent,
    fun _ _ => getElem?_pageChunks⟩

end Sys2Proof.Machine
end

section
/-! PROOFS. The command of an erase (R230 to R232, R278 to R280): the micro-step M2 of the three erase operations. -/

namespace Sys2Proof.Machine

section erases
variable {x : HostIf} {i : Instr} {l : Lop} {a : Option Addr} {lo hi : Nat}

/-- With the write latch set, the chip erases the range of the operation, and WIP rises (R278 to R280, R288). -/
theorem Erases.response_eq (h : Erases x i l a lo hi) {c : Chip} (hwel : c.wel = true) (k : Nat) :
    response l (Lop.uses l a) .none k c = { c.erase lo hi with sr := c.sr ||| 0x01, rsten := false } := by
  obtain ⟨mutating, -, -, -⟩ := h.command
  rw [response_of_wel mutating hwel, mutated_eq, h.effect]
  rfl

/-- An erase command draws nothing, writes no register and brings no answer. -/
theorem Erases.plain (h : Erases x i l a lo hi) (c : Chip) (rx : List Byte) :
    l ≠ .resetMemory ∧ l ∉ [.writeSrCr, .writeCr2] ∧ answerOf l (Lop.uses l a) .none c rx = rx := by
  have kind := h.kind
  simp only [List.mem_cons, List.not_mem_nil, or_false] at kind
  obtain rfl | rfl | rfl := kind <;> exact ⟨by simp, by simp, rfl⟩

/-- At M2 an erase operation sends its command, with no data, and goes on to the poll (R158, R230 to R232). -/
theorem Erases.exec_command {m : EMode} {s : State} {op : Byte} (h : Erases s.x i l a lo hi)
    (code : i.requestCode = some op) (ready : Ready m s) (hwel : s.chip.wel = true) (hp : s.ctrl.phase = .m2) :
    exec i s = .next (go .w1 (called s (okEvent s l a none)
      { s.chip.erase lo hi with sr := s.chip.sr ||| 0x01, rsten := false } s.env.rx)) := by
  have micro : microCall i s = some ⟨l, a, .none, go .w1⟩ := by rw [h.micro s rfl, mutateCall, hp]
  obtain ⟨notReset, unmarked, noAnswer⟩ := h.plain s.chip s.env.rx
  rw [exec_call code (by simp [hp]) micro ready.toConnected (h.served ready.idle) notReset, Call.done_plain unmarked]
  simp only [noAnswer, h.response_eq hwel]
  rfl

end erases

/-- Settles O41: each operation is its erase, and `Chip.byte_erase` says what the array then reads. -/
theorem eraseCommandStep : Obligations.EraseCommandStep := by
  intro m s i l a lo hi ready hwel hp operands
  obtain ⟨⟨op, code⟩, erases⟩ : (∃ op, i.requestCode = some op) ∧ Erases s.x i l a lo hi := by
    obtain ⟨rfl, rfl, rfl, ha, rfl, rfl⟩ | ⟨rfl, rfl, rfl, ha, rfl, rfl⟩ | ⟨rfl, rfl, rfl, rfl, rfl⟩ := operands
    · exact ⟨⟨_, rfl⟩, erases_sector ha⟩
    · exact ⟨⟨_, rfl⟩, erases_block ha⟩
    · exact ⟨⟨_, rfl⟩, erases_chip s.x⟩
  exact ⟨(s.chip.erase lo hi).array, _, rfl, erases.exec_command code ready hwel hp, s.chip.byte_erase lo hi⟩

end Sys2Proof.Machine
end

section
/-! PROOFS. `enable_memory_mapped`, whole, and the load right after it (R240, R248, R250). -/

namespace Sys2Proof.Machine

/-- The window does not run past the address space (R9). -/
theorem window_fits : Config.mmBase + Config.capacity ≤ 2 ^ 32 := by
  have choice := Nat.mod_lt Config.mmBaseChoice (Nat.succ_pos ((2 ^ 32 - Config.capacity) / 4))
  rw [Config.mmBase]
  simp only [Config.capacity] at *
  omega

/-- So every byte of the array has a window address (R248). -/
theorem toNat_windowAddress {off : Nat} (h : off < Config.capacity) :
    (BitVec.ofNat 32 (Config.mmBase + off)).toNat = Config.mmBase + off := by
  have fits := window_fits
  rw [BitVec.toNat_ofNat, Nat.mod_eq_of_lt (by omega)]

/-- The request of `s` accepted, and the two templates of its mode handed over (R240, E2). -/
def handedOver (s : State) : State :=
  enablePassthrough (readTemplate s.optab s.ctrl.emode) (writeTemplate s.optab s.ctrl.emode) (accepted s)

/-- The state in which `enable_memory_mapped`, requested in `s`, completes (R240, E3). -/
def windowOpened (s : State) : State := finish { handedOver s with ctrl.mmode := .MemoryMapped }

/-- While the operands, the bus and the chip are as the request found them, a label of the operation is its step. -/
theorem Requested.step_enabling {m : EMode} {s : State} (r : Requested m 0x0F s) (p : Phase) (u : State) (hp : p ≠ .idle)
    (x : u.x = s.x) (wire : u.env.wire = s.env.wire) (chip : u.chip = s.chip) :
    step (go p u) = exec .enableMemoryMapped (go p u) := by
  refine step_micro (wire.trans r.bus) hp ?idle ?code
  case idle => rw [go_chip, chip]; exact r.idle
  case code => rw [go_x, x, r.op]; rfl

/-- The request takes its dispatch and its three labels, four steps (R240, log entry 16). -/
theorem Requested.opensWindow {m : EMode} {s : State} (r : Requested m 0x0F s) (k : Nat) :
    run (k + 4) s = run k (windowOpened s) := by
  have dispatched : step s = .next (go .e1 (accepted s)) := r.dispatched rfl (by decide) (by decide) rfl
  have built : step (go .e1 (accepted s)) = .next (go .e2 (accepted s)) := by
    obtain ⟨builds, -⟩ := memoryMappedToggleSteps (go .e1 (accepted s))
    exact (r.step_enabling .e1 (accepted s) (by simp) rfl rfl rfl).trans (builds rfl)
  have handed : step (go .e2 (accepted s)) = .next (go .e3 (handedOver s)) := by
    obtain ⟨-, hands, -⟩ := memoryMappedToggleSteps (go .e2 (accepted s))
    obtain ⟨rt, wt, hstep, rfl, rfl, -⟩ := hands rfl
    exact (r.step_enabling .e2 (accepted s) (by simp) rfl rfl rfl).trans hstep
  have tagged : step (go .e3 (handedOver s)) = .next (windowOpened s) := by
    obtain ⟨-, -, tags, -⟩ := memoryMappedToggleSteps (go .e3 (handedOver s))
    exact (r.step_enabling .e3 (handedOver s) (by simp) rfl rfl rfl).trans (tags rfl)
  exact (run_succ dispatched _).trans ((run_succ built _).trans ((run_succ handed _).trans (run_succ tagged _)))

/-- Settles O60: four steps open the window with the mode's own template, and the fifth is the load of
`WindowLoadReadsArray`, whose value is its one byte. -/
theorem mappedWindowShowsArray : Obligations.MappedWindowShowsArray := by
  intro m s off r hoff script
  have offset := toNat_windowAddress hoff
  have template : (windowOpened s).xport.rdTpl = some (readTemplate s.optab m) := by rw [← r.tag]; rfl
  obtain ⟨bytes, -, -, loaded⟩ := windowLoadReadsArray m (windowOpened s) 1 _ _ [] rfl rfl r.bus script r.table rfl
    template r.chip r.idle (by omega) (by omega) (Nat.mod_one _) (.inl ⟨rfl, by simp⟩)
  refine ⟨_, (r.opensWindow 1).trans (run_succ loaded 0), rfl, r.tag, rfl, ?value, rfl⟩
  case value =>
    show ∑ k ∈ Finset.range 1, (s.chip.byte (_ - Config.mmBase + k)).toNat * 256 ^ k = _
    rw [Finset.sum_range_one, pow_zero, mul_one, offset, Nat.add_sub_cancel_left, add_zero]

end Sys2Proof.Machine
end

section
/-! PROOFS. The chip by itself: its completion agent (R290), and what it makes of the wire commands of spec file 48 (R260 to
R268, R276 to R280), accepted, answered or ignored. -/

namespace Sys2Proof.Machine

/-! ### The completion agent (R290) -/

theorem ctrlTurn_ne_chipDone (s : State) : ctrlTurn s ≠ .chipDone := by
  unfold ctrlTurn
  split
  · simp
  · split <;> simp

/-- `CHIP.done` has the turn exactly when WIP is 1 and the schedule lets it. -/
theorem turn_eq_chipDone {s : State} : turn s = .chipDone ↔ s.chip.wip = true ∧ s.env.done.head = true := by
  rw [← Bool.and_eq_true]
  by_cases h : (s.chip.wip && s.env.done.head) = true
  · simp [turn, h]
  · have other : turn s ≠ .chipDone := by
      unfold turn
      rw [if_neg h]
      split
      · split <;> simp
      · split
        · simp
        · exact ctrlTurn_ne_chipDone s
    simp [h, other]

theorem complete_eq (c : Chip) : c.complete = { c with sr := c.sr &&& 0xFC } := by
  rw [Chip.complete, setBit_false_01]
  rfl

/-- Settles O7: the agent has the turn exactly then, and `complete` clears bits 1:0 of the status register. -/
theorem completionAgentClearsWipAndWel : Obligations.CompletionAgentClearsWipAndWel := by
  refine fun s => ⟨fun hwip hdone => ?_, fun _ hdone => ?_, fun hwip => ?_⟩
  · rw [step, turn_eq_chipDone.mpr ⟨hwip, hdone⟩, asked_eq, if_pos hwip]
    simp only [chipDone, complete_eq]
  · simp [turn_eq_chipDone, hdone]
  · simp [turn_eq_chipDone, hwip]

/-! ### A wire command the chip takes (R255, R256) -/

section taken
variable {i : Instr} {m : EMode} {l : Lop} {a : Option Addr} {p : Payload} {s : State}

/-- The chip in the command's format, idle or only asked for its status, takes a command whose range lies in the array: its
response and its answer, and nothing else changes. RESET_MEMORY alone draws as well. -/
theorem exec_taken (hi : i.wireParts = some (m, l, a, p)) (hm : s.chip.emode = some m)
    (hw : s.chip.wip = true → l = .readSr) (hr : reaches l a p) (hl : l ≠ .resetMemory) :
    exec i s = .next { s with
      chip := response l a p s.env.draws s.chip
      env.wire := none
      env.rx := answerOf l a p s.chip s.env.rx
      env.undoc := s.env.undoc || marks l a p s.chip } := by
  obtain ⟨t, ht⟩ := chipStep_answers hi hm hw hr
  obtain ⟨-, -, -, d, u, rfl, rfl, hd⟩ := chipStep_next hi ht
  rw [exec_wire hi, ht, hd hl]

/-- A mutating command brings no answer. -/
theorem answerOf_mutating (hl : l.mutating = true) (c : Chip) (rx : List Byte) : answerOf l a p c rx = rx := by
  cases l
  case writeSrCr | writeCr2 | pageProgram | sectorErase | blockErase64k | chipErase => rfl
  all_goals cases hl

theorem mutating_ne_reset (hl : l.mutating = true) : l ≠ .resetMemory := by
  rintro rfl
  cases hl

/-- A mutating command that finds WEL clear (R350). -/
theorem response_of_not_wel (hl : l.mutating = true) {k : Nat} {c : Chip} (hw : c.wel = false) :
    response l a p k c = c.asked := by
  cases l
  case writeSrCr | writeCr2 | pageProgram | sectorErase | blockErase64k | chipErase =>
    exact if_neg (by rw [hw]; exact Bool.false_ne_true)
  all_goals cases hl

/-- An ignored command stores nothing (log entry 9). -/
theorem marks_of_not_wel {c : Chip} (hw : c.wel = false) : marks l a p c = false := by
  unfold marks
  split
  · rw [hw, Bool.false_and]
  · rw [hw, Bool.false_and]
  · rfl

theorem exec_ignored (hi : i.wireParts = some (m, l, a, p)) (hm : s.chip.emode = some m) (hwip : s.chip.wip = false)
    (hr : reaches l a p) (hl : l.mutating = true) (hwel : s.chip.wel = false) : exec i s = .next (ignored s) := by
  rw [exec_taken hi hm (by simp [hwip]) hr (mutating_ne_reset hl), response_of_not_wel hl hwel, marks_of_not_wel hwel,
    answerOf_mutating hl, Bool.or_false]
  rfl

theorem exec_accepted (hi : i.wireParts = some (m, l, a, p)) (hm : s.chip.emode = some m) (hwip : s.chip.wip = false)
    (hr : reaches l a p) (hl : l.mutating = true) (hwel : s.chip.wel = true) :
    exec i s = .next (altered s (effectOf l a p) (marks l a p s.chip)) := by
  rw [exec_taken hi hm (by simp [hwip]) hr (mutating_ne_reset hl), response_of_wel hl hwel, answerOf_mutating hl]
  rfl

/-- A well-formed mutating command with its address inside the array lacks nothing the chip asks (R268 to R280). -/
theorem reaches_of_mutating (hi : i.wireParts = some (m, l, a, p)) (hwf : i.wf = true) (hl : l.mutating = true)
    (range : ∀ b, a = some b → l ≠ .writeCr2 → b.toNat < Config.capacity) : reaches l a p := by
  cases i
  case writeSrCrSpi | writeSrCrOpi | writeCr2Spi | writeCr2Opi | chipEraseSpi | chipEraseOpi => cases hi; trivial
  case pageProgramSpi | pageProgramOpi =>
    cases hi
    obtain ⟨nonempty, page⟩ := of_decide_eq_true hwf
    exact ⟨nonempty, page, range _ rfl (by simp)⟩
  case sectorEraseSpi | sectorEraseOpi | blockErase64kSpi | blockErase64kOpi => cases hi; exact range _ rfl (by simp)
  all_goals cases hi <;> cases hl

end taken

/-- Settles O34: the chip takes the command and ignores it. -/
theorem mutatingCommandsIgnoredWithoutWel : Obligations.MutatingCommandsIgnoredWithoutWel :=
  fun _ _ _ _ _ _ hi hwf hl hm hwip hwel range => exec_ignored hi hm hwip (reaches_of_mutating hi hwf hl range) hl hwel

/-! ### The latches (R260, R262) -/

section latches
variable {m : EMode} {s : State}

theorem chipResetEnable_idle (hm : s.chip.emode = some m) (hw : s.chip.wip = false) :
    chipResetEnable m s = .next { s with chip.rsten := true, env.wire := none } := chipAccept_idle hm hw

theorem chipWriteEnable_idle (hm : s.chip.emode = some m) (hw : s.chip.wip = false) :
    chipWriteEnable m s =
      .next { s with chip := { s.chip with sr := s.chip.sr ||| 0x02, rsten := false }, env.wire := none } := by
  rw [chipWriteEnable, chipAccept_idle hm hw, Chip.setWel, setBit_true_1]
  rfl

theorem chipResetMemory_ignored (hm : s.chip.emode = some m) (hw : s.chip.wip = false) (latch : s.chip.rsten = false) :
    chipResetMemory m s = .next { s with env.wire := none } := by
  rw [chipResetMemory, chipAccept_idle hm hw]
  exact if_neg (by rw [latch]; exact Bool.false_ne_true)

theorem chipResetMemory_effective (hm : s.chip.emode = some m) (hw : s.chip.wip = false) (latch : s.chip.rsten = true) :
    chipResetMemory m s = .next { s with
      chip := resetRegisters s.env.draws s.chip
      env.wire := none
      env.draws := s.env.draws + 1 } := by
  rw [chipResetMemory, chipAccept_idle hm hw]
  exact if_pos latch

end latches

/-- Settles O26: in either format the meaning is `chipResetEnable`, or `chipWriteEnable`. -/
theorem latchCommandsSetLatches : Obligations.LatchCommandsSetLatches :=
  fun _ hw => ⟨fun hm => ⟨chipResetEnable_idle hm hw, chipWriteEnable_idle hm hw⟩,
    fun hm => ⟨chipResetEnable_idle hm hw, chipWriteEnable_idle hm hw⟩⟩

/-- Settles O27: the registers after an effective reset are `resetRegisters`, which keeps the array. -/
theorem resetMemoryNeedsLatch : Obligations.ResetMemoryNeedsLatch := by
  intro s i hw format
  obtain ⟨m, hm, hexec⟩ : ∃ m, s.chip.emode = some m ∧ exec i s = chipResetMemory m s := by
    obtain ⟨rfl, hm⟩ | ⟨rfl, hm⟩ := format
    · exact ⟨.Spi, hm, rfl⟩
    · exact ⟨.Opi, hm, rfl⟩
  obtain ⟨wip, wel, spi⟩ := resetRegisters_flags s.env.draws s.chip
  exact ⟨fun latch => hexec.trans (chipResetMemory_ignored hm hw latch),
    fun latch => ⟨_, hexec.trans (chipResetMemory_effective hm hw latch), rfl, wip, wel, spi, rfl, rfl, rfl, rfl, rfl, rfl,
      rfl⟩⟩

/-! ### Registers and identification (R264 to R268) -/

/-- A command that only answers, at a chip that takes it (R73, R260). -/
theorem chipAnswer_answered {m : EMode} {b : Bool} {f : Chip → List Byte} {s : State} (hm : s.chip.emode = some m)
    (hw : s.chip.wip = true → b = true) : chipAnswer m b f s = .next (answered s (f s.chip)) :=
  chipAnswer_next.mpr ⟨hm, hw, rfl⟩

section registers
variable {m : EMode} {s : State} (hm : s.chip.emode = some m)
include hm

/-- The status register of an idle or a busy chip (R264). -/
theorem chipReadSr_answered : chipReadSr m s = .next (answered s [s.chip.sr]) :=
  chipAnswer_answered (f := fun c => [c.sr]) hm fun _ => rfl

variable (hw : s.chip.wip = false)
include hw

theorem chipReadCr_answered : chipReadCr m s = .next (answered s [s.chip.cr]) :=
  chipAnswer_answered (f := fun c => [c.cr]) hm (by simp [hw])

theorem chipReadCr2_answered (a : Addr) : chipReadCr2 m a s = .next (answered s [s.chip.cr2At a]) :=
  chipAnswer_answered (f := fun c => [c.cr2At a]) hm (by simp [hw])

theorem chipReadId_answered : chipReadId m s = .next (answered s Config.chipId) :=
  chipAnswer_answered (f := fun _ => Config.chipId) hm (by simp [hw])

end registers

/-- Settles O28: in either format each read is its own `chipAnswer`. -/
theorem registerReadCommandsAnswer : Obligations.RegisterReadCommandsAnswer :=
  fun _ a =>
    ⟨fun hm => ⟨chipReadSr_answered hm, fun hw =>
        ⟨chipReadCr_answered hm hw, chipReadCr2_answered hm hw a, chipReadId_answered hm hw⟩⟩,
      fun hm => ⟨chipReadSr_answered hm, fun hw =>
        ⟨chipReadCr_answered hm hw, chipReadCr2_answered hm hw a, chipReadId_answered hm hw⟩⟩⟩

/-- WRITE_SR_CR accepted, in either format: both registers and WIP (R268, R288). -/
theorem exec_writeSrCr {i : Instr} {m : EMode} {sr cr : Byte} {s : State}
    (hi : i.wireParts = some (m, .writeSrCr, none, .write [sr, cr])) (hm : s.chip.emode = some m)
    (hwip : s.chip.wip = false) (hwel : s.chip.wel = true) :
    exec i s = .next { s with
      chip := { s.chip with
        sr := (s.chip.sr &&& 0x03) ||| (sr &&& 0xFC) ||| 0x01, cr := cr, rsten := false, pending := .nothing }
      env.wire := none
      env.undoc := s.env.undoc || marks .writeSrCr none (.write [sr, cr]) s.chip } := by
  rw [exec_taken hi hm (by simp [hwip]) trivial (by simp), response_writeSrCr hwel]
  rfl

/-- Settles O30: `exec_writeSrCr` in each format; the mark is `marks_writeSrCr`. -/
theorem writeSrCrStoresBoth : Obligations.WriteSrCrStoresBoth := by
  intro s sr cr hwip hwel
  refine ⟨_, s.env.undoc || marks .writeSrCr none (.write [sr, cr]) s.chip, rfl, ?mark,
    fun hm => exec_writeSrCr rfl hm hwip hwel, fun hm => exec_writeSrCr rfl hm hwip hwel⟩
  case mark => rw [Bool.or_eq_true, marks_writeSrCr hwel]

/-! ### The array (R276 to R280) -/

/-- A program or an erase that is accepted changes the chip alone: it marks no register bit. -/
theorem exec_arrayCommand {i : Instr} {m : EMode} {l : Lop} {a : Option Addr} {p : Payload} {s : State}
    (hi : i.wireParts = some (m, l, a, p)) (hm : s.chip.emode = some m) (hwip : s.chip.wip = false)
    (hwel : s.chip.wel = true) (hr : reaches l a p) (hl : l ∈ arrayLops) :
    exec i s = .next { s with chip := s.chip.mutated (effectOf l a p), env.wire := none } := by
  have kinds : l.mutating = true ∧ l ∉ registerLops := by revert hl; cases l <;> decide
  rw [exec_accepted hi hm hwip hr kinds.1 hwel, altered, marks_eq_false kinds.2, Bool.or_false]

/-- Each byte of a page program is ANDed into its slot of the page, and every byte that is no slot stays (R276). -/
theorem Chip.byte_program {c : Chip} {a : Nat} {data : List Byte} (memory : c.memoryWf = true) (range : a < Config.capacity)
    (page : data.length ≤ Config.pageSize) :
    (∀ j b, data[j]? = some b → (c.program a data).byte (pageSlot a j) = c.byte (pageSlot a j) &&& b) ∧
      ∀ x, (∀ j < data.length, x ≠ pageSlot a j) → (c.program a data).byte x = c.byte x := by
  obtain ⟨array, -⟩ := Bool.and_eq_true_iff.mp memory
  refine ⟨fun j b hb => ?slot, fun x hx => ?other⟩
  case slot =>
    obtain ⟨hj, rfl⟩ := List.getElem?_eq_some_iff.mp hb
    have slot := programFrom_read_slot a range data 0 c.array array j hj page
    rwa [Nat.zero_add] at slot
  case other => exact programFrom_read_other a range data 0 c.array array x (by simpa only [Nat.zero_add] using hx)

/-- PAGE_PROGRAM accepted, in either format (R276, R288). -/
theorem exec_program {i : Instr} {m : EMode} {a : Addr} {data : List Byte} {s : State}
    (hi : i.wireParts = some (m, .pageProgram, some a, .write data)) (hm : s.chip.emode = some m)
    (hwip : s.chip.wip = false) (hwel : s.chip.wel = true) (hr : reaches .pageProgram (some a) (.write data)) :
    exec i s = .next { s with
      chip := { s.chip.program a.toNat data with sr := s.chip.sr ||| 0x01, rsten := false }
      env.wire := none } := by
  rw [exec_arrayCommand hi hm hwip hwel hr (by decide), mutated_eq]
  rfl

/-- Settles O32: `exec_program` in each format; the bytes are `Chip.byte_program`. -/
theorem pageProgramAndsWithinPage : Obligations.PageProgramAndsWithinPage := by
  intro s a data memory hwip hwel range nonempty page
  have reach : reaches .pageProgram (some a) (.write data) := ⟨nonempty, page, range⟩
  obtain ⟨slots, others⟩ := s.chip.byte_program memory range page
  exact ⟨(s.chip.program a.toNat data).array, _, rfl, fun hm => exec_program rfl hm hwip hwel reach,
    fun hm => exec_program rfl hm hwip hwel reach, slots, others⟩

/-- An erase accepted, of whatever unit: the unit's bytes become 0xFF, and WIP rises (R278 to R280, R288). -/
theorem exec_erase {i : Instr} {m : EMode} {l : Lop} {a : Option Addr} {s : State} (lo hi : Nat)
    (hparts : i.wireParts = some (m, l, a, .none)) (hm : s.chip.emode = some m) (hwip : s.chip.wip = false)
    (hwel : s.chip.wel = true) (hr : reaches l a .none) (hl : l ∈ arrayLops)
    (effect : effectOf l a .none = fun c => c.erase lo hi) :
    exec i s = .next { s with
      chip := { s.chip.erase lo hi with sr := s.chip.sr ||| 0x01, rsten := false }
      env.wire := none } := by
  rw [exec_arrayCommand hparts hm hwip hwel hr hl, effect, mutated_eq]
  rfl

/-- Settles O33: each command erases its own unit, and `Chip.byte_erase` says what the array then reads. -/
theorem eraseCommandsEraseUnit : Obligations.EraseCommandsEraseUnit := by
  intro s a hwip hwel range i lo hi command
  refine ⟨(s.chip.erase lo hi).array, _, rfl, ?next, s.chip.byte_erase lo hi⟩
  case next =>
    obtain ⟨hm, ⟨rfl, rfl, rfl⟩ | ⟨rfl, rfl, rfl⟩ | ⟨rfl, rfl, rfl⟩⟩ |
      ⟨hm, ⟨rfl, rfl, rfl⟩ | ⟨rfl, rfl, rfl⟩ | ⟨rfl, rfl, rfl⟩⟩ := command
    · exact exec_erase _ _ rfl hm hwip hwel range (by decide) rfl
    · exact exec_erase _ _ rfl hm hwip hwel range (by decide) rfl
    · exact exec_erase _ _ rfl hm hwip hwel trivial (by decide) rfl
    · exact exec_erase _ _ rfl hm hwip hwel range (by decide) rfl
    · exact exec_erase _ _ rfl hm hwip hwel range (by decide) rfl
    · exact exec_erase _ _ rfl hm hwip hwel trivial (by decide) rfl

end Sys2Proof.Machine
end

section
/-! PROOFS. Exceptions (R300 to R312): the dispatcher's chain of guards, what an abort writes, the faulted controller, and the
busy-wait at a chip that never completes. -/

namespace Sys2Proof.Machine

/-! ### The dispatcher's chain (R302) -/

/-- The codes of the host operations end below 0x11 (R130). -/
theorem requestCode_lt {i : Instr} {op : Byte} (h : i.requestCode = some op) : op.toNat < 0x11 := by
  by_contra hlt
  have reserved := decodeRequest_reserved (Nat.not_lt.mp hlt)
  rw [decodeRequest_eq_ok.mpr h] at reserved
  cases reserved

/-- The guards of a code that selects an operation: the check for a reserved code drops out. -/
theorem verdict_of_lt {op : Byte} (h : op.toNat < 0x11) (c : Ctrl) : verdict op c =
    if c.cstate = .faulted then .report
    else if ¬ (c.cstate = .unconstructed ↔ op = 0x00) then .abort .illegalRequest
    else if op = 0x00 then .run
    else if op = 0x10 ∧ c.mmode = .Direct then .abort .wrongMappingMode
    else if op ≠ 0x10 ∧ c.mmode = .MemoryMapped then .abort .wrongMappingMode
    else if op = 0x01 ∧ c.emode = .Opi then .abort .wrongElectricalMode
    else if op = 0x02 ∧ c.emode = .Spi then .abort .wrongElectricalMode
    else .run := by
  simp only [verdict, if_neg (Nat.not_le.mpr h), bne_iff_ne, ne_eq, decide_eq_decide]
  rfl

/-- Settles O10: the dispatch follows the verdict, guard by guard, and the model's refusal is asked last. `construct` has no
guard on the modes and no operand that is refused. -/
theorem dispatcherChecksInOrder : Obligations.DispatcherChecksInOrder := by
  intro s i op code idle
  rw [exec_idle code idle]
  unfold dispatch
  rw [verdict_of_lt (requestCode_lt code)]
  by_cases zero : op = 0x00
  · obtain rfl : i = .construct := (op_eq_zero_iff (decodeRequest_eq_ok.mpr code)).mp zero
    split_ifs <;> rfl
  · split_ifs
    case neg => cases barOf i s <;> rfl
    all_goals rfl

/-! ### Taking an abort (R300, R310, R311) -/

/-- Settles O12: the update of `abort`, field by field; `BUF` by `abort_buf`. -/
theorem abortEntryWritesFourRegisters : Obligations.AbortEntryWritesFourRegisters :=
  ⟨⟨rfl, rfl, rfl, rfl, rfl⟩, fun c s => ⟨rfl, abort_st c s, abort_seq c s, abort_xport c s, abort_chip c s, abort_trace c s,
    abort_op c s, abort_a c s, abort_n c s, abort_v0 c s, abort_v1 c s, abort_buf c s⟩⟩

/-! ### A faulted controller (R301, R312) -/

/-- The first check of the dispatcher (R302 step 1), whatever the code. -/
theorem verdict_faulted {c : Ctrl} (h : c.cstate = .faulted) (op : Byte) : verdict op c = .report := if_pos h

theorem dispatch_faulted {u : State} (h : u.ctrl.cstate = .faulted) (op : Byte) (p : Phase) (bar : Option Refusal) :
    dispatch op p bar u = .next { accepted u with x.st := u.ctrl.cause } :=
  dispatch_next.mpr (.inl ⟨verdict_faulted h op, rfl⟩)

/-- The controller and the transport stand as they stood, and no transport call is recorded: at most a read of the window. -/
structure Mute (u t : State) : Prop where
  ctrl : t.ctrl = u.ctrl
  xport : t.xport = u.xport
  trace : t.trace = u.trace ∨ ∃ a bytes, t.trace = u.trace ++ [.windowRead a bytes]

/-- A request to a faulted controller, the only thing it answers. -/
theorem mute_reported (u : State) : Mute u { accepted u with x.st := u.ctrl.cause } := ⟨rfl, rfl, .inl rfl⟩

/-- The host's turn calls the transport only for the window, and reaches the controller only by its power. -/
theorem mute_hostTurn {u t : State} (powered : u.env.script.head? ≠ some .powerCycle) (h : hostTurn u = .next t) : Mute u t := by
  obtain ⟨-, ctrl, -, xport, -, -, -, -, trace, -⟩ | ⟨-, ctrl, -, xport, -, -, -, -, -, window⟩ | ⟨rest, script, -⟩ :=
    hostTurn_next h
  · exact ⟨ctrl, xport, .inl trace⟩
  · exact ⟨ctrl, xport, .inr window⟩
  · exact absurd (by rw [script]; rfl) powered

/-- Every step at a faulted controller leaves it mute (R312). -/
theorem mute_step {s t : State} (faulted : s.ctrl.cstate = .faulted) (idle : s.ctrl.phase = .idle)
    (powered : s.env.script.head? ≠ some .powerCycle) (h : step s = .next t) : Mute (asked s) t := by
  have faulted' : (asked s).ctrl.cstate = .faulted := by rw [asked_ctrl, faulted]
  obtain ⟨-, -, rfl⟩ | ⟨x, i, q, -, -, parts, taken⟩ | ⟨-, -, i, -, code, run⟩ | ⟨-, -, -, reserved, run⟩ |
    ⟨-, -, -, turn⟩ := step_next h
  · exact ⟨rfl, rfl, .inl rfl⟩
  · obtain ⟨-, ctrl, -, -, xport, trace, -⟩ := chipStep_frame parts taken
    exact ⟨ctrl, xport, .inl trace⟩
  · rw [exec_idle code (by rw [asked_ctrl, idle]), dispatch_faulted faulted'] at run
    cases run
    exact mute_reported _
  · rw [dispatchReserved_eq (by rwa [asked_x]), if_pos faulted'] at run
    cases run
    exact mute_reported _
  · exact mute_hostTurn (by rwa [asked_script]) turn

/-- Settles O13: the dispatcher only reports, and no other move reaches the controller. -/
theorem faultedIsSticky : Obligations.FaultedIsSticky := by
  intro s t faulted idle powered h
  obtain ⟨ctrl, xport, trace⟩ := mute_step faulted idle powered h
  rw [asked_ctrl] at ctrl
  rw [asked_xport] at xport
  rw [asked_trace] at trace
  exact ⟨ctrl, xport, trace⟩

/-! ### A chip that never completes (R157, R308) -/

/-- A busy-wait whose chip is busy and is never allowed to complete: nothing the host could see has changed since `b`. -/
structure Stalled (m : EMode) (i : Instr) (b u : State) : Prop extends Waiting m i b u where
  busy : u.chip.wip = true
  never : u.env.done = ⟨[], false⟩
  cause : u.ctrl.cause = b.ctrl.cause

section stalled
variable {m : EMode} {i : Instr} {next : Phase} {b u : State}

/-- A poll is no abort: the cause stays. -/
theorem Waiting.step_cause (h : Waiting m i b u) (hwait : afterWait i = some next)
    (hdone : (u.chip.wip && u.env.done.head) = false) {v : State} (hstep : step u = .next v) :
    v.ctrl.cause = u.ctrl.cause := by
  have ha := h.asked
  rw [h.step_exec hdone, busyWaitRound m _ i next hwait ha.phase ha.toConnected] at hstep
  cases hstep
  change (Machine.asked u).ctrl.cause = u.ctrl.cause
  rw [asked_ctrl]

/-- The schedule has nothing but refusals to use up, so the wait is where it was. -/
theorem Stalled.step (h : Stalled m i b u) (hwait : afterWait i = some next) :
    ∃ v, step u = .next v ∧ Stalled m i b v := by
  have withheld : u.env.done.head = false := by rw [h.never]; rfl
  obtain ⟨v, hstep, waiting, busy, rest⟩ := h.stays hwait h.busy withheld
  have cause := h.step_cause hwait (by rw [withheld, Bool.and_false]) hstep
  exact ⟨v, hstep, { waiting with busy := busy, never := by rw [rest, h.never]; rfl, cause := cause.trans h.cause }⟩

theorem Stalled.run (hwait : afterWait i = some next) (k : Nat) (h : Stalled m i b u) :
    ∃ t, run k u = .next t ∧ Stalled m i b t := by
  induction k generalizing u with
  | zero => exact ⟨u, rfl, h⟩
  | succ k ih =>
    obtain ⟨v, hstep, hv⟩ := h.step hwait
    obtain ⟨t, hrun, ht⟩ := ih hv
    exact ⟨t, (run_succ hstep k).trans hrun, ht⟩

end stalled

/-- Settles O58: the wait is stalled, and by induction on the steps stays so. -/
theorem stalledChipHangs : Obligations.StalledChipHangs := by
  intro m s i next code hwait phase connected calls busy never k
  have stalled : Stalled m i s s :=
    { connected with
      phase := phase, code := code, calls := calls, array := rfl, cstate := rfl, x := rfl
      busy := busy, never := never, cause := rfl }
  obtain ⟨t, hrun, ht⟩ := stalled.run hwait k
  exact ⟨t, hrun, ht.phase, ht.cstate, ht.cause, ht.x, ht.busy⟩

end Sys2Proof.Machine
end
